-- ==== Sys2Proof/Word.lean ====
section
/-! DEFINITION. The words of the block and the small enumerations every other file uses
(00_scope.md section 6, 10_state.md sections 2 and 3). -/

namespace Sys2Proof

/-- An operation word: 10 bits (30_encoding.md R60). -/
abbrev OpWord := BitVec 10

/-- A byte: 8 bits (00_scope.md section 6). -/
abbrev Byte := BitVec 8

/-- A nibble: 4 bits, the unit of transfer in 4-bit bus mode (00_scope.md section 7). -/
abbrev Nibble := BitVec 4

/-- A physical pin id, 0..15; ids outside do not exist (20_memory.md R40, parameter `N_PINS`). -/
abbrev PinId := Fin 16

/-- A pin level, `L` or `H` (00_scope.md section 6). -/
inductive Level
  | low
  | high
  deriving DecidableEq, Repr, Inhabited

/-- A pin direction, the document's `Input|Output` (10_state.md R10). -/
inductive PinDir
  | input
  | output
  deriving DecidableEq, Repr, Inhabited

/-- The device's registers, the document's Register type (10_state.md R14, 20_memory.md R41). -/
inductive DevReg
  | instruction
  | data
  | busyFlagRead
  deriving DecidableEq, Repr, Inhabited

/-- The eleven logical signals; `d i` is data line Di (00_scope.md section 6). -/
inductive Signal
  | rs
  | rw
  | en
  | d (i : Fin 8)
  deriving DecidableEq, Repr

end Sys2Proof
end

