-- ==== Sys2Proof/Machine/Flags.lean ====
section
/-! DEFINITION. The fields of `STATUS` (CR4): RDY bit 0, CFGERR bit 1, NORESP bit 2 (10_state.md R25). These are
the block's only flags. -/

namespace Sys2Proof.Machine

/-- `STATUS.RDY` of a status word. -/
def statusRdy (st : BitVec 3) : Bool := st.getLsbD 0

/-- `STATUS.CFGERR` of a status word. -/
def statusCfgErr (st : BitVec 3) : Bool := st.getLsbD 1

/-- `STATUS.NORESP` of a status word. -/
def statusNoResp (st : BitVec 3) : Bool := st.getLsbD 2

/-- The status word with RDY set to `b`, the other bits kept. -/
def statusSetRdy (b : Bool) (st : BitVec 3) : BitVec 3 :=
  if b then st ||| 0b001#3 else st &&& 0b110#3

/-- The status word after `raise ConfigurationError`: CFGERR set, RDY 1 (60_exceptions.md R175). -/
def statusRaiseConfig (st : BitVec 3) : BitVec 3 := st ||| 0b011#3

/-- The status word after `raise DeviceNotResponding`: NORESP set, RDY 1 (60_exceptions.md R175). -/
def statusRaiseNoResp (st : BitVec 3) : BitVec 3 := st ||| 0b101#3

/-- The status word at reset: RDY alone where the construction check passes, CFGERR alone where it fails
(10_state.md R31, 70_reset_and_hazards.md R190). -/
def statusAtReset (constructionOk : Bool) : BitVec 3 :=
  if constructionOk then 0b001#3 else 0b010#3

end Sys2Proof.Machine
end

