-- ==== Sys2Proof/Config.lean ====
section
/-! DEFINITION. What an instance of the block fixes at construction: the parameters of 00_scope.md section 5
and the constants CR0..CR3 of 10_state.md section 5; and the one free value, the level an `R` event returns. -/

namespace Sys2Proof

/-- The parameters of one instance, with the values of 00_scope.md section 5 as defaults; none changes after
construction (R4). Durations are microseconds. -/
structure Params where
  /-- `T_EN_HI_US`, the enable high hold. -/
  tEnHi : Nat := 1
  /-- `T_EN_LO_US`, the enable low hold; 0 means that no delay is emitted. -/
  tEnLo : Nat := 1
  /-- `T_PWR_US`, the power-on wait. -/
  tPwr : Nat := 50000
  /-- `T_INIT_US`, the wait after each ForceEightBit attempt. -/
  tInit : Nat := 4100
  /-- `T_CLEAR_US`, the wait after CLEAR or HOME. -/
  tClear : Nat := 1600
  /-- `T_CMD_US`, the wait after every other instruction and every data write. -/
  tCmd : Nat := 46
  /-- `N_FORCE8` of a FixedDelay instance. -/
  nForce8Fixed : Nat := 3
  /-- `N_FORCE8` of a BusyFlagPoll instance. -/
  nForce8Poll : Nat := 2
  /-- `BF_RETRY_MAX`, the bound on the samples of one poll; OPEN in the spec (D11), `none` by default. -/
  bfRetryMax : Option Nat := none
  deriving DecidableEq, Repr

/-- The constants of one instance: CR0..CR3 (10_state.md R20 to R24) and the parameters (00_scope.md R4). -/
structure Consts where
  /-- `PM_CTL` (CR0): RS [3:0], RW [7:4], EN [11:8] (10_state.md R20). -/
  pmCtl : BitVec 12
  /-- `PM_DAT` (CR1): Di at [4i+3:4i] (10_state.md R21). -/
  pmDat : BitVec 32
  /-- `CFG` (CR2): BW 0, HS 1, RWP 2, N 3, F 4 (10_state.md R22). -/
  cfg : BitVec 5
  /-- `COLS` (CR3), the visible columns (10_state.md R23). -/
  cols : BitVec 8
  /-- The parameters of 00_scope.md section 5. -/
  prm : Params
  deriving DecidableEq, Repr

/-- The configuration Map A of 95_test_vectors.md: the instance `State.reset` is constructed as.
DESIGN CHOICE: the spec leaves the construction values to the caller (unsafe; log entry 1). -/
def Config.resetConsts : Consts :=
  { pmCtl := 0xB0C#12, pmDat := 0x23450000#32, cfg := 0b01000#5, cols := 20#8, prm := {} }

/-- Free value: the level the environment answers to the n-th `R` event of the run, where State lines up no
answer (10_state.md R12, 20_memory.md R45: a free draw per `R` event). No body: nothing constrains it
(safe; log entry 3). -/
opaque Config.pinLevel : Nat → Level

end Sys2Proof
end

