-- ==== Sys2Proof/Syntax.lean ====
section
/-! DEFINITION. The operations of the block, one constructor per row of spec/opcode_table.json
(30_encoding.md R62, R65, R66). Flags are named as R63 names them; the addresses are naturals, because
the range check on them is part of the operations (30_encoding.md R64, 43_commands.md R126, R127). -/

namespace Sys2Proof

/-- An operation of the block. -/
inductive Instr
  /-- CLEAR (43_commands.md R121). -/
  | clear
  /-- HOME (43_commands.md R122). -/
  | home
  /-- ENTRY_MODE with `ENTRY_INC` and `ENTRY_SHIFT` (43_commands.md R123). -/
  | entryMode (inc shift : Bool)
  /-- DISPLAY with `DISPLAY_ON`, `CURSOR_ON` and `BLINK_ON` (43_commands.md R124). -/
  | display (on cursor blink : Bool)
  /-- SHIFT with `SHIFT_DISPLAY` and `SHIFT_RIGHT` (43_commands.md R125). -/
  | shift (disp right : Bool)
  /-- FUNCTION_SET with `FS_8BIT`, `FS_2LINE`, `FS_5X11` and the two ignored bits (43_commands.md R129). -/
  | functionSet (eightBit twoLine tall : Bool) (ign : BitVec 2)
  /-- SET_CGRAM with the CGRAM address (43_commands.md R126). -/
  | setCgram (a : Nat)
  /-- SET_DDRAM with the DDRAM address (43_commands.md R127). -/
  | setDdram (a : Nat)
  /-- WRITE_DATA with the data byte (43_commands.md R128). -/
  | writeData (b : Byte)
  /-- WAIT (42_handshake.md R113). -/
  | wait
  /-- SETUP (45_init.md R155). -/
  | setup
  deriving DecidableEq, Repr

end Sys2Proof
end

