-- ==== Sys2Proof/WellFormed.lean ====
section
/-! DEFINITION. Which operations are well formed: every operand fits the field that carries it
(30_encoding.md R64). -/

namespace Sys2Proof

/-- Every operand fits its field: a CGRAM address has 6 bits, a DDRAM address 7 (30_encoding.md R64). -/
def Instr.wellFormed : Instr → Bool
  | .clear => true
  | .home => true
  | .entryMode _ _ => true
  | .display _ _ _ => true
  | .shift _ _ => true
  | .functionSet _ _ _ _ => true
  | .setCgram a => decide (a ≤ 63)
  | .setDdram a => decide (a ≤ 127)
  | .writeData _ => true
  | .wait => true
  | .setup => true

end Sys2Proof
end

