-- ==== Sys2Proof/Decode.lean ====
section
/-! DEFINITION. The operation word decoder and the encoder (30_encoding.md R60 to R68). The table rows are those of
R62, R65 and R66 in ten bits; a word that matches no row is reserved and rejected under the name of the line of
R68's table it falls in. The FUNCTION_SET row decodes to its operation, which the command port does not take
(`Instr.fromPort`, R68). -/

namespace Sys2Proof

/-- Why a word is reserved (30_encoding.md R68). -/
inductive Reserved
  /-- Instruction byte 0x00 is no operation. -/
  | noOperation
  /-- HOME has no option flags: instruction byte 0x03. -/
  | homeFlag
  /-- SHIFT has options at bits 3 and 2 only: bits [1:0] are not 0. -/
  | shiftLowBits
  /-- `sel = 2` with a non-zero sub-opcode. -/
  | pollSubOpcode
  /-- `sel = 3` with a non-zero sub-opcode. -/
  | sysSubOpcode
  deriving DecidableEq, Repr

/-- Bit `i` of an operation word. -/
def wordBit (w : OpWord) (i : Nat) : Bool := w.getLsbD i

/-- The field `sel` of an operation word, bits [9:8] (30_encoding.md R60). -/
def wordSel (w : OpWord) : BitVec 2 := w.extractLsb' 8 2

/-- The field `byte` of an operation word, bits [7:0] (30_encoding.md R60). -/
def wordByte (w : OpWord) : Byte := w.extractLsb' 0 8

/-- A row of the opcode table: a word `w` is of the row when `w & mask = pattern` (30_encoding.md R62). -/
structure Row where
  mnemonic : String
  pattern : OpWord
  mask : OpWord
  read : OpWord → Instr

/-- The word is of the row. -/
def rowFits (r : Row) (w : OpWord) : Bool := w &&& r.mask == r.pattern

/-- The opcode table (30_encoding.md R62, R65, R66); each row's reader takes the operands of R63 and R64. -/
def opcodeRows : List Row :=
  [ ⟨"CLEAR", 0x001#10, 0x3FF#10, fun _ => .clear⟩,
    ⟨"HOME", 0x002#10, 0x3FF#10, fun _ => .home⟩,
    ⟨"ENTRY_MODE", 0x004#10, 0x3FC#10, fun w => .entryMode (wordBit w 1) (wordBit w 0)⟩,
    ⟨"DISPLAY", 0x008#10, 0x3F8#10, fun w => .display (wordBit w 2) (wordBit w 1) (wordBit w 0)⟩,
    ⟨"SHIFT", 0x010#10, 0x3F3#10, fun w => .shift (wordBit w 3) (wordBit w 2)⟩,
    ⟨"FUNCTION_SET", 0x020#10, 0x3E0#10,
      fun w => .functionSet (wordBit w 4) (wordBit w 3) (wordBit w 2) (w.extractLsb' 0 2)⟩,
    ⟨"SET_CGRAM", 0x040#10, 0x3C0#10, fun w => .setCgram (w &&& 0x3F#10).toNat⟩,
    ⟨"SET_DDRAM", 0x080#10, 0x380#10, fun w => .setDdram (w &&& 0x7F#10).toNat⟩,
    ⟨"WRITE_DATA", 0x100#10, 0x300#10, fun w => .writeData (wordByte w)⟩,
    ⟨"WAIT", 0x200#10, 0x3FF#10, fun _ => .wait⟩,
    ⟨"SETUP", 0x300#10, 0x3FF#10, fun _ => .setup⟩ ]

/-- The line of R68's table that a word matching no row falls in: by `sel`, and for `sel = 0` by the byte. -/
def reservedReason (w : OpWord) : Reserved :=
  if wordSel w = 3#2 then .sysSubOpcode
  else if wordSel w = 2#2 then .pollSubOpcode
  else if wordByte w = 0x00#8 then .noOperation
  else if wordByte w = 0x03#8 then .homeFlag
  else .shiftLowBits

/-- Decode an operation word; reads no state (30_encoding.md R61). -/
def decode (w : OpWord) : Except Reserved Instr :=
  match opcodeRows.find? (fun r => rowFits r w) with
  | some r => .ok (r.read w)
  | none => .error (reservedReason w)

/-- The command port takes the operation: every one but FUNCTION_SET, which only SETUP issues (30_encoding.md R68). -/
def Instr.fromPort : Instr → Bool
  | .clear => true
  | .home => true
  | .entryMode _ _ => true
  | .display _ _ _ => true
  | .shift _ _ => true
  | .functionSet _ _ _ _ => false
  | .setCgram _ => true
  | .setDdram _ => true
  | .writeData _ => true
  | .wait => true
  | .setup => true

/-- A flag at bit `n` of an instruction byte (30_encoding.md R63). -/
def flagAt (b : Bool) (n : Nat) : Byte := if b then 1#8 <<< n else 0#8

/-- The instruction byte of ENTRY_MODE (43_commands.md R123). -/
def entryModeByte (inc shift : Bool) : Byte := 0x04#8 ||| flagAt inc 1 ||| flagAt shift 0

/-- The instruction byte of DISPLAY (43_commands.md R124). -/
def displayByte (on cursor blink : Bool) : Byte :=
  0x08#8 ||| flagAt on 2 ||| flagAt cursor 1 ||| flagAt blink 0

/-- The instruction byte of SHIFT (43_commands.md R125). -/
def shiftByte (disp right : Bool) : Byte := 0x10#8 ||| flagAt disp 3 ||| flagAt right 2

/-- The instruction byte of FUNCTION_SET, with its two ignored bits as given (43_commands.md R129, 30_encoding.md R62). -/
def functionSetByte (eightBit twoLine tall : Bool) (ign : BitVec 2) : Byte :=
  0x20#8 ||| flagAt eightBit 4 ||| flagAt twoLine 3 ||| flagAt tall 2 ||| ign.setWidth 8

/-- The instruction byte of SET_CGRAM, for an address that fits 6 bits (43_commands.md R126). -/
def cgramByte (a : Nat) : Byte := 0x40#8 ||| BitVec.ofNat 8 a

/-- The instruction byte of SET_DDRAM, for an address that fits 7 bits (43_commands.md R127). -/
def ddramByte (a : Nat) : Byte := 0x80#8 ||| BitVec.ofNat 8 a

/-- The word with the given `sel` and `byte` (30_encoding.md R60). -/
def opWord (sel : BitVec 2) (b : Byte) : OpWord := sel ++ b

/-- The operation word of a well-formed operation (30_encoding.md R72, the column "assembles to"; for FUNCTION_SET the
word of its table row). -/
def encode : Instr → OpWord
  | .clear => opWord 0#2 0x01#8
  | .home => opWord 0#2 0x02#8
  | .entryMode inc shift => opWord 0#2 (entryModeByte inc shift)
  | .display on cursor blink => opWord 0#2 (displayByte on cursor blink)
  | .shift disp right => opWord 0#2 (shiftByte disp right)
  | .functionSet eightBit twoLine tall ign => opWord 0#2 (functionSetByte eightBit twoLine tall ign)
  | .setCgram a => opWord 0#2 (cgramByte a)
  | .setDdram a => opWord 0#2 (ddramByte a)
  | .writeData b => opWord 1#2 b
  | .wait => opWord 2#2 0x00#8
  | .setup => opWord 3#2 0x00#8

/-- The bits of an instruction as a natural number: `nbits` of `w`, the bits above them 0. -/
def tableBits (nbits w : Nat) : Nat := w % 2 ^ nbits

/-- The operation the decoder reads from the word whose bits are `w`; a number that needs more than ten bits is no
operation word (30_encoding.md R60). -/
def decodeTableWord (nbits w : Nat) : Option Instr :=
  if tableBits nbits w < 1024 then (decode (BitVec.ofNat 10 (tableBits nbits w))).toOption else none

end Sys2Proof
end

