-- ==== Sys2Proof/Machine/Operands.lean ====
section
/-! DEFINITION. Every operand form and every derived constant: levels, the configuration's fields, the pin-map
decoder, the splitter, the delay classes, the two address maps (10_state.md R20 to R28; 20_memory.md R48, R49;
40_pinmap.md; 41_transfer.md R95). All are functions of the instance's constants alone. -/

namespace Sys2Proof.Machine

/-- `lvl(b)`: High when the bit is 1 (00_scope.md section 6). -/
def lvl (b : Bool) : Level := if b then .high else .low

/-- `bit(l)`, the inverse of `lvl` (00_scope.md section 6). -/
def levelBit : Level → Bool
  | .low => false
  | .high => true

/-- The 2-bit code of a device register (10_state.md R14); the value 3 never occurs. -/
def regCode : DevReg → BitVec 2
  | .instruction => 0#2
  | .data => 1#2
  | .busyFlagRead => 2#2

/-- `CFG.BW = EightBit` (10_state.md R22, bit 0). -/
def eightBit (c : Consts) : Bool := c.cfg.getLsbD 0

/-- `CFG.HS = BusyFlagPoll` (10_state.md R22, bit 1). -/
def busyFlagPoll (c : Consts) : Bool := c.cfg.getLsbD 1

/-- `CFG.RWP`: the read/write pin is wired (10_state.md R22, bit 2). -/
def rwWired (c : Consts) : Bool := c.cfg.getLsbD 2

/-- `CFG.N`: two lines (10_state.md R22, bit 3). -/
def twoLines (c : Consts) : Bool := c.cfg.getLsbD 3

/-- `CFG.F`: 5×11 font (10_state.md R22, bit 4). -/
def tallFont (c : Consts) : Bool := c.cfg.getLsbD 4

/-- `ROWS`: 8 rows for a 5×8 font, 11 for 5×11 (10_state.md R28). -/
def glyphRows (c : Consts) : Nat := if tallFont c then 11 else 8

/-- `FUNC`, the final function-set byte `0x20 | BW<<4 | N<<3 | F<<2` (10_state.md R28). -/
def funcByte (c : Consts) : Byte := functionSetByte (eightBit c) (twoLines c) (tallFont c) 0#2

/-- `NDATA`, the number of data pins used (10_state.md R28). -/
def dataWidth (c : Consts) : Nat := if eightBit c then 8 else 4

/-- `N_FORCE8` of the instance (00_scope.md section 5, 45_init.md R158). -/
def forceCount (c : Consts) : Nat := if busyFlagPoll c then c.prm.nForce8Poll else c.prm.nForce8Fixed

/-- A 4-bit field of a packed word as a pin id. -/
def pinField {n : Nat} (w : BitVec n) (lo : Nat) : PinId := (w.extractLsb' lo 4).toFin

/-- `resolve(s)`: the pin id of a signal (40_pinmap.md R80). -/
def resolve (c : Consts) : Signal → PinId
  | .rs => pinField c.pmCtl 0
  | .rw => pinField c.pmCtl 4
  | .en => pinField c.pmCtl 8
  | .d i => pinField c.pmDat (4 * i.val)

/-- Data line D7, the most significant data pin (20_memory.md R42). -/
def d7 : Signal := .d 7

/-- The used data signals in ascending index: D4..D7 (FourBit) or D0..D7 (EightBit) (40_pinmap.md R82). -/
def dataSignals (c : Consts) : List Signal :=
  if eightBit c then [.d 0, .d 1, .d 2, .d 3, .d 4, .d 5, .d 6, .d 7] else [.d 4, .d 5, .d 6, .d 7]

/-- The used signals in the order RS, RW (if wired), EN, data ascending (40_pinmap.md R82). -/
def usedSignals (c : Consts) : List Signal :=
  [.rs] ++ (if rwWired c then [.rw] else []) ++ [.en] ++ dataSignals c

/-- `split(b)`: the high nibble and the low nibble (41_transfer.md R95). -/
def split (b : Byte) : Nibble × Nibble := ((b >>> 4).setWidth 4, (b &&& 0xF#8).setWidth 4)

/-- The document's PinAssignment: a pin number for every signal; the numbers of unused signals are not looked at, so an
absent one is any number (40_pinmap.md R81). -/
structure PinAssignment where
  rs : Nat
  rw : Nat
  en : Nat
  d : Vector Nat 8
  deriving DecidableEq, Repr

/-- The pin number an assignment gives a signal. -/
def assigned (a : PinAssignment) : Signal → Nat
  | .rs => a.rs
  | .rw => a.rw
  | .en => a.en
  | .d i => a.d[i]

/-- Check (a) of the construction: the pin id of every used signal is in 0..15 (10_state.md R24, 40_pinmap.md R81). -/
def pinsFit (c : Consts) (a : PinAssignment) : Bool :=
  (usedSignals c).all fun s => decide (assigned a s ≤ 15)

/-- The number packed for a signal: its pin number if it is used, else 0 (40_pinmap.md R81). -/
def packedPin (c : Consts) (a : PinAssignment) (s : Signal) : Nat :=
  if s ∈ usedSignals c then assigned a s else 0

/-- `PM_CTL` of an assignment (40_pinmap.md R81). -/
def packCtl (c : Consts) (a : PinAssignment) : BitVec 12 :=
  BitVec.ofNat 12 ((packedPin c a .en <<< 8) ||| (packedPin c a .rw <<< 4) ||| packedPin c a .rs)

/-- `PM_DAT` of an assignment: the OR of the data pins, each at its field (40_pinmap.md R81). -/
def packDat (c : Consts) (a : PinAssignment) : BitVec 32 :=
  BitVec.ofNat 32 ((List.finRange 8).foldl (fun w i => w ||| (packedPin c a (.d i) <<< (4 * i.val))) 0)

/-- `pack(a)`: the constants with the packed pin map, or nothing where a used pin id does not fit (40_pinmap.md R81). -/
def pack (c : Consts) (a : PinAssignment) : Option Consts :=
  if pinsFit c a then some { c with pmCtl := packCtl c a, pmDat := packDat c a } else none

/-- Check (b) of the construction: not BusyFlagPoll without a wired read/write pin (10_state.md R24). -/
def handshakeLegal (c : Consts) : Bool := !(busyFlagPoll c && !rwWired c)

/-- The first address of a display row of the two-line geometry (20_memory.md R48). -/
def rowBase (c : Consts) (row : Nat) : Nat :=
  if row = 1 then 0x00
  else if row = 2 then 0x40
  else if row = 3 then c.cols.toNat
  else 0x40 + c.cols.toNat

/-- `ddaddr(col, row)`, for col and row counted from 1 (20_memory.md R48). -/
def ddaddr (c : Consts) (col row : Nat) : Nat :=
  if twoLines c then rowBase c row + (col - 1) else (row - 1) * c.cols.toNat + (col - 1)

/-- `cgaddr(x, r)`: row r of the glyph with index x (20_memory.md R49). -/
def cgaddr (c : Consts) (x r : Nat) : Nat := x * glyphRows c + r

end Sys2Proof.Machine
end

