-- ==== Sys2Proof/Machine/State.lean ====
section
/-! DEFINITION. The state of the block, its outcomes and its reset (10_state.md; 70_reset_and_hazards.md R190). -/

namespace Sys2Proof.Machine

/-- A GPIO transaction (00_scope.md section 6). -/
inductive Event
  /-- `M(p, d)`: set the direction of pin p. -/
  | m (p : PinId) (d : PinDir)
  /-- `W(p, l)`: write the output latch of pin p. -/
  | w (p : PinId) (l : Level)
  /-- `R(p) = l`: read pin p; the environment answered l. -/
  | r (p : PinId) (l : Level)
  /-- `D(n)`: at least n microseconds pass. -/
  | d (n : Nat)
  deriving DecidableEq, Repr

/-- The phase of an operation that waits, transfers and waits (10_state.md R16). -/
inductive Phase
  | prewait
  | xfer
  | postwait
  deriving DecidableEq, Repr

/-- The steps of SETUP that are ordinary instruction operations, `S_FUNC` .. `S_DON` (10_state.md R16). -/
inductive SetupStep
  | func
  | doff
  | home
  | clear
  | entry
  | don
  deriving DecidableEq, Repr

/-- `SEQ`, the sequencer state (10_state.md R16). Within `S_FUNC` .. `S_DON` the block passes through the three phases,
and the SETUP value says which step is running. -/
inductive SeqState
  /-- `IDLE`. -/
  | idle
  /-- `PREWAIT`, `XFER` or `POSTWAIT` of an operation outside SETUP. -/
  | op (ph : Phase)
  /-- `S_PINCFG`. -/
  | sPincfg
  /-- `S_PWRWAIT`. -/
  | sPwrwait
  /-- `S_FORCE8(k)`. -/
  | sForce8 (k : Nat)
  /-- `S_SET4`. -/
  | sSet4
  /-- `S_FUNC` .. `S_DON`, with the phase the step is in. -/
  | sStep (st : SetupStep) (ph : Phase)
  deriving DecidableEq, Repr

/-- One line of an operation's pseudocode. The list of those still to do is what is left of the operation in progress:
it says where inside a phase the sequencer stands. -/
inductive Act
  /-- `SETUPS <- SETUPS + 1` (45_init.md R155). -/
  | countSetup
  /-- `SEQ <- q` (10_state.md R16), and with it `STATUS.RDY` (R25). -/
  | seq (q : SeqState)
  /-- Operation decode: `XB <- b ; RSEL <- reg` (10_state.md R13, R14). -/
  | load (reg : DevReg) (b : Byte)
  /-- `prewait()` (42_handshake.md R105). -/
  | prewait
  /-- The poll's loop, at its head (42_handshake.md R109). -/
  | pollLoop
  /-- `xfer(reg, b)` (41_transfer.md R90). -/
  | xfer (reg : DevReg) (b : Byte)
  /-- `postwait(T)` (42_handshake.md R105). -/
  | postwait (t : Nat)
  /-- `RSEL <- reg ; select(reg)` (45_init.md R158). -/
  | select (reg : DevReg)
  /-- `rawcycle(v)` (41_transfer.md R98). -/
  | rawcycle (v : Byte)
  /-- `emit D(n)`, under both handshake strategies (45_init.md R157 to R159). -/
  | delay (n : Nat)
  /-- The pin-configuration prologue (45_init.md R156). -/
  | pinConfig
  deriving DecidableEq, Repr

/-- What the host presents: an operation word, an operation by its mnemonic (30_encoding.md R72), or a
pseudo-operation (30_encoding.md R73, 44_compound.md). -/
inductive Request
  /-- The operation word itself. -/
  | word (w : OpWord)
  /-- A primitive operation written in the spec's assembler syntax. -/
  | asm (i : Instr)
  /-- `MOVE_TO col, row` (44_compound.md R141). -/
  | moveTo (col row : Nat)
  /-- `PRINT_CHAR c` (44_compound.md R143). -/
  | printChar (c : Byte)
  /-- `DEFINE_CHAR x, bm` (44_compound.md R145). -/
  | defineChar (x : Nat) (bm : List Byte)
  /-- `PRINT_STR cs`; the list holds its terminator (44_compound.md R146). -/
  | printStr (cs : List Byte)
  /-- `PRINT_UINT v, base` (44_compound.md R147). -/
  | printUint (v : BitVec 32) (base : Nat)
  /-- `PRINT_INT v, base`; v is the 32-bit two's complement of the value (44_compound.md R147, log entry 16). -/
  | printInt (v : BitVec 32) (base : Nat)
  deriving DecidableEq, Repr

/-- Why the machine stops with a fault. The block's own errors are no faults of the model: they are next states with a
sticky bit of STATUS (60_exceptions.md R175). -/
inductive Fault
  /-- Raised by `step` where SEQ is not IDLE and no line of an operation is left to do. No run reaches such a state and
  the spec's block is never stuck (60_exceptions.md R185): safe (log entry 17). -/
  | sequencerLost
  deriving DecidableEq, Repr

/-- Why an input has no meaning. -/
inductive Refusal
  /-- An arm of `exec` that has no meaning yet; safe. -/
  | notModelled (mnemonic : String)
  /-- Raised by `step` and by the expansion of a request: a reserved operation word (30_encoding.md R68); safe. -/
  | reservedWord (w : OpWord)
  /-- Raised by SET_CGRAM, SET_DDRAM and the pseudo-operations: an operand out of range (43_commands.md R126, R127;
  44_compound.md R141, R145, R147); safe. -/
  | operandOutOfRange
  /-- Raised by the expansion of PRINT_STR: the sequence has no terminator (44_compound.md R146, 60_exceptions.md R185);
  safe. -/
  | unterminatedString
  deriving DecidableEq, Repr

/-- The state of the block (10_state.md section 1), and after it the model's own fields. -/
structure State where
  /-- `DIR` (10_state.md R10). -/
  dir : Vector PinDir 16
  /-- `OUT` (10_state.md R11). -/
  out : Vector Level 16
  /-- `XB` (10_state.md R13). -/
  xb : Byte
  /-- `RSEL` (10_state.md R14). -/
  rsel : DevReg
  /-- `BFS` (10_state.md R15). -/
  bfs : Bool
  /-- `PCNT` (10_state.md R15). -/
  pcnt : Nat
  /-- `TMR`: the value a `D` event last loaded (10_state.md R17); the countdown is time and is not modelled (log entry 6). -/
  tmr : Nat
  /-- `SEQ` (10_state.md R16). -/
  seq : SeqState
  /-- `PM_CTL`, `PM_DAT`, `CFG`, `COLS` and the parameters: constants of the instance (10_state.md R20 to R24,
  00_scope.md R4). -/
  con : Consts
  /-- `STATUS` (10_state.md R25). -/
  status : BitVec 3
  /-- `H`, the event trace, oldest first (10_state.md R18). -/
  h : List Event
  /-- `SETUPS`, the ghost count (10_state.md R19). -/
  setups : Nat
  /-- Model's own: the lines still to do of the operation in progress; empty when none is (log entry 5). -/
  todo : List Act
  /-- Model's own: the operation words the host is presenting (log entry 10). -/
  port : List OpWord
  /-- Model's own: what the host presents after them (log entry 10). -/
  host : List Request
  /-- Model's own: the levels the environment will answer to the next `R` events (log entry 3). -/
  tape : List Level
  /-- Model's own: how many `R` events there have been; the index of the free value (log entry 3). -/
  reads : Nat
  deriving DecidableEq, Repr

/-- Reset of the block (70_reset_and_hazards.md R190): the instance with constants `c`, where `fit` says whether check (a)
of the construction passed (10_state.md R24). `XB`, `RSEL`, `BFS` and `PCNT` are unspecified by the spec:
DESIGN CHOICE, unsafe (log entry 2). -/
def State.resetWith (c : Consts) (fit : Bool) : State :=
  { dir := Vector.replicate 16 .input
    out := Vector.replicate 16 .low
    xb := 0#8
    rsel := .instruction
    bfs := false
    pcnt := 0
    tmr := 0
    seq := .idle
    con := c
    status := statusAtReset (fit && handshakeLegal c)
    h := []
    setups := 0
    todo := []
    port := []
    host := []
    tape := []
    reads := 0 }

/-- The machine right after reset, as the instance of Map A (10_state.md R31; log entry 1). -/
def State.reset : State := State.resetWith Config.resetConsts true

/-- The construction of an instance from the caller's pin assignment and options: pack, check, reset (10_state.md R24).
Where a pin id does not fit, nothing was packed and both pin-map words are 0 (log entry 12). -/
def State.construct (a : PinAssignment) (cfg : BitVec 5) (cols : BitVec 8) (prm : Params) : State :=
  let c : Consts := { pmCtl := 0#12, pmDat := 0#32, cfg := cfg, cols := cols, prm := prm }
  match pack c a with
  | some c' => State.resetWith c' true
  | none => State.resetWith c false

end Sys2Proof.Machine
end

