-- ==== Sys2Proof/Machine/Ops.lean ====
section
/-! DEFINITION. The named operations of the block: emitting events, the transfer engine, the handshake, the taking of
an exception, and the sequencer that runs an operation's lines (00_scope.md section 6; 41_transfer.md; 42_handshake.md;
60_exceptions.md R175). An event list is a function of the instance's constants; a state changes by emitting it. -/

namespace Sys2Proof.Machine

/-- `STATUS.RDY` (10_state.md R25). -/
def State.rdy (s : State) : Bool := statusRdy s.status

/-- `STATUS.CFGERR` (10_state.md R25). -/
def State.cfgErr (s : State) : Bool := statusCfgErr s.status

/-- `STATUS.NORESP` (10_state.md R25). -/
def State.noResp (s : State) : Bool := statusNoResp s.status

/-- The level a pin drives onto its wire: its latch, while it is an output (10_state.md R11). -/
def State.driven (s : State) (p : PinId) : Option Level :=
  if s.dir[p] = .output then some s.out[p] else none

/-- `emit e`: the trace grows by e and e has its effect (00_scope.md section 6; 10_state.md R10, R11, R17, R18). -/
def emit (e : Event) (s : State) : State :=
  match e with
  | .m p d => { s with dir := s.dir.set p d, h := s.h ++ [e] }
  | .w p l => { s with out := s.out.set p l, h := s.h ++ [e] }
  | .r _ _ => { s with h := s.h ++ [e] }
  | .d n => { s with tmr := n, h := s.h ++ [e] }

/-- Emit events one after another (20_memory.md R51). -/
def emitAll : List Event → State → State
  | [], s => s
  | e :: es, s => emitAll es (emit e s)

/-- `setsig(s, l)` (40_pinmap.md R83). -/
def setsig (c : Consts) (s : Signal) (l : Level) : Event := .w (resolve c s) l

/-- A delay of n microseconds; `D(0)` is never emitted (00_scope.md section 6; log entry 15). -/
def delayEvents (n : Nat) : List Event := if n = 0 then [] else [.d n]

/-- `select(reg)` (41_transfer.md R91). `select(BusyFlagRead)` is only reached with read/write wired; the test of `CFG.RWP`
stands in it too, so that no event is ever emitted on behalf of an unwired RW (40_pinmap.md R86; log entry 18). -/
def selectEvents (c : Consts) : DevReg → List Event
  | .instruction => [setsig c .rs .low] ++ (if rwWired c then [setsig c .rw .low] else [])
  | .data => [setsig c .rs .high] ++ (if rwWired c then [setsig c .rw .low] else [])
  | .busyFlagRead => [setsig c .rs .low] ++ (if rwWired c then [setsig c .rw .high] else [])

/-- `put4(n)`: bit k of the nibble to D(4+k), ascending (41_transfer.md R92). -/
def put4Events (c : Consts) (n : Nibble) : List Event :=
  [setsig c (.d 4) (lvl (n.getLsbD 0)), setsig c (.d 5) (lvl (n.getLsbD 1)),
   setsig c (.d 6) (lvl (n.getLsbD 2)), setsig c (.d 7) (lvl (n.getLsbD 3))]

/-- `put8(b)`: bit i of the byte to Di, ascending (41_transfer.md R93). -/
def put8Events (c : Consts) (b : Byte) : List Event :=
  [setsig c (.d 0) (lvl (b.getLsbD 0)), setsig c (.d 1) (lvl (b.getLsbD 1)),
   setsig c (.d 2) (lvl (b.getLsbD 2)), setsig c (.d 3) (lvl (b.getLsbD 3)),
   setsig c (.d 4) (lvl (b.getLsbD 4)), setsig c (.d 5) (lvl (b.getLsbD 5)),
   setsig c (.d 6) (lvl (b.getLsbD 6)), setsig c (.d 7) (lvl (b.getLsbD 7))]

/-- `pulse()`, the enable-pulse sequencer (41_transfer.md R94). -/
def pulseEvents (c : Consts) : List Event :=
  [setsig c .en .high] ++ delayEvents c.prm.tEnHi ++ [setsig c .en .low] ++ delayEvents c.prm.tEnLo

/-- The bus cycles of one byte: two nibbles, high first, or the whole byte (41_transfer.md R90). -/
def byteEvents (c : Consts) (b : Byte) : List Event :=
  if eightBit c then put8Events c b ++ pulseEvents c
  else put4Events c (split b).1 ++ pulseEvents c ++ (put4Events c (split b).2 ++ pulseEvents c)

/-- The events of `xfer(reg, b)` (41_transfer.md R90). -/
def xferEvents (c : Consts) (reg : DevReg) (b : Byte) : List Event := selectEvents c reg ++ byteEvents c b

/-- The events of `rawcycle(v)`, v in its low `NDATA` bits (41_transfer.md R98). -/
def rawcycleEvents (c : Consts) (v : Byte) : List Event :=
  (if eightBit c then put8Events c v else put4Events c (v.setWidth 4)) ++ pulseEvents c

/-- The events of `sample()` when the environment answers l (42_handshake.md R108). -/
def sampleEvents (c : Consts) (l : Level) : List Event :=
  [setsig c .en .high] ++ delayEvents c.prm.tEnHi ++ [.r (resolve c d7) l, setsig c .en .low] ++
    delayEvents c.prm.tEnLo ++ (if eightBit c then [] else pulseEvents c)

/-- The events of the poll's prologue (42_handshake.md R107). -/
def pollBeginEvents (c : Consts) : List Event :=
  selectEvents c .busyFlagRead ++ [.m (resolve c d7) .input]

/-- The event of the poll's epilogue (42_handshake.md R110). -/
def pollEndEvents (c : Consts) : List Event := [.m (resolve c d7) .output]

/-- The events of the pin-configuration prologue (45_init.md R156). -/
def pinConfigEvents (c : Consts) : List Event :=
  (usedSignals c).flatMap fun s => [.m (resolve c s) .output, setsig c s .low]

/-- The delay of `postwait(T)`: under FixedDelay only (42_handshake.md R105, R106). -/
def postwaitEvents (c : Consts) (t : Nat) : List Event := if busyFlagPoll c then [] else delayEvents t

/-- The environment's answer to the n-th `R` event from now: what State lines up, and the free value after it
(10_state.md R12; log entry 3). -/
def State.answer (s : State) (n : Nat) : Level := s.tape.getD n (Config.pinLevel (s.reads + n))

/-- An answer has been used. -/
def State.answered (s : State) : State := { s with tape := s.tape.tail, reads := s.reads + 1 }

/-- `SEQ <- q`; `STATUS.RDY` is 1 exactly when `SEQ = IDLE` (10_state.md R16, R25). -/
def setSeq (q : SeqState) (s : State) : State :=
  { s with seq := q, status := statusSetRdy (decide (q = .idle)) s.status }

/-- `xfer(reg, b)` (41_transfer.md R90). -/
def xfer (reg : DevReg) (b : Byte) (s : State) : State :=
  emitAll (xferEvents s.con reg b) { s with xb := b, rsel := reg }

/-- `sample()` (42_handshake.md R108). -/
def sample (s : State) : State :=
  { emitAll (sampleEvents s.con (s.answer 0)) s.answered with bfs := levelBit (s.answer 0) }

/-- The poll's prologue (42_handshake.md R107). -/
def pollBegin (s : State) : State :=
  { emitAll (pollBeginEvents s.con) { s with rsel := .busyFlagRead } with pcnt := 0 }

/-- The poll's epilogue (42_handshake.md R110). -/
def pollEnd (s : State) : State := emitAll (pollEndEvents s.con) s

/-- The exception causes (60_exceptions.md R170, R171). -/
inductive Cause
  /-- ConfigurationError, cause code 1. -/
  | configurationError
  /-- DeviceNotResponding, cause code 2. -/
  | deviceNotResponding
  deriving DecidableEq, Repr

/-- The status word after `raise` (60_exceptions.md R175). -/
def statusRaise : Cause → BitVec 3 → BitVec 3
  | .configurationError, st => statusRaiseConfig st
  | .deviceNotResponding, st => statusRaiseNoResp st

/-- Taking an exception, `raise E` (60_exceptions.md R175): the operation ends here, its status bit is set, SEQ is IDLE
and RDY 1, and the rest of a compound is dropped. Nothing is saved and control goes nowhere, so there is no return
beside it (R177). -/
def raise (e : Cause) (s : State) : State :=
  { s with status := statusRaise e s.status, seq := .idle, todo := [], port := [] }

/-- How one turn of the poll's loop ended. -/
inductive PollTurn
  /-- The device is idle: the loop has ended and the pin is restored. -/
  | idle (s : State)
  /-- The bound is reached: DeviceNotResponding has been raised. -/
  | raised (s : State)
  /-- The device is busy: another turn follows. -/
  | busy (s : State)

/-- One turn of the poll's loop (42_handshake.md R109), with the epilogue (R110) or the bound (R111) where it ends. -/
def pollTurn (s : State) : PollTurn :=
  let t := sample { s with pcnt := s.pcnt + 1 }
  if t.bfs = false then .idle (pollEnd t)
  else if t.con.prm.bfRetryMax = some t.pcnt then .raised (raise .deviceNotResponding (pollEnd t))
  else .busy t

/-- The effect of a line of pseudocode other than a wait. -/
def act (a : Act) (s : State) : State :=
  match a with
  | .countSetup => { s with setups := s.setups + 1 }
  | .seq q => setSeq q s
  | .load reg b => { s with xb := b, rsel := reg }
  | .prewait => s
  | .pollLoop => s
  | .xfer reg b => xfer reg b s
  | .postwait t => emitAll (postwaitEvents s.con t) s
  | .select reg => emitAll (selectEvents s.con reg) { s with rsel := reg }
  | .rawcycle v => emitAll (rawcycleEvents s.con v) s
  | .delay n => emitAll (delayEvents n) s
  | .pinConfig => emitAll (pinConfigEvents s.con) s

/-- The sequencer: do the lines in order. A sample that reads busy ends the machine's step with the loop and the lines
after it still to do; an exception drops them (10_state.md R16, 42_handshake.md R109, R111; log entry 5). -/
def run : List Act → State → State
  | [], s => { s with todo := [] }
  | .prewait :: k, s =>
    if busyFlagPoll s.con then
      match pollTurn (pollBegin s) with
      | .idle t => run k t
      | .raised t => t
      | .busy t => { t with todo := .pollLoop :: k }
    else run k s
  | .pollLoop :: k, s =>
    match pollTurn s with
    | .idle t => run k t
    | .raised t => t
    | .busy t => { t with todo := .pollLoop :: k }
  | .countSetup :: k, s => run k (act .countSetup s)
  | .seq q :: k, s => run k (act (.seq q) s)
  | .load reg b :: k, s => run k (act (.load reg b) s)
  | .xfer reg b :: k, s => run k (act (.xfer reg b) s)
  | .postwait t :: k, s => run k (act (.postwait t) s)
  | .select reg :: k, s => run k (act (.select reg) s)
  | .rawcycle v :: k, s => run k (act (.rawcycle v) s)
  | .delay n :: k, s => run k (act (.delay n) s)
  | .pinConfig :: k, s => run k (act .pinConfig s)

/-- The lines of `exec(reg, b, T)` between acceptance and the last `SEQ <- IDLE` (43_commands.md R120), with the
sequencer values `q` gives its phases. -/
def transferLines (q : Phase → SeqState) (reg : DevReg) (b : Byte) (t : Nat) : List Act :=
  [.load reg b, .seq (q .prewait), .prewait, .seq (q .xfer), .xfer reg b, .seq (q .postwait), .postwait t]

/-- Accept an operation and run its lines. The block takes a word only when `STATUS.RDY = 1` (30_encoding.md R60,
20_memory.md R54); otherwise nothing happens (log entry 11). -/
def accept (k : List Act) (s : State) : Host.Outcome State Fault Refusal :=
  if s.rdy then .next (run k s) else .next s

/-- An operation that transfers one byte, whole (43_commands.md R120). -/
def transferOp (reg : DevReg) (b : Byte) (t : Nat) (s : State) : Host.Outcome State Fault Refusal :=
  accept (transferLines .op reg b t ++ [.seq .idle]) s

/-- Go on with the operation in progress. -/
def resume (s : State) : State := run s.todo s

end Sys2Proof.Machine
end

