-- ==== Sys2Proof/Machine/Compound.lean ====
section
/-! DEFINITION. The pseudo-operations of the Command Layer: their expansion into operation words (44_compound.md). All
arithmetic is on natural numbers (R148). -/

namespace Sys2Proof.Machine

/-- What a request expands to (44_compound.md R140). -/
inductive Expansion
  /-- The operation words, in the order the host presents them. -/
  | words (ws : List OpWord)
  /-- The check that raises ConfigurationError failed (44_compound.md R145). -/
  | configurationError
  /-- A check that refuses failed. -/
  | refuse (r : Refusal)
  deriving DecidableEq, Repr

/-- A primitive operation written by its mnemonic: its word, if its operands fit (30_encoding.md R64, R72) and the
command port takes it (R68). -/
def expandAsm (i : Instr) : Expansion :=
  if !i.wellFormed then .refuse .operandOutOfRange
  else if !i.fromPort then .refuse (.reservedWord (encode i))
  else .words [encode i]

/-- `MOVE_TO col, row` (44_compound.md R141). -/
def expandMoveTo (c : Consts) (col row : Nat) : Expansion :=
  if col = 0 ∨ row = 0 then .refuse .operandOutOfRange
  else if twoLines c = true ∧ row > 4 then .refuse .operandOutOfRange
  else if ddaddr c col row > 127 then .refuse .operandOutOfRange
  else .words [encode (.setDdram (ddaddr c col row))]

/-- `PRINT_CHAR c` (44_compound.md R143). -/
def expandPrintChar (b : Byte) : Expansion := .words [encode (.writeData b)]

/-- The pair of words for row r of glyph x (44_compound.md R145). -/
def glyphRowWords (c : Consts) (x : Nat) (rb : Byte × Nat) : List OpWord :=
  [encode (.setCgram (cgaddr c x rb.2)), encode (.writeData rb.1)]

/-- `DEFINE_CHAR x, bm`: the length check before the range check (44_compound.md R145, 60_exceptions.md R174). -/
def expandDefineChar (c : Consts) (x : Nat) (bm : List Byte) : Expansion :=
  if bm.length ≠ glyphRows c then .configurationError
  else if cgaddr c x (glyphRows c - 1) > 63 then .refuse .operandOutOfRange
  else .words (bm.zipIdx.flatMap (glyphRowWords c x))

/-- `TERM`, the terminator of a string (44_compound.md R146, G6). -/
def strTerm : Byte := 0x00#8

/-- `PRINT_STR cs`: one word for each character before the first terminator (44_compound.md R146). -/
def expandPrintStr (cs : List Byte) : Expansion :=
  if strTerm ∈ cs then
    .words ((cs.takeWhile fun b => b != strTerm).map fun b => encode (.writeData b))
  else .refuse .unterminatedString

/-- `digit(d)`: '0'..'9', then 'A'..'Z' (44_compound.md R147). -/
def digitCode (d : Nat) : Byte := BitVec.ofNat 8 (if d < 10 then 0x30 + d else 0x41 + (d - 10))

/-- The loop of PRINT_UINT: `while v > 0: t = digit(v mod base) followed by t ; v = v div base` (44_compound.md R147).
The first argument bounds its turns; 32 suffice for a 32-bit value in any base. -/
def digitLoop : Nat → Nat → Nat → List Byte → List Byte
  | 0, _, _, t => t
  | n + 1, base, v, t => if v = 0 then t else digitLoop n base (v / base) (digitCode (v % base) :: t)

/-- The characters of PRINT_UINT for a value below 2^32 (44_compound.md R147). -/
def uintChars (base v : Nat) : List Byte := if v = 0 then [0x30#8] else digitLoop 32 base v []

/-- The characters of PRINT_INT: a leading '-' for a negative value, then the magnitude (44_compound.md R147). -/
def intChars (base : Nat) (v : Int) : List Byte :=
  if v < 0 then 0x2D#8 :: uintChars base v.natAbs else uintChars base v.natAbs

/-- The base is one of 2..36 (44_compound.md R147). -/
def baseLegal (base : Nat) : Bool := decide (2 ≤ base) && decide (base ≤ 36)

/-- `PRINT_UINT v, base` (44_compound.md R147). -/
def expandPrintUint (v : BitVec 32) (base : Nat) : Expansion :=
  if baseLegal base then .words ((uintChars base v.toNat).map fun b => encode (.writeData b))
  else .refuse .operandOutOfRange

/-- `PRINT_INT v, base` (44_compound.md R147). -/
def expandPrintInt (v : BitVec 32) (base : Nat) : Expansion :=
  if baseLegal base then .words ((intChars base v.toInt).map fun b => encode (.writeData b))
  else .refuse .operandOutOfRange

/-- The expansion of a request: a pure function of its operands and the constants (30_encoding.md R73). -/
def expand (c : Consts) (r : Request) : Expansion :=
  match r with
  | .word w => .words [w]
  | .asm i => expandAsm i
  | .moveTo col row => expandMoveTo c col row
  | .printChar b => expandPrintChar b
  | .defineChar x bm => expandDefineChar c x bm
  | .printStr cs => expandPrintStr cs
  | .printUint v base => expandPrintUint v base
  | .printInt v base => expandPrintInt v base

end Sys2Proof.Machine
end

