-- ==== Sys2Proof/Machine/Commands.lean ====
section
/-! DEFINITION. The primitive operations: instruction and data writes (43_commands.md). -/

namespace Sys2Proof.Machine

/-- CLEAR (43_commands.md R121). -/
def execClear (s : State) : Host.Outcome State Fault Refusal :=
  transferOp .instruction 0x01#8 s.con.prm.tClear s

/-- HOME (43_commands.md R122). -/
def execHome (s : State) : Host.Outcome State Fault Refusal :=
  transferOp .instruction 0x02#8 s.con.prm.tClear s

/-- ENTRY_MODE f (43_commands.md R123). -/
def execEntryMode (inc shift : Bool) (s : State) : Host.Outcome State Fault Refusal :=
  transferOp .instruction (entryModeByte inc shift) s.con.prm.tCmd s

/-- DISPLAY f (43_commands.md R124). -/
def execDisplay (on cursor blink : Bool) (s : State) : Host.Outcome State Fault Refusal :=
  transferOp .instruction (displayByte on cursor blink) s.con.prm.tCmd s

/-- SHIFT f (43_commands.md R125). -/
def execShift (disp right : Bool) (s : State) : Host.Outcome State Fault Refusal :=
  transferOp .instruction (shiftByte disp right) s.con.prm.tCmd s

/-- FUNCTION_SET g: the operation SETUP issues (43_commands.md R129); the command port does not take its words
(30_encoding.md R68). -/
def execFunctionSet (eightBit twoLine tall : Bool) (ign : BitVec 2) (s : State) :
    Host.Outcome State Fault Refusal :=
  transferOp .instruction (functionSetByte eightBit twoLine tall ign) s.con.prm.tCmd s

/-- SET_CGRAM a (43_commands.md R126). -/
def execSetCgram (a : Nat) (s : State) : Host.Outcome State Fault Refusal :=
  if a > 63 then .refused .operandOutOfRange
  else transferOp .instruction (cgramByte a) s.con.prm.tCmd s

/-- SET_DDRAM a (43_commands.md R127). -/
def execSetDdram (a : Nat) (s : State) : Host.Outcome State Fault Refusal :=
  if a > 127 then .refused .operandOutOfRange
  else transferOp .instruction (ddramByte a) s.con.prm.tCmd s

/-- WRITE_DATA b (43_commands.md R128). -/
def execWriteData (b : Byte) (s : State) : Host.Outcome State Fault Refusal :=
  transferOp .data b s.con.prm.tCmd s

end Sys2Proof.Machine
end

