-- ==== Sys2Proof/Machine/Handshake.lean ====
section
/-! DEFINITION. The stand-alone handshake operation (42_handshake.md section 4). -/

namespace Sys2Proof.Machine

/-- The lines of WAIT (42_handshake.md R113). -/
def waitLines : List Act := [.seq (.op .prewait), .prewait, .seq .idle]

/-- WAIT: wait until the device is ready, and transfer nothing (42_handshake.md R113). -/
def execWait (s : State) : Host.Outcome State Fault Refusal := accept waitLines s

end Sys2Proof.Machine
end

