-- ==== Sys2Proof/Machine/Init.lean ====
section
/-! DEFINITION. The initialization sequence SETUP (45_init.md). -/

namespace Sys2Proof.Machine

/-- `S_FORCE8(k)`: select once, one raw cycle of 0x30 (0x3 on four lines), the fixed delay (45_init.md R158). -/
def forceEightLines (c : Consts) (k : Nat) : List Act :=
  [.seq (.sForce8 k)] ++ (if k = 1 then [.select .instruction] else []) ++
    [.rawcycle (if eightBit c then 0x30#8 else 0x03#8), .delay c.prm.tInit]

/-- `S_SET4`, FourBit only (45_init.md R159). -/
def setFourLines (c : Consts) : List Act :=
  if eightBit c then [] else [.seq .sSet4, .rawcycle 0x02#8, .delay c.prm.tCmd]

/-- One of the steps `S_FUNC` .. `S_DON`: an ordinary instruction operation (45_init.md R160 to R164). -/
def setupStepLines (c : Consts) (st : SetupStep) : List Act :=
  match st with
  | .func => transferLines (.sStep .func) .instruction (funcByte c) c.prm.tCmd
  | .doff => transferLines (.sStep .doff) .instruction (displayByte false false false) c.prm.tCmd
  | .home => transferLines (.sStep .home) .instruction 0x02#8 c.prm.tClear
  | .clear => transferLines (.sStep .clear) .instruction 0x01#8 c.prm.tClear
  | .entry => transferLines (.sStep .entry) .instruction (entryModeByte true false) c.prm.tCmd
  | .don => transferLines (.sStep .don) .instruction (displayByte true false false) c.prm.tCmd

/-- The lines of SETUP (45_init.md R155): HOME before CLEAR (R162). -/
def setupLines (c : Consts) : List Act :=
  [.countSetup, .seq .sPincfg, .pinConfig, .seq .sPwrwait, .delay c.prm.tPwr] ++
    (List.range (forceCount c)).flatMap (fun k => forceEightLines c (k + 1)) ++
    setFourLines c ++
    (setupStepLines c .func ++ setupStepLines c .doff ++ setupStepLines c .home ++
      setupStepLines c .clear ++ setupStepLines c .entry ++ setupStepLines c .don) ++
    [.seq .idle]

/-- SETUP (45_init.md R155). -/
def execSetup (s : State) : Host.Outcome State Fault Refusal := accept (setupLines s.con) s

end Sys2Proof.Machine
end

