-- ==== Sys2Proof/Machine/Dispatch.lean ====
section
/-! DEFINITION. One arm per operation of the opcode table. -/

namespace Sys2Proof.Machine

def exec (i : Instr) (s : State) : Host.Outcome State Fault Refusal :=
  match i with
  | .clear => Sys2Proof.Machine.execClear s
  | .home => Sys2Proof.Machine.execHome s
  | .entryMode inc shift => Sys2Proof.Machine.execEntryMode inc shift s
  | .display on cursor blink => Sys2Proof.Machine.execDisplay on cursor blink s
  | .shift disp right => Sys2Proof.Machine.execShift disp right s
  | .functionSet eightBit twoLine tall ign => Sys2Proof.Machine.execFunctionSet eightBit twoLine tall ign s
  | .setCgram a => Sys2Proof.Machine.execSetCgram a s
  | .setDdram a => Sys2Proof.Machine.execSetDdram a s
  | .writeData b => Sys2Proof.Machine.execWriteData b s
  | .wait => Sys2Proof.Machine.execWait s
  | .setup => Sys2Proof.Machine.execSetup s

end Sys2Proof.Machine
end

