-- ==== Sys2Proof/Machine/Port.lean ====
section
/-! DEFINITION. The command port: taking an operation word and executing it, and presenting the host's next request
(20_memory.md R54; 30_encoding.md R60, R68; 44_compound.md R140). -/

namespace Sys2Proof.Machine

/-- Decode a word taken from the port and execute its operation; a reserved word is refused, FUNCTION_SET's among them
(30_encoding.md R61, R68). -/
def runWord (w : OpWord) (s : State) : Host.Outcome State Fault Refusal :=
  match decode w with
  | .ok i => if i.fromPort then exec i s else .refused (.reservedWord w)
  | .error _ => .refused (.reservedWord w)

/-- The host turns to its next request: its words come to the port, or its check fails before the first of them
(44_compound.md R140). -/
def present (r : Request) (s : State) : Host.Outcome State Fault Refusal :=
  match expand s.con r with
  | .words ws => .next { s with port := ws }
  | .configurationError => .next (raise .configurationError s)
  | .refuse why => .refused why

/-- The idle block: take the next word, or the next request, or wait for the host (20_memory.md R54). -/
def idleStep (s : State) : Host.Outcome State Fault Refusal :=
  match s.port, s.host with
  | w :: ws, _ => runWord w { s with port := ws }
  | [], r :: rs => present r { s with host := rs }
  | [], [] => .next s

/-- One step of the machine: go on with the operation in progress; while idle and ready, serve the port; a block whose
construction failed does nothing for ever (60_exceptions.md R176; log entry 12). -/
def stepBlock (s : State) : Host.Outcome State Fault Refusal :=
  match s.todo with
  | _ :: _ => .next (resume s)
  | [] =>
    if s.seq ≠ .idle then .fault .sequencerLost
    else if s.rdy then idleStep s
    else .next s

/-- Put a word where the port is read next. -/
def presentFirst (w : OpWord) (s : State) : State := { s with port := w :: s.port }

end Sys2Proof.Machine
end

