-- ==== Sys2Proof/Machine/Step.lean ====
section
/-! DEFINITION. One step of the machine, and where it fetches its next operation. -/

namespace Sys2Proof.Machine

/-- One step of the machine (20_memory.md R54). -/
def step (s : State) : Host.Outcome State Fault Refusal := stepBlock s

/-- The state with an operation word at the head of the command port, which is where an idle block takes its next word
(20_memory.md R54; log entry 10). -/
def State.withFetchWord (s : State) (nbits w : Nat) : State :=
  presentFirst (BitVec.ofNat 10 (tableBits nbits w)) s

end Sys2Proof.Machine
end

