-- ==== Sys2Proof/Machine/Bus.lean ====
section
/-! DEFINITION. The bus cycles a run of events makes, as the device sees them (20_memory.md R44, R45). They are an
observation of the trace, no state. -/

namespace Sys2Proof.Machine

/-- A bus cycle `(rs, rw, v)`; a read cycle carries no v (20_memory.md R44). -/
structure BusCycle where
  rs : Level
  rw : Level
  v : Option Byte
  deriving DecidableEq, Repr

/-- The bit a latch puts on data line Di. -/
def dataBit (c : Consts) (out : Vector Level 16) (i : Fin 8) : Bool := levelBit out[resolve c (.d i)]

/-- The `NDATA`-bit number on the data pins, as a byte (20_memory.md R44). -/
def dataOnPins (c : Consts) (out : Vector Level 16) : Byte :=
  let b (i : Fin 8) (n : Nat) : Byte := flagAt (dataBit c out i) n
  if eightBit c then b 0 0 ||| b 1 1 ||| b 2 2 ||| b 3 3 ||| b 4 4 ||| b 5 5 ||| b 6 6 ||| b 7 7
  else b 4 0 ||| b 5 1 ||| b 6 2 ||| b 7 3

/-- The level of read/write a cycle has: the latch if it is wired, else Low (20_memory.md R44, 70_reset_and_hazards.md R203). -/
def rwLevel (c : Consts) (out : Vector Level 16) : Level := if rwWired c then out[resolve c .rw] else .low

/-- The bus cycle of a falling edge of enable, from the latches just before it (20_memory.md R44). -/
def cycleOf (c : Consts) (out : Vector Level 16) : BusCycle :=
  { rs := out[resolve c .rs]
    rw := rwLevel c out
    v := if rwLevel c out = .low then some (dataOnPins c out) else none }

/-- An event's effect on the output latches. -/
def latchAfter (out : Vector Level 16) : Event → Vector Level 16
  | .w p l => out.set p l
  | .m _ _ => out
  | .r _ _ => out
  | .d _ => out

/-- The latches after a list of events. -/
def latchesAfter (out : Vector Level 16) (es : List Event) : Vector Level 16 := es.foldl latchAfter out

/-- An event's effect on the direction latches. -/
def dirAfter (dir : Vector PinDir 16) : Event → Vector PinDir 16
  | .m p d => dir.set p d
  | .w _ _ => dir
  | .r _ _ => dir
  | .d _ => dir

/-- The directions after a list of events. -/
def dirsAfter (dir : Vector PinDir 16) (es : List Event) : Vector PinDir 16 := es.foldl dirAfter dir

/-- The value a list of events leaves in the timer: the last duration loaded, or the value before (10_state.md R17). -/
def timerAfter (tmr : Nat) (es : List Event) : Nat :=
  es.foldl (fun t e => match e with | .d n => n | .m _ _ => t | .w _ _ => t | .r _ _ => t) tmr

/-- The event is a falling edge of enable, given the latches before it (20_memory.md R44). -/
def isFall (c : Consts) (out : Vector Level 16) (e : Event) : Bool :=
  decide (e = setsig c .en .low) && decide (out[resolve c .en] = .high)

/-- The bus cycles of a list of events, from the latches before it (20_memory.md R44). -/
def busCycles (c : Consts) : Vector Level 16 → List Event → List BusCycle
  | _, [] => []
  | out, e :: es =>
    (if isFall c out e then [cycleOf c out] else []) ++ busCycles c (latchAfter out e) es

end Sys2Proof.Machine
end

