-- ==== Sys2Proof/Safety.lean ====
section
/-! DEFINITION. What counts as a safe run, in the terms claims use: the launch premises and the launch that refuses a
run which violates them (70_reset_and_hazards.md R196), the premises about the device (R202), the invariants of the
machine (10_state.md R10, R11, R25, R32), and the words in which the effect of an operation is stated. -/

namespace Sys2Proof.Machine

/-- No status error bit is set: the premise every claim about a run takes (60_exceptions.md R175). -/
abbrev NoError (s : State) : Prop := s.cfgErr = false ∧ s.noResp = false

/-- `PinsDistinct`: the used signals resolve to pairwise distinct pins (40_pinmap.md R85, premise P2). -/
abbrev PinsDistinct (c : Consts) : Prop := ((usedSignals c).map (resolve c)).Nodup

/-- The pin carries no used signal (10_state.md R32). -/
abbrev PinUnused (c : Consts) (p : PinId) : Prop := p ∉ (usedSignals c).map (resolve c)

/-- How many answers of the environment a list of events has used. -/
def readCount : List Event → Nat
  | [] => 0
  | .r _ _ :: es => readCount es + 1
  | .m _ _ :: es => readCount es
  | .w _ _ :: es => readCount es
  | .d _ :: es => readCount es

/-- In the run from `s` a poll begins after `n` answers: some number of steps leads to a trace with the prologue's
`M(resolve(D7), In)`, which only a poll emits, after `n` reads (42_handshake.md R107). -/
def PollBegins (s : State) (n : Nat) : Prop :=
  ∃ (k : Nat) (t : State) (before after : List Event), Host.Core.run Sys2Proof.core k s = .next t ∧
    t.h = s.h ++ (before ++ .m (resolve s.con d7) .input :: after) ∧ readCount before = n

/-- `DeviceReadyWithin(m)`: in every poll that begins in the run from `s`, one of the first m samples reads `L`
(70_reset_and_hazards.md R202). -/
def DeviceReadyWithin (m : Nat) (s : State) : Prop :=
  ∀ n, PollBegins s n → ∃ j, j < m ∧ s.answer (n + j) = .low

/-- `DeviceEventuallyReady`: in every poll that begins in the run from `s`, some sample reads `L`
(70_reset_and_hazards.md R202). -/
def DeviceEventuallyReady (s : State) : Prop :=
  ∀ n, PollBegins s n → ∃ j, s.answer (n + j) = .low

/-- The next answers are the levels of a list. -/
abbrev Answers (ls : List Level) (s : State) : Prop := ∀ n, ∀ h : n < ls.length, s.answer n = ls[n]

/-- The answers of polls one after another, with so many busy samples in each before its idle one. -/
def pollLevels (ks : List Nat) : List Level := ks.flatMap fun k => List.replicate k .high ++ [.low]

/-- The next `n` answers all say busy. -/
abbrev BusyFor (n : Nat) (s : State) : Prop := ∀ j, j < n → s.answer j = .high

/-- The parameters are in the ranges 00_scope.md section 5 gives: an enable high hold, a bound of at least 1. -/
def paramsLegal (p : Params) : Bool := decide (1 ≤ p.tEnHi) && decide (p.bfRetryMax ≠ some 0)

/-- The operation words a program presents, in order (44_compound.md R140). -/
def programWords (c : Consts) (prog : List Request) : List OpWord :=
  prog.flatMap fun r =>
    match expand c r with
    | .words ws => ws
    | .configurationError => []
    | .refuse _ => []

/-- The word of SETUP (30_encoding.md R66). -/
def setupWord : OpWord := 0x300#10

/-- Why a run is not launched (70_reset_and_hazards.md R196). -/
inductive LaunchRefusal
  /-- P1: the construction check fails (60_exceptions.md R176). -/
  | construction
  /-- P1: `COLS` is 0 (10_state.md R23). -/
  | noColumns
  /-- A parameter is outside its range (00_scope.md section 5). -/
  | parameters
  /-- P2: two used signals share a pin. -/
  | pinsShared
  /-- P3: the first operation word is not SETUP. -/
  | setupNotFirst
  /-- P4: a later operation word is SETUP. -/
  | setupTwice
  deriving DecidableEq, Repr

/-- Launch a run: construct the instance, check the premises a model can check, and give the host its program. The block
itself checks none of P2 to P4, and `step` runs without them (45_init.md R167; log entry 7). -/
def launch (a : PinAssignment) (cfg : BitVec 5) (cols : BitVec 8) (prm : Params) (prog : List Request) :
    Except LaunchRefusal State :=
  let s := State.construct a cfg cols prm
  if s.rdy = false then .error .construction
  else if cols = 0#8 then .error .noColumns
  else if paramsLegal prm = false then .error .parameters
  else if ¬ PinsDistinct s.con then .error .pinsShared
  else if (programWords s.con prog).head? ≠ some setupWord then .error .setupNotFirst
  else if setupWord ∈ (programWords s.con prog).tail then .error .setupTwice
  else .ok { s with host := prog }

/-- The ghost form of premises P3 and P4: SETUP is taken only while `SETUPS = 0`, any other word only while `SETUPS = 1`
(70_reset_and_hazards.md R196). -/
abbrev SetupDiscipline (w : OpWord) (s : State) : Prop :=
  if w = setupWord then s.setups = 0 else s.setups = 1

/-- The operation words R68 reserves at the command port, by number (30_encoding.md R68). -/
abbrev ReservedNumber (n : Nat) : Prop :=
  n = 0x000 ∨ n = 0x003 ∨ (0x011 ≤ n ∧ n ≤ 0x01F ∧ n % 4 ≠ 0) ∨ (0x020 ≤ n ∧ n ≤ 0x03F) ∨
    (0x201 ≤ n ∧ n ≤ 0x2FF) ∨ (0x301 ≤ n ∧ n ≤ 0x3FF)

/-- The block is idle, ready, and has nothing left to do. -/
def IdleReady (s : State) : Prop := s.seq = .idle ∧ s.rdy = true ∧ s.todo = []

/-! ### Invariants -/

/-- The latches hold what the trace last wrote to them (10_state.md R10, R11, R18). -/
abbrev LatchesReplay (s : State) : Prop :=
  s.dir = dirsAfter (Vector.replicate 16 .input) s.h ∧ s.out = latchesAfter (Vector.replicate 16 .low) s.h

/-- Pins that carry no used signal hold their reset values (10_state.md R32). -/
abbrev UnusedPinsUntouched (s : State) : Prop :=
  ∀ p, PinUnused s.con p → s.dir[p] = .input ∧ s.out[p] = .low

/-- The sequencer of a block whose construction succeeded: idle and ready with nothing left to do, or inside a poll with
the loop and the rest of the operation left to do, the last line of which is `SEQ <- IDLE` (10_state.md R16, R25). -/
def SequencerConsistent (s : State) : Prop :=
  IdleReady s ∨
  (s.seq ≠ .idle ∧ s.rdy = false ∧
    ∃ k, s.todo = .pollLoop :: (k ++ [.seq .idle]) ∧ Act.seq .idle ∉ k)

/-- The pins of a block that has been set up (10_state.md R32): between steps enable is low and every used pin is an
output, but the pin of D7 while a poll is in progress, which is an input (42_handshake.md R107). -/
def ReadyPins (s : State) : Prop :=
  PinsDistinct s.con ∧ s.out[resolve s.con .en] = .low ∧
  ((s.todo = [] ∧ ∀ sg ∈ usedSignals s.con, s.dir[resolve s.con sg] = .output) ∨
   ((∃ k, s.todo = .pollLoop :: k ∧ Act.pollLoop ∉ k) ∧ s.dir[resolve s.con d7] = .input ∧
      ∀ sg ∈ usedSignals s.con, sg ≠ d7 → s.dir[resolve s.con sg] = .output))

/-! ### The effect of an operation -/

/-- From `s` to `t` exactly the events `es` were emitted, each with its effect (00_scope.md section 6). -/
def Emitted (s t : State) (es : List Event) : Prop :=
  t.h = s.h ++ es ∧ t.dir = dirsAfter s.dir es ∧ t.out = latchesAfter s.out es ∧ t.tmr = timerAfter s.tmr es

/-- Nothing the operations leave alone has changed: the constants, the error bits, the port and the host's requests. -/
def Kept (s t : State) : Prop :=
  t.con = s.con ∧ t.cfgErr = s.cfgErr ∧ t.noResp = s.noResp ∧ t.port = s.port ∧ t.host = s.host

/-- `n` answers of the environment have been used. -/
def Answered (s t : State) (n : Nat) : Prop := t.tape = s.tape.drop n ∧ t.reads = s.reads + n

/-- The events of a poll whose first `k` samples say busy and whose next says idle (42_handshake.md R107 to R110). -/
def pollEvents (c : Consts) (k : Nat) : List Event :=
  pollBeginEvents c ++ (List.replicate k (sampleEvents c .high)).flatten ++ sampleEvents c .low ++ pollEndEvents c

/-- The events of a poll whose `m` samples all say busy, up to the raise (42_handshake.md R111). -/
def failedPollEvents (c : Consts) (m : Nat) : List Event :=
  pollBeginEvents c ++ (List.replicate m (sampleEvents c .high)).flatten ++ pollEndEvents c

/-- What a transfer operation does: the transfer and its delay under FixedDelay; the poll, of however many samples, and
then the transfer under BusyFlagPoll; and the poll alone, ending in DeviceNotResponding, where as many samples as the
bound allows say busy (43_commands.md R120, 42_handshake.md R105 to R111). After a failed poll RSEL is still what the
poll set it to (R107), and XB is the byte loaded at decode, which was not transferred (10_state.md R13, log entry 13). In
how many steps of the machine is not said. -/
def TransferEffect (i : Instr) (reg : DevReg) (b : Byte) (wait : Params → Nat) : Prop :=
  ∀ s : State, s.rdy = true →
    (busyFlagPoll s.con = false →
      ∃ t, exec i s = .next t ∧ Emitted s t (xferEvents s.con reg b ++ delayEvents (wait s.con.prm)) ∧
        Kept s t ∧ Answered s t 0 ∧ IdleReady t ∧ t.setups = s.setups ∧
        t.xb = b ∧ t.rsel = reg ∧ t.bfs = s.bfs ∧ t.pcnt = s.pcnt) ∧
    (busyFlagPoll s.con = true →
      ∀ k, BusyFor k s → s.answer k = .low → (∀ m, s.con.prm.bfRetryMax = some m → k < m) →
      ∃ (u : State) (n : Nat) (t : State), exec i s = .next u ∧ Host.Core.run Sys2Proof.core n u = .next t ∧
        Emitted s t (pollEvents s.con k ++ xferEvents s.con reg b) ∧
        Kept s t ∧ Answered s t (k + 1) ∧ IdleReady t ∧ t.setups = s.setups ∧
        t.xb = b ∧ t.rsel = reg ∧ t.bfs = false ∧ t.pcnt = k + 1) ∧
    (busyFlagPoll s.con = true →
      ∀ m, 1 ≤ m → s.con.prm.bfRetryMax = some m → BusyFor m s →
      ∃ (u : State) (n : Nat) (t : State), exec i s = .next u ∧ Host.Core.run Sys2Proof.core n u = .next t ∧
        Emitted s t (failedPollEvents s.con m) ∧ Answered s t m ∧ IdleReady t ∧
        t.noResp = true ∧ t.cfgErr = s.cfgErr ∧ t.con = s.con ∧ t.port = [] ∧ t.host = s.host ∧
        t.setups = s.setups ∧ t.xb = b ∧ t.rsel = .busyFlagRead ∧ t.bfs = true ∧ t.pcnt = m)

/-- The register and byte an operation transfers; WAIT and SETUP are no single transfers (43_commands.md R121 to R129). -/
def transferOf : Instr → Option (DevReg × Byte)
  | .clear => some (.instruction, 0x01#8)
  | .home => some (.instruction, 0x02#8)
  | .entryMode inc shift => some (.instruction, entryModeByte inc shift)
  | .display on cursor blink => some (.instruction, displayByte on cursor blink)
  | .shift disp right => some (.instruction, shiftByte disp right)
  | .functionSet e l f g => some (.instruction, functionSetByte e l f g)
  | .setCgram a => some (.instruction, cgramByte a)
  | .setDdram a => some (.instruction, ddramByte a)
  | .writeData b => some (.data, b)
  | .wait => none
  | .setup => none

/-- The events an operation other than SETUP emits after its poll, under BusyFlagPoll (43_commands.md R120,
42_handshake.md R113). -/
def afterPollEvents (c : Consts) (i : Instr) : List Event :=
  match transferOf i with
  | some (reg, b) => xferEvents c reg b
  | none => []

/-- `FUNC`, written as a number from the bits of `CFG`: `0x20`, BW at bit 4, N at bit 3, F at bit 2 (10_state.md R22,
R28). -/
def finalFunctionByte (c : Consts) : Byte :=
  BitVec.ofNat 8 (0x20 + 16 * (c.cfg.toNat % 2) + 8 * (c.cfg.toNat / 8 % 2) + 4 * (c.cfg.toNat / 16 % 2))

/-- The instruction bytes of the steps `S_FUNC` .. `S_DON` with their delays (45_init.md R160 to R164). -/
def setupBytes (c : Consts) : List (Byte × Nat) :=
  [(finalFunctionByte c, c.prm.tCmd), (0x08#8, c.prm.tCmd), (0x02#8, c.prm.tClear), (0x01#8, c.prm.tClear),
   (0x06#8, c.prm.tCmd), (0x0C#8, c.prm.tCmd)]

/-- The events of SETUP before `S_FUNC`, under both strategies (45_init.md R156 to R159). -/
def setupOpeningEvents (c : Consts) : List Event :=
  pinConfigEvents c ++ delayEvents c.prm.tPwr ++
    (List.range (forceCount c)).flatMap (fun k =>
      (if k = 0 then selectEvents c .instruction else []) ++
        rawcycleEvents c (if eightBit c then 0x30#8 else 0x03#8) ++ delayEvents c.prm.tInit) ++
    (if eightBit c then [] else rawcycleEvents c 0x02#8 ++ delayEvents c.prm.tCmd)

/-- The events of SETUP under FixedDelay (45_init.md R155). -/
def setupEventsFixed (c : Consts) : List Event :=
  setupOpeningEvents c ++
    (setupBytes c).flatMap fun bt => xferEvents c .instruction bt.1 ++ delayEvents bt.2

/-- The events of the first steps of `S_FUNC` .. `S_DON` under BusyFlagPoll, one step for each number of busy samples in
the list (45_init.md R160 to R164). -/
def setupStepsPoll (c : Consts) (ks : List Nat) : List Event :=
  ((setupBytes c).zip ks).flatMap fun p => pollEvents c p.2 ++ xferEvents c .instruction p.1.1

/-- The events of SETUP under BusyFlagPoll, with the number of busy samples in each of its six polls (45_init.md R155). -/
def setupEventsPoll (c : Consts) (ks : List Nat) : List Event := setupOpeningEvents c ++ setupStepsPoll c ks

/-- A write cycle to the Instruction register. -/
def instructionCycle (v : Byte) : BusCycle := { rs := .low, rw := .low, v := some v }

/-- The write cycles of one byte (20_memory.md R42). -/
def byteCycles (c : Consts) (rs : Level) (b : Byte) : List BusCycle :=
  if eightBit c then [{ rs := rs, rw := .low, v := some b }]
  else [{ rs := rs, rw := .low, v := some (b >>> 4) }, { rs := rs, rw := .low, v := some (b &&& 0x0F#8) }]

/-- The read cycles of `n` samples: one a sample under EightBit, two under FourBit (20_memory.md R44, R45). -/
def sampleCycles (c : Consts) (n : Nat) : List BusCycle :=
  List.replicate (n * if eightBit c then 1 else 2) { rs := .low, rw := .high, v := none }

/-- The write cycles of SETUP before `S_FUNC` (45_init.md R166). -/
def setupOpeningCycles (c : Consts) : List BusCycle :=
  List.replicate (forceCount c) (instructionCycle (if eightBit c then 0x30#8 else 0x03#8)) ++
    (if eightBit c then [] else [instructionCycle 0x02#8])

/-- The bus cycles of SETUP under FixedDelay (45_init.md R166). -/
def setupCyclesFixed (c : Consts) : List BusCycle :=
  setupOpeningCycles c ++ (setupBytes c).flatMap fun bt => byteCycles c .low bt.1

/-- The bus cycles of SETUP under BusyFlagPoll: each of the six bytes is preceded by the read cycles of its poll
(45_init.md R166). -/
def setupCyclesPoll (c : Consts) (ks : List Nat) : List BusCycle :=
  setupOpeningCycles c ++
    ((setupBytes c).zip ks).flatMap fun p => sampleCycles c (p.2 + 1) ++ byteCycles c .low p.1.1

end Sys2Proof.Machine
end

