-- ==== Sys2Proof/Certificates/Slice0/Obligations.lean ====
section
/-! DEFINITION. The statements for the provers, from the numbered rules of spec/. -/

open Sys2Proof Sys2Proof.Machine

/-! ### Encoding (30_encoding.md) -/

/-- Decoding the word of a well-formed operation gives the operation back, every operand at every value
(30_encoding.md sections 2 to 4 and 8). -/
def Obligations.DecodeOfEncode : Prop :=
  ∀ i : Instr, i.wellFormed = true → decode (encode i) = .ok i

/-- Each word has one meaning: a word that decodes is the word of its operation (30_encoding.md R62, R65, R66). -/
def Obligations.EncodeOfDecode : Prop :=
  ∀ (w : OpWord) (i : Instr), decode w = .ok i → i.wellFormed = true ∧ encode i = w

/-- R68: the block refuses exactly the reserved words; every other word is an operation it takes. -/
def Obligations.ReservedWordsRefused : Prop :=
  (∀ (s : State) (w : OpWord) (ws : List OpWord), IdleReady s → s.port = w :: ws → ReservedNumber w.toNat →
    step s = .refused (.reservedWord w)) ∧
  (∀ w : OpWord, ¬ ReservedNumber w.toNat → ∃ i, decode w = .ok i ∧ i.fromPort = true)

/-- R62, R63: one word of each row of the table, written from its encoding, decodes to its operation. -/
def Obligations.TableWordsDecode : Prop :=
  decode 0b0000000001#10 = .ok .clear ∧ decode 0b0000000010#10 = .ok .home ∧
  decode 0b0000000101#10 = .ok (.entryMode false true) ∧ decode 0b0000001010#10 = .ok (.display false true false) ∧
  decode 0b0000010100#10 = .ok (.shift false true) ∧ decode 0b0000111000#10 = .ok (.functionSet true true false 0#2) ∧
  decode 0b0001010101#10 = .ok (.setCgram 0x15) ∧ decode 0b0011010100#10 = .ok (.setDdram 0x54) ∧
  decode 0b0101010101#10 = .ok (.writeData 0x55#8) ∧ decode 0b1000000000#10 = .ok .wait ∧
  decode 0b1100000000#10 = .ok .setup

/-- R54, R60: an idle, ready block whose port presents a word that decodes to an operation the port takes executes that
operation, with the word taken from the port; the step adds nothing else. -/
def Obligations.StepRunsDecodedInstruction : Prop :=
  ∀ (s : State) (w : OpWord) (ws : List OpWord) (i : Instr), IdleReady s → s.port = w :: ws → decode w = .ok i →
    i.fromPort = true → step s = exec i { s with port := ws }

/-- The queues in which the host's requests and words stand are the model's choice (log entry 10). R140: the host's next
request comes to the empty port as its words; a check that fails does so before the first word, with no event; with
nothing to present the block waits. R64, R68, R72: a raw word is presented as it is; a mnemonic is refused where an
operand does not fit its field, refused as a reserved word where it is FUNCTION_SET, and is else the one word it
assembles to. -/
def Obligations.StepPresentsRequest : Prop :=
  (∀ s : State, IdleReady s → s.port = [] →
    (s.host = [] → step s = .next s) ∧
    (∀ r rs, s.host = r :: rs →
      (∀ ws, expand s.con r = .words ws → step s = .next { s with host := rs, port := ws }) ∧
      (∀ why, expand s.con r = .refuse why → step s = .refused why) ∧
      (expand s.con r = .configurationError →
        ∃ t, step s = .next t ∧ Emitted s t [] ∧ t.cfgErr = true ∧ t.noResp = s.noResp ∧ IdleReady t ∧
          t.port = [] ∧ t.host = rs ∧ t.con = s.con))) ∧
  (∀ (c : Consts) (w : OpWord), expand c (.word w) = .words [w]) ∧
  (∀ (c : Consts) (i : Instr),
    (i.wellFormed = false → expand c (.asm i) = .refuse .operandOutOfRange) ∧
    (i.wellFormed = true → i.fromPort = false → expand c (.asm i) = .refuse (.reservedWord (encode i))) ∧
    (i.wellFormed = true → i.fromPort = true → expand c (.asm i) = .words [encode i]) ∧
    (i.fromPort = false ↔ ∃ e l f g, i = .functionSet e l f g))

/-! ### Construction and reset (10_state.md R24, R31; 60_exceptions.md R176; 70_reset_and_hazards.md R190, R196) -/

/-- R31: the values reset leaves; nothing is said of `XB`, `RSEL`, `BFS`, `PCNT`, which the spec leaves open. -/
def Obligations.ResetValues : Prop :=
  ∀ (c : Consts) (fit : Bool),
    (∀ p : PinId, (State.resetWith c fit).dir[p] = .input ∧ (State.resetWith c fit).out[p] = .low) ∧
    (State.resetWith c fit).seq = .idle ∧ (State.resetWith c fit).tmr = 0 ∧
    (State.resetWith c fit).noResp = false ∧
    (State.resetWith c fit).cfgErr = !(fit && handshakeLegal c) ∧
    (State.resetWith c fit).rdy = (fit && handshakeLegal c) ∧
    (State.resetWith c fit).con = c ∧ (State.resetWith c fit).h = [] ∧ (State.resetWith c fit).setups = 0

/-- R176: a block whose construction check fails has CFGERR set and RDY clear, and whatever the host has for it, it
never takes a word and never emits an event; such a configuration is not launched. That the machine's step then leaves
the state as it is, is the model's choice (log entry 12). -/
def Obligations.FailedConstructionIsDead : Prop :=
  ∀ (a : PinAssignment) (cfg : BitVec 5) (cols : BitVec 8) (prm : Params) (prog : List Request) (n : Nat),
    (pinsFit ⟨0#12, 0#32, cfg, cols, prm⟩ a = false ∨ handshakeLegal ⟨0#12, 0#32, cfg, cols, prm⟩ = false) →
    (State.construct a cfg cols prm).cfgErr = true ∧ (State.construct a cfg cols prm).rdy = false ∧
    (State.construct a cfg cols prm).h = [] ∧
    Host.Core.run Sys2Proof.core n { State.construct a cfg cols prm with host := prog } =
      .next { State.construct a cfg cols prm with host := prog } ∧
    ∃ why, launch a cfg cols prm prog = .error why

/-- R81, R24: where every used pin id fits, pack gives the words of the formula, resolve undoes it on the used signals,
and the instance constructed from the assignment holds exactly the packed constants; where one does not fit there is
nothing, and the construction raises ConfigurationError. That the field of an unused signal is 0 whatever number the
assignment gives it is log entry 19: R81 says it of an absent one. -/
def Obligations.PackThenResolve : Prop :=
  ∀ (c : Consts) (a : PinAssignment),
    (pinsFit c a = true ↔ ∀ sg ∈ usedSignals c, assigned a sg ≤ 15) ∧
    (pinsFit c a = false → pack c a = none ∧ (State.construct a c.cfg c.cols c.prm).cfgErr = true) ∧
    (pinsFit c a = true → ∃ c', pack c a = some c' ∧
      c'.pmCtl.toNat = packedPin c a .en * 256 + packedPin c a .rw * 16 + packedPin c a .rs ∧
      c'.pmDat.toNat = ((List.finRange 8).map fun i => packedPin c a (.d i) * 16 ^ i.val).sum ∧
      (∀ sg ∈ usedSignals c, (resolve c' sg).val = assigned a sg) ∧
      (∀ sg, packedPin c a sg = if sg ∈ usedSignals c then assigned a sg else 0) ∧
      c'.cfg = c.cfg ∧ c'.cols = c.cols ∧ c'.prm = c.prm ∧ (State.construct a c.cfg c.cols c.prm).con = c')

/-- R196: exactly the runs that meet P1 to P4, with parameters in their ranges, are launched, and they start from the
constructed instance with the program at the host. -/
def Obligations.LaunchMeetsPremises : Prop :=
  ∀ (a : PinAssignment) (cfg : BitVec 5) (cols : BitVec 8) (prm : Params) (prog : List Request) (s : State),
    launch a cfg cols prm prog = .ok s ↔
      (pinsFit ⟨0#12, 0#32, cfg, cols, prm⟩ a = true ∧ handshakeLegal ⟨0#12, 0#32, cfg, cols, prm⟩ = true ∧
        cols ≠ 0#8 ∧ 1 ≤ prm.tEnHi ∧ prm.bfRetryMax ≠ some 0 ∧
        PinsDistinct (State.construct a cfg cols prm).con ∧
        (∃ ws, programWords (State.construct a cfg cols prm).con prog = setupWord :: ws ∧ setupWord ∉ ws) ∧
        s = { State.construct a cfg cols prm with host := prog })

/-! ### The pin map and the transfer engine (40_pinmap.md, 41_transfer.md) -/

/-- R80, R22, R28, R25: where the fields of the packed registers stand, written as arithmetic on the words. `PM_CTL` and
`PM_DAT`: the pin of each signal. `CFG`: the options, which combinations the construction check passes, the constants
derived from them (the bits of FUNC are general knowledge, log entry 20), and that construction takes the word as it is
given. `STATUS`: RDY, CFGERR and NORESP, and what the sequencer and a raise do to the word. -/
def Obligations.ResolveReadsFields : Prop :=
  (∀ c : Consts,
    (resolve c .rs).val = c.pmCtl.toNat % 16 ∧ (resolve c .rw).val = c.pmCtl.toNat / 16 % 16 ∧
    (resolve c .en).val = c.pmCtl.toNat / 256 % 16 ∧
    ∀ i : Fin 8, (resolve c (.d i)).val = c.pmDat.toNat / 16 ^ i.val % 16) ∧
  (∀ c : Consts,
    eightBit c = decide (c.cfg.toNat % 2 = 1) ∧ busyFlagPoll c = decide (c.cfg.toNat / 2 % 2 = 1) ∧
    rwWired c = decide (c.cfg.toNat / 4 % 2 = 1) ∧ twoLines c = decide (c.cfg.toNat / 8 % 2 = 1) ∧
    tallFont c = decide (c.cfg.toNat / 16 % 2 = 1) ∧
    (handshakeLegal c = false ↔ c.cfg.toNat / 2 % 2 = 1 ∧ c.cfg.toNat / 4 % 2 = 0) ∧
    glyphRows c = (if c.cfg.toNat / 16 % 2 = 1 then 11 else 8) ∧
    (funcByte c).toNat =
      0x20 + 16 * (c.cfg.toNat % 2) + 8 * (c.cfg.toNat / 8 % 2) + 4 * (c.cfg.toNat / 16 % 2) ∧
    dataWidth c = (if c.cfg.toNat % 2 = 1 then 8 else 4) ∧
    forceCount c = (if c.cfg.toNat / 2 % 2 = 1 then c.prm.nForce8Poll else c.prm.nForce8Fixed)) ∧
  (∀ a cfg cols prm, (State.construct a cfg cols prm).con.cfg = cfg) ∧
  (∀ s : State,
    s.rdy = decide (s.status.toNat % 2 = 1) ∧ s.cfgErr = decide (s.status.toNat / 2 % 2 = 1) ∧
    s.noResp = decide (s.status.toNat / 4 % 2 = 1) ∧
    (∀ q, (setSeq q s).status.toNat = 2 * (s.status.toNat / 2) + (if q = .idle then 1 else 0)) ∧
    (raise .configurationError s).status.toNat = 4 * (s.status.toNat / 4) + 3 ∧
    (raise .deviceNotResponding s).status.toNat = 4 + 2 * (s.status.toNat / 2 % 2) + 1)

/-- R91: the events of select, RS first and then RW where it is wired; what they leave on the two pins; and that no
other pin is touched. -/
def Obligations.SelectSetsLevels : Prop :=
  (∀ c : Consts,
    (rwWired c = false →
      selectEvents c .instruction = [.w (resolve c .rs) .low] ∧ selectEvents c .data = [.w (resolve c .rs) .high]) ∧
    (rwWired c = true →
      selectEvents c .instruction = [.w (resolve c .rs) .low, .w (resolve c .rw) .low] ∧
      selectEvents c .data = [.w (resolve c .rs) .high, .w (resolve c .rw) .low] ∧
      selectEvents c .busyFlagRead = [.w (resolve c .rs) .low, .w (resolve c .rw) .high])) ∧
  ∀ (c : Consts) (out : Vector Level 16), PinsDistinct c →
    (latchesAfter out (selectEvents c .instruction))[resolve c .rs] = .low ∧
    (latchesAfter out (selectEvents c .data))[resolve c .rs] = .high ∧
    (rwWired c = true →
      (latchesAfter out (selectEvents c .instruction))[resolve c .rw] = .low ∧
      (latchesAfter out (selectEvents c .data))[resolve c .rw] = .low ∧
      (latchesAfter out (selectEvents c .busyFlagRead))[resolve c .rs] = .low ∧
      (latchesAfter out (selectEvents c .busyFlagRead))[resolve c .rw] = .high) ∧
    (∀ (reg : DevReg) (p : PinId), (reg = .busyFlagRead → rwWired c = true) →
      p ≠ resolve c .rs → (rwWired c = true → p ≠ resolve c .rw) →
      (latchesAfter out (selectEvents c reg))[p] = out[p])

/-- R92, R93: placing a nibble writes bit k to D(4+k) and placing a byte writes bit i to Di, one write a pin in
ascending order, and no other latch changes. -/
def Obligations.DataPlacement : Prop :=
  ∀ c : Consts,
    (∀ n : Nibble, put4Events c n = (List.finRange 4).map fun k =>
      .w (resolve c (.d ⟨4 + k.val, by omega⟩)) (lvl (n.getLsbD k.val))) ∧
    (∀ b : Byte, put8Events c b = (List.finRange 8).map fun i => .w (resolve c (.d i)) (lvl (b.getLsbD i.val))) ∧
    (PinsDistinct c →
      (eightBit c = false → ∀ (out : Vector Level 16) (n : Nibble) (i : Fin 8), 4 ≤ i.val →
        (latchesAfter out (put4Events c n))[resolve c (.d i)] = lvl (n.getLsbD (i.val - 4))) ∧
      (eightBit c = true → ∀ (out : Vector Level 16) (b : Byte) (i : Fin 8),
        (latchesAfter out (put8Events c b))[resolve c (.d i)] = lvl (b.getLsbD i.val))) ∧
    (∀ (out : Vector Level 16) (n : Nibble) (p : PinId), (∀ i : Fin 8, 4 ≤ i.val → resolve c (.d i) ≠ p) →
      (latchesAfter out (put4Events c n))[p] = out[p]) ∧
    (∀ (out : Vector Level 16) (b : Byte) (p : PinId), (∀ i : Fin 8, resolve c (.d i) ≠ p) →
      (latchesAfter out (put8Events c b))[p] = out[p])

/-- R94: a pulse is enable high, the high hold, enable low, and the low hold unless it is 0; with enable low before it,
it is one bus cycle, of the latches as they stand, and ends with enable low and every other latch as it was. -/
def Obligations.PulseIsOneBusCycle : Prop :=
  (∀ c : Consts, 1 ≤ c.prm.tEnHi →
    pulseEvents c = [.w (resolve c .en) .high, .d c.prm.tEnHi, .w (resolve c .en) .low] ++
      (if c.prm.tEnLo > 0 then [.d c.prm.tEnLo] else [])) ∧
  ∀ (c : Consts) (out : Vector Level 16), PinsDistinct c → out[resolve c .en] = .low →
    busCycles c out (pulseEvents c) = [cycleOf c out] ∧ latchesAfter out (pulseEvents c) = out

/-- R96: the bus cycles of a transfer are the high nibble and then the low one under FourBit, the byte under EightBit,
with RS low for Instruction and high for Data. -/
def Obligations.TransferBusCycles : Prop :=
  ∀ (c : Consts) (out : Vector Level 16) (b : Byte), PinsDistinct c → out[resolve c .en] = .low →
    busCycles c out (xferEvents c .instruction b) =
      (if eightBit c then [⟨.low, .low, some b⟩]
       else [⟨.low, .low, some (b >>> 4)⟩, ⟨.low, .low, some (b &&& 0x0F#8)⟩]) ∧
    busCycles c out (xferEvents c .data b) =
      (if eightBit c then [⟨.high, .low, some b⟩]
       else [⟨.high, .low, some (b >>> 4)⟩, ⟨.high, .low, some (b &&& 0x0F#8)⟩])

/-- R98: a raw cycle is one bus cycle, of the value's low `NDATA` bits; the select levels stay as they were. -/
def Obligations.RawCycleIsOneBusCycle : Prop :=
  ∀ (c : Consts) (out : Vector Level 16) (v : Byte), PinsDistinct c → out[resolve c .en] = .low →
    rwLevel c out = .low →
    busCycles c out (rawcycleEvents c v) =
      [⟨out[resolve c .rs], .low, some (if eightBit c then v else v &&& 0x0F#8)⟩]

/-- R90, R98, R108: the parts of a transfer and of a raw cycle, in order, and how many events a transfer and a sample
are. -/
def Obligations.EventCounts : Prop :=
  (∀ (c : Consts) (reg : DevReg) (b : Byte),
    xferEvents c reg b = selectEvents c reg ++
      (if eightBit c then put8Events c b ++ pulseEvents c
       else put4Events c (b.extractLsb' 4 4) ++ pulseEvents c ++ put4Events c (b.extractLsb' 0 4) ++ pulseEvents c) ∧
    rawcycleEvents c b = (if eightBit c then put8Events c b else put4Events c (b.extractLsb' 0 4)) ++ pulseEvents c) ∧
  ∀ c : Consts, 1 ≤ c.prm.tEnHi →
    (∀ b reg, reg ≠ .busyFlagRead → (xferEvents c reg b).length =
      (if rwWired c then 2 else 1) + 8 + (if eightBit c then 1 else 2) * (if c.prm.tEnLo = 0 then 3 else 4)) ∧
    (∀ l, (sampleEvents c l).length =
      (if eightBit c then (if c.prm.tEnLo = 0 then 4 else 5) else (if c.prm.tEnLo = 0 then 7 else 9)))

/-- R156: the events of the pin-configuration prologue: RS, RW if it is wired, EN, then the used data signals ascending,
each made an output and then written Low; after it every used pin is an output at Low and no other pin has changed. -/
def Obligations.PinConfigMakesOutputs : Prop :=
  (∀ c : Consts,
    pinConfigEvents c =
      [.m (resolve c .rs) .output, .w (resolve c .rs) .low] ++
      (if rwWired c then [.m (resolve c .rw) .output, .w (resolve c .rw) .low] else []) ++
      [.m (resolve c .en) .output, .w (resolve c .en) .low] ++
      (if eightBit c then
        [.m (resolve c (.d 0)) .output, .w (resolve c (.d 0)) .low, .m (resolve c (.d 1)) .output,
         .w (resolve c (.d 1)) .low, .m (resolve c (.d 2)) .output, .w (resolve c (.d 2)) .low,
         .m (resolve c (.d 3)) .output, .w (resolve c (.d 3)) .low] else []) ++
      [.m (resolve c (.d 4)) .output, .w (resolve c (.d 4)) .low, .m (resolve c (.d 5)) .output,
       .w (resolve c (.d 5)) .low, .m (resolve c (.d 6)) .output, .w (resolve c (.d 6)) .low,
       .m (resolve c (.d 7)) .output, .w (resolve c (.d 7)) .low]) ∧
  ∀ (c : Consts) (dir : Vector PinDir 16) (out : Vector Level 16) (p : PinId),
    (¬ PinUnused c p →
      (dirsAfter dir (pinConfigEvents c))[p] = .output ∧ (latchesAfter out (pinConfigEvents c))[p] = .low) ∧
    (PinUnused c p →
      (dirsAfter dir (pinConfigEvents c))[p] = dir[p] ∧ (latchesAfter out (pinConfigEvents c))[p] = out[p])

/-! ### The operations (42_handshake.md R113, 43_commands.md, 45_init.md) -/

/-- R121: CLEAR is word 0x001 and transfers 0x01 with the long delay class. -/
def Obligations.ClearEffect : Prop :=
  decode 0x001#10 = .ok .clear ∧ TransferEffect .clear .instruction 0x01#8 Params.tClear

/-- R122: HOME is word 0x002 and transfers 0x02 with the long delay class; 0x003 is no HOME. -/
def Obligations.HomeEffect : Prop :=
  decode 0x002#10 = .ok .home ∧ decode 0x003#10 = .error .homeFlag ∧
    TransferEffect .home .instruction 0x02#8 Params.tClear

/-- R123: ENTRY_MODE f is word `0x004 | f` and transfers `0x04 | f`. -/
def Obligations.EntryModeEffect : Prop :=
  ∀ inc shift : Bool,
    decode (BitVec.ofNat 10 (0x004 + (if inc then 0x02 else 0) + (if shift then 0x01 else 0))) =
      .ok (.entryMode inc shift) ∧
    TransferEffect (.entryMode inc shift) .instruction
      (BitVec.ofNat 8 (0x04 + (if inc then 0x02 else 0) + (if shift then 0x01 else 0))) Params.tCmd

/-- R124: DISPLAY f is word `0x008 | f` and transfers `0x08 | f`. -/
def Obligations.DisplayEffect : Prop :=
  ∀ on cursor blink : Bool,
    decode (BitVec.ofNat 10
      (0x008 + (if on then 0x04 else 0) + (if cursor then 0x02 else 0) + (if blink then 0x01 else 0))) =
        .ok (.display on cursor blink) ∧
    TransferEffect (.display on cursor blink) .instruction
      (BitVec.ofNat 8 (0x08 + (if on then 0x04 else 0) + (if cursor then 0x02 else 0) + (if blink then 0x01 else 0)))
      Params.tCmd

/-- R125: SHIFT f is word `0x010 | f` and transfers `0x10 | f`; with a bit of [1:0] set the word is reserved. -/
def Obligations.ShiftEffect : Prop :=
  (∀ disp right : Bool,
    decode (BitVec.ofNat 10 (0x010 + (if disp then 0x08 else 0) + (if right then 0x04 else 0))) =
      .ok (.shift disp right) ∧
    TransferEffect (.shift disp right) .instruction
      (BitVec.ofNat 8 (0x10 + (if disp then 0x08 else 0) + (if right then 0x04 else 0))) Params.tCmd) ∧
  (∀ n : Fin 16, n.val % 4 ≠ 0 → decode (BitVec.ofNat 10 (0x010 + n.val)) = .error .shiftLowBits)

/-- R129: FUNCTION_SET g, as SETUP issues it, transfers `0x20 | g`; the command port takes none of its words. That exec
gives the operation its effect outside SETUP too is the model's choice (log entry 8). -/
def Obligations.FunctionSetEffect : Prop :=
  (∀ e l f : Bool,
    TransferEffect (.functionSet e l f 0#2) .instruction
      (BitVec.ofNat 8 (0x20 + (if e then 0x10 else 0) + (if l then 0x08 else 0) + (if f then 0x04 else 0)))
      Params.tCmd) ∧
  (∀ e l f ign, (Instr.functionSet e l f ign).fromPort = false)

/-- R126: SET_CGRAM a is word `0x040 | a` and transfers `0x40 | a` for a in 0..63, and is refused above. -/
def Obligations.SetCgramEffect : Prop :=
  (∀ a : Nat, a ≤ 63 →
    decode (BitVec.ofNat 10 (0x040 + a)) = .ok (.setCgram a) ∧
    TransferEffect (.setCgram a) .instruction (BitVec.ofNat 8 (0x40 + a)) Params.tCmd) ∧
  (∀ (a : Nat) (s : State), a > 63 → exec (.setCgram a) s = .refused .operandOutOfRange)

/-- R127: SET_DDRAM a is word `0x080 | a` and transfers `0x80 | a` for a in 0..127, and is refused above. -/
def Obligations.SetDdramEffect : Prop :=
  (∀ a : Nat, a ≤ 127 →
    decode (BitVec.ofNat 10 (0x080 + a)) = .ok (.setDdram a) ∧
    TransferEffect (.setDdram a) .instruction (BitVec.ofNat 8 (0x80 + a)) Params.tCmd) ∧
  (∀ (a : Nat) (s : State), a > 127 → exec (.setDdram a) s = .refused .operandOutOfRange)

/-- R128: WRITE_DATA b is word `0x100 | b` and transfers b to the Data register. -/
def Obligations.WriteDataEffect : Prop :=
  ∀ b : Byte,
    decode (BitVec.ofNat 10 (0x100 + b.toNat)) = .ok (.writeData b) ∧
    TransferEffect (.writeData b) .data b Params.tCmd

/-- R113: WAIT is word 0x200; it emits nothing under FixedDelay and changes nothing; under BusyFlagPoll it is one poll and
no transfer, and ends in DeviceNotResponding where as many samples as the bound allows say busy. It loads no byte, so XB
stays (R13), and leaves RSEL at BusyFlagRead (R107). -/
def Obligations.WaitEffect : Prop :=
  decode 0x200#10 = .ok .wait ∧
  ∀ s : State, IdleReady s →
    (busyFlagPoll s.con = false → exec .wait s = .next s) ∧
    (busyFlagPoll s.con = true →
      ∀ k, BusyFor k s → s.answer k = .low → (∀ m, s.con.prm.bfRetryMax = some m → k < m) →
      ∃ (u : State) (n : Nat) (t : State), exec .wait s = .next u ∧ Host.Core.run Sys2Proof.core n u = .next t ∧
        Emitted s t (pollEvents s.con k) ∧ Kept s t ∧ Answered s t (k + 1) ∧ IdleReady t ∧
        t.setups = s.setups ∧ t.xb = s.xb ∧ t.rsel = .busyFlagRead ∧ t.bfs = false ∧ t.pcnt = k + 1) ∧
    (busyFlagPoll s.con = true →
      ∀ m, 1 ≤ m → s.con.prm.bfRetryMax = some m → BusyFor m s →
      ∃ (u : State) (n : Nat) (t : State), exec .wait s = .next u ∧ Host.Core.run Sys2Proof.core n u = .next t ∧
        Emitted s t (failedPollEvents s.con m) ∧ Answered s t m ∧ IdleReady t ∧
        t.noResp = true ∧ t.cfgErr = s.cfgErr ∧ t.con = s.con ∧ t.port = [] ∧ t.host = s.host ∧
        t.setups = s.setups ∧ t.xb = s.xb ∧ t.rsel = .busyFlagRead ∧ t.bfs = true ∧ t.pcnt = m)

/-- R155 to R164 under FixedDelay: SETUP runs to its end and emits exactly the events of its steps, in order. -/
def Obligations.SetupEffectFixedDelay : Prop :=
  ∀ s : State, s.rdy = true → busyFlagPoll s.con = false →
    ∃ t, exec .setup s = .next t ∧ Emitted s t (setupEventsFixed s.con) ∧ Kept s t ∧ Answered s t 0 ∧ IdleReady t ∧
      t.setups = s.setups + 1 ∧ t.xb = 0x0C#8 ∧ t.rsel = .instruction ∧ t.bfs = s.bfs ∧ t.pcnt = s.pcnt

/-- R155 to R164, R116 under BusyFlagPoll, with any number of busy samples short of the bound in each of the six polls:
SETUP is accepted and ends with exactly the events of its steps. -/
def Obligations.SetupEffectBusyFlagPoll : Prop :=
  ∀ (s : State) (ks : List Nat), s.rdy = true → busyFlagPoll s.con = true → ks.length = 6 →
    Answers (pollLevels ks) s → (∀ m, s.con.prm.bfRetryMax = some m → ∀ k ∈ ks, k < m) →
    ∃ (u : State) (n : Nat) (t : State), exec .setup s = .next u ∧ Host.Core.run Sys2Proof.core n u = .next t ∧
      Emitted s t (setupEventsPoll s.con ks) ∧ Kept s t ∧ Answered s t (ks.sum + 6) ∧ IdleReady t ∧
      t.setups = s.setups + 1 ∧ t.xb = 0x0C#8 ∧ t.rsel = .instruction ∧ t.bfs = false ∧
      t.pcnt = ks.getLastD 0 + 1

/-- R166: the bus cycles of a SETUP, in order: the forced function sets, the switch to four bits where it applies, then
FUNC, display off, home, clear, entry mode, display on; under BusyFlagPoll each of these six bytes is preceded by the
read cycles of its poll, whatever the number of busy samples. -/
def Obligations.SetupBusCycles : Prop :=
  (∀ s : State, s.rdy = true → busyFlagPoll s.con = false → PinsDistinct s.con → s.out[resolve s.con .en] = .low →
    ∃ t es, exec .setup s = .next t ∧ IdleReady t ∧ t.h = s.h ++ es ∧
      busCycles s.con s.out es = setupCyclesFixed s.con) ∧
  (∀ (s : State) (ks : List Nat), s.rdy = true → busyFlagPoll s.con = true → rwWired s.con = true →
    PinsDistinct s.con → s.out[resolve s.con .en] = .low → ks.length = 6 → Answers (pollLevels ks) s →
    (∀ m, s.con.prm.bfRetryMax = some m → ∀ k ∈ ks, k < m) →
    ∃ (u : State) (n : Nat) (t : State) (es : List Event), exec .setup s = .next u ∧
      Host.Core.run Sys2Proof.core n u = .next t ∧ IdleReady t ∧ t.h = s.h ++ es ∧
      busCycles s.con s.out es = setupCyclesPoll s.con ks)

/-- R130: the same operation twice in a row under FixedDelay appends the same events twice and leaves pins and status
as after the first. -/
def Obligations.RepetitionIsIdempotent : Prop :=
  ∀ (i : Instr) (s t : State), s.rdy = true → busyFlagPoll s.con = false → exec i s = .next t →
    ∃ es u, t.h = s.h ++ es ∧ exec i t = .next u ∧ u.h = t.h ++ es ∧ u.dir = t.dir ∧ u.out = t.out ∧
      u.status = t.status ∧ u.seq = t.seq ∧ u.xb = t.xb ∧ u.rsel = t.rsel

/-- The frame of every operation: what it leaves unchanged when it answers a next state. -/
def Obligations.ExecFrame : Prop :=
  ∀ (i : Instr) (s t : State), exec i s = .next t →
    t.con = s.con ∧ t.host = s.host ∧ t.cfgErr = s.cfgErr ∧
    t.setups = s.setups + (if i = .setup ∧ s.rdy = true then 1 else 0) ∧
    (t.port = s.port ∨ (t.port = [] ∧ t.noResp = true ∧ busyFlagPoll s.con = true)) ∧
    (t.noResp = s.noResp ∨ (t.noResp = true ∧ busyFlagPoll s.con = true)) ∧
    (i ≠ .setup → ∀ p : PinId, p ≠ resolve s.con d7 → t.dir[p] = s.dir[p]) ∧
    (∀ p, PinUnused s.con p → t.dir[p] = s.dir[p] ∧ t.out[p] = s.out[p]) ∧
    (i = .wait → t.xb = s.xb ∧
      ∀ p : PinId, p ≠ resolve s.con .rs → p ≠ resolve s.con .rw → p ≠ resolve s.con .en → t.out[p] = s.out[p]) ∧
    (busyFlagPoll s.con = false → t.bfs = s.bfs ∧ t.pcnt = s.pcnt ∧ t.tape = s.tape ∧ t.reads = s.reads ∧
      t.status = s.status ∧ (i ≠ .setup → t.dir = s.dir))

/-! ### The poll (42_handshake.md R107 to R112, 70_reset_and_hazards.md R202) -/

/-- R112: with `k` busy samples and then an idle one, short of the bound, an operation other than SETUP completes with
exactly `k + 1` samples, and then transfers. That it takes `k + 1` steps of the machine is the model's choice (log
entry 5). -/
def Obligations.PollSamplesUntilIdle : Prop :=
  ∀ (s : State) (w : OpWord) (ws : List OpWord) (i : Instr) (k : Nat),
    IdleReady s → s.port = w :: ws → decode w = .ok i → i.fromPort = true → i ≠ .setup →
    busyFlagPoll s.con = true → BusyFor k s → s.answer k = .low →
    (∀ m, s.con.prm.bfRetryMax = some m → k < m) →
    ∃ t : State, Host.Core.run Sys2Proof.core (k + 1) s = .next t ∧
      Emitted s t (pollEvents s.con k ++ afterPollEvents s.con i) ∧ Answered s t (k + 1) ∧ IdleReady t ∧
      t.pcnt = k + 1 ∧ t.bfs = false ∧ t.dir[resolve s.con d7] = .output ∧ t.port = ws ∧ t.host = s.host ∧
      t.status = s.status ∧ t.con = s.con ∧ t.setups = s.setups

/-- R111, R155: when the samples of a poll reach the bound `m` and all say busy, the operation ends in
DeviceNotResponding with D7 an output again, its transfer is not performed and the rest of a compound is dropped: an
operation other than SETUP, from its acceptance; any operation, SETUP among them, from inside its poll; and SETUP from
its acceptance, where one of its six polls reaches the bound after earlier ones that ended: what it did up to that poll is
done, and nothing after it. That each busy sample is a step of the machine is the model's choice (log entry 5). -/
def Obligations.PollBoundRaises : Prop :=
  (∀ (s : State) (w : OpWord) (ws : List OpWord) (i : Instr) (m : Nat),
    IdleReady s → s.port = w :: ws → decode w = .ok i → i.fromPort = true → i ≠ .setup →
    busyFlagPoll s.con = true → 1 ≤ m → s.con.prm.bfRetryMax = some m → BusyFor m s →
    ∃ t : State, Host.Core.run Sys2Proof.core m s = .next t ∧ Emitted s t (failedPollEvents s.con m) ∧ Answered s t m ∧
      IdleReady t ∧ t.noResp = true ∧ t.cfgErr = s.cfgErr ∧ t.dir[resolve s.con d7] = .output ∧
      t.port = [] ∧ t.host = s.host ∧ t.con = s.con) ∧
  (∀ (s : State) (k : List Act) (n : Nat),
    s.todo = .pollLoop :: k → 1 ≤ n → s.con.prm.bfRetryMax = some (s.pcnt + n) → BusyFor n s →
    ∃ t : State, Host.Core.run Sys2Proof.core n s = .next t ∧
      Emitted s t ((List.replicate n (sampleEvents s.con .high)).flatten ++ pollEndEvents s.con) ∧ Answered s t n ∧
      IdleReady t ∧ t.noResp = true ∧ t.cfgErr = s.cfgErr ∧ t.dir[resolve s.con d7] = .output ∧
      t.port = [] ∧ t.host = s.host ∧ t.con = s.con) ∧
  (∀ (s : State) (ks : List Nat) (m : Nat), s.rdy = true → busyFlagPoll s.con = true → ks.length < 6 →
    s.con.prm.bfRetryMax = some m → 1 ≤ m → (∀ k ∈ ks, k < m) →
    Answers (pollLevels ks ++ List.replicate m .high) s →
    ∃ (u : State) (n : Nat) (t : State), exec .setup s = .next u ∧ Host.Core.run Sys2Proof.core n u = .next t ∧
      Emitted s t (setupOpeningEvents s.con ++ setupStepsPoll s.con ks ++ failedPollEvents s.con m) ∧
      Answered s t (ks.sum + ks.length + m) ∧ IdleReady t ∧ t.noResp = true ∧ t.cfgErr = s.cfgErr ∧
      t.dir[resolve s.con d7] = .output ∧ t.port = [] ∧ t.host = s.host ∧ t.con = s.con ∧ t.setups = s.setups + 1)

/-- R109: without a bound, a device that stays busy keeps the block in the loop, one sample after another. That each is a
step of the machine is the model's choice (log entry 5). -/
def Obligations.BusyDeviceKeepsPolling : Prop :=
  ∀ (s : State) (k : List Act) (n : Nat), s.todo = .pollLoop :: k → s.con.prm.bfRetryMax = none → BusyFor n s →
    ∃ t : State, Host.Core.run Sys2Proof.core n s = .next t ∧
      Emitted s t (List.replicate n (sampleEvents s.con .high)).flatten ∧ Answered s t n ∧ t.todo = s.todo ∧
      t.seq = s.seq ∧ t.status = s.status ∧ t.pcnt = s.pcnt + n ∧ (1 ≤ n → t.bfs = true) ∧ t.xb = s.xb ∧
      t.rsel = s.rsel ∧ t.setups = s.setups ∧ t.con = s.con ∧ t.port = s.port ∧ t.host = s.host

/-- R202: with a bound every operation in progress comes to an end, whatever the device answers, and the block is then
idle and ready. -/
def Obligations.BoundedPollsEnd : Prop :=
  ∀ (s : State) (m : Nat), s.con.prm.bfRetryMax = some m → 1 ≤ m → (s.todo ≠ [] → s.pcnt < m) →
    Act.pollLoop ∉ s.todo.tail →
    ∃ (n : Nat) (t : State), Host.Core.run Sys2Proof.core n s = .next t ∧ t.todo = [] ∧ t.con = s.con ∧
      t.host = s.host ∧ (SequencerConsistent s → IdleReady t)

/-- R12: whatever a step appends to the trace, its reads are of the pin of D7, and there are none under FixedDelay where
no poll is in progress. -/
def Obligations.ReadsOnlyBusyFlag : Prop :=
  ∀ s t : State, step s = .next t →
    ∃ es, t.h = s.h ++ es ∧ (∀ p l, Event.r p l ∈ es → p = resolve s.con d7) ∧
      (busyFlagPoll s.con = false → Act.pollLoop ∉ s.todo → ∀ p l, Event.r p l ∉ es)

/-! ### Errors (60_exceptions.md) -/

/-- R175: taking an exception sets its own bit, keeps the other, makes the block idle and ready, drops what was left,
and emits nothing. -/
def Obligations.RaiseEffect : Prop :=
  ∀ s : State,
    ((raise .configurationError s).cfgErr = true ∧ (raise .configurationError s).noResp = s.noResp) ∧
    ((raise .deviceNotResponding s).noResp = true ∧ (raise .deviceNotResponding s).cfgErr = s.cfgErr) ∧
    ∀ e, IdleReady (raise e s) ∧ (raise e s).port = [] ∧ Emitted s (raise e s) [] ∧
      (raise e s).con = s.con ∧ (raise e s).host = s.host

/-- R177: no step clears an error bit. -/
def Obligations.ErrorBitsSticky : Prop :=
  ∀ s t : State, step s = .next t →
    (s.cfgErr = true → t.cfgErr = true) ∧ (s.noResp = true → t.noResp = true)

/-- R170: after construction only a DEFINE_CHAR whose list is not exactly `ROWS` long sets CFGERR, and it emits no
event. -/
def Obligations.ConfigErrorOnlyFromGlyphLength : Prop :=
  ∀ s t : State, step s = .next t → s.cfgErr = false → t.cfgErr = true →
    t.h = s.h ∧ ∃ x bm rs, s.host = .defineChar x bm :: rs ∧ bm.length ≠ glyphRows s.con

/-- R171: only a poll whose samples have reached the bound with the last one High sets NORESP, and only of a block that
polls or is in a poll. -/
def Obligations.NoRespOnlyAtBound : Prop :=
  ∀ s t : State, step s = .next t → s.noResp = false → t.noResp = true →
    s.con.prm.bfRetryMax = some t.pcnt ∧ t.bfs = true ∧ t.dir[resolve s.con d7] = .output ∧
    (busyFlagPoll s.con = true ∨ Act.pollLoop ∈ s.todo)

/-! ### Pseudo-operations (44_compound.md) -/

/-- R141: MOVE_TO is refused for col 0, row 0, a row above 4 of two lines or an address above 127, and is else the one
word SET_DDRAM of the address. -/
def Obligations.MoveToExpansion : Prop :=
  ∀ (c : Consts) (col row : Nat),
    ((col = 0 ∨ row = 0) → expand c (.moveTo col row) = .refuse .operandOutOfRange) ∧
    (twoLines c = true → row > 4 → expand c (.moveTo col row) = .refuse .operandOutOfRange) ∧
    (∀ a, 1 ≤ col → 1 ≤ row →
      (twoLines c = true → row ≤ 4 ∧
        (row = 1 → a = col - 1) ∧ (row = 2 → a = 0x40 + (col - 1)) ∧
        (row = 3 → a = c.cols.toNat + (col - 1)) ∧ (row = 4 → a = 0x40 + c.cols.toNat + (col - 1))) →
      (twoLines c = false → a = (row - 1) * c.cols.toNat + (col - 1)) →
      (a > 127 → expand c (.moveTo col row) = .refuse .operandOutOfRange) ∧
      (a ≤ 127 → expand c (.moveTo col row) = .words [BitVec.ofNat 10 (0x080 + a)]))

/-- R143: PRINT_CHAR is the one word WRITE_DATA of its code. -/
def Obligations.PrintCharExpansion : Prop :=
  ∀ (c : Consts) (b : Byte), expand c (.printChar b) = .words [BitVec.ofNat 10 (0x100 + b.toNat)]

/-- R145: DEFINE_CHAR checks the length first, then the range, and is else `ROWS` pairs of SET_CGRAM and WRITE_DATA at
consecutive addresses; on the length error CFGERR is set and there is no event. `ROWS` is 11 or 8 by bit 4 of `CFG`. -/
def Obligations.DefineCharExpansion : Prop :=
  ∀ (c : Consts) (x : Nat) (bm : List Byte) (rows : Nat), rows = (if c.cfg.toNat / 16 % 2 = 1 then 11 else 8) →
    (bm.length ≠ rows → expand c (.defineChar x bm) = .configurationError) ∧
    (bm.length = rows → x * rows + (rows - 1) > 63 →
      expand c (.defineChar x bm) = .refuse .operandOutOfRange) ∧
    (bm.length = rows → x * rows + (rows - 1) ≤ 63 →
      ∃ ws, expand c (.defineChar x bm) = .words ws ∧ ws.length = 2 * rows ∧
        ∀ r (h : r < bm.length),
          ws[2 * r]? = some (BitVec.ofNat 10 (0x040 + (x * rows + r))) ∧
          ws[2 * r + 1]? = some (BitVec.ofNat 10 (0x100 + bm[r].toNat))) ∧
    (∀ (s : State) (rs : List Request), IdleReady s → s.con = c → s.port = [] → s.host = .defineChar x bm :: rs →
      bm.length ≠ rows → ∃ t, step s = .next t ∧ t.cfgErr = true ∧ t.h = s.h ∧ IdleReady t)

/-- R146: PRINT_STR is one WRITE_DATA for each character before the first terminator, and is refused without one. -/
def Obligations.PrintStrExpansion : Prop :=
  ∀ (c : Consts) (cs : List Byte), (∀ b ∈ cs, b ≠ 0x00#8) →
    expand c (.printStr cs) = .refuse .unterminatedString ∧
    ∀ rest, expand c (.printStr (cs ++ 0x00#8 :: rest)) =
      .words (cs.map fun b => BitVec.ofNat 10 (0x100 + b.toNat))

/-- R147: PRINT_UINT is refused for a base outside 2..36, prints 0 as "0", and else prints the digits of the value in the
base, most significant first and not zero. -/
def Obligations.PrintUintExpansion : Prop :=
  ∀ (c : Consts) (v : BitVec 32) (base : Nat),
    ((base < 2 ∨ base > 36) → expand c (.printUint v base) = .refuse .operandOutOfRange) ∧
    (2 ≤ base → base ≤ 36 → v = 0#32 → expand c (.printUint v base) = .words [0x130#10]) ∧
    (2 ≤ base → base ≤ 36 → v ≠ 0#32 →
      ∃ ds : List Nat, expand c (.printUint v base) = .words (ds.map fun d =>
          BitVec.ofNat 10 (0x100 + (if d < 10 then 0x30 + d else 0x41 + (d - 10)))) ∧
        (∀ d ∈ ds, d < base) ∧ ds.head? ≠ some 0 ∧ ds.foldl (fun acc d => acc * base + d) 0 = v.toNat)

/-- R147: PRINT_INT of a value that is not negative is PRINT_UINT of it, and of a negative one is '-' and then PRINT_UINT of
the magnitude, that of the least value included. That the operand is the value's 32-bit two's complement is the model's
choice (log entry 16). -/
def Obligations.PrintIntExpansion : Prop :=
  ∀ (c : Consts) (v : BitVec 32) (base : Nat),
    ((base < 2 ∨ base > 36) → expand c (.printInt v base) = .refuse .operandOutOfRange) ∧
    (v.toNat < 2 ^ 31 → expand c (.printInt v base) = expand c (.printUint v base)) ∧
    (2 ≤ base → base ≤ 36 → v.toNat ≥ 2 ^ 31 →
      ∃ ws, expand c (.printUint (BitVec.ofNat 32 (2 ^ 32 - v.toNat)) base) = .words ws ∧
        expand c (.printInt v base) = .words (0x12D#10 :: ws))

/-! ### Invariants and rules of the whole machine -/

/-- R10, R11: every step keeps the latches equal to what the trace last wrote to each of them. -/
def Obligations.StepKeepsLatchesReplay : Prop :=
  ∀ s t : State, LatchesReplay s → step s = .next t → LatchesReplay t

/-- R16, R25: every step keeps the sequencer consistent, RDY being 1 exactly while it is IDLE. -/
def Obligations.StepKeepsSequencerConsistent : Prop :=
  ∀ s t : State, SequencerConsistent s → step s = .next t → SequencerConsistent t

/-- R185: a block that is consistent is never stuck: its step answers no fault, and while an operation is in progress or
the host has nothing to present it answers a next state. -/
def Obligations.NeverStuck : Prop :=
  ∀ s : State, SequencerConsistent s →
    (∀ f, step s ≠ .fault f) ∧
    ((s.todo ≠ [] ∨ (s.port = [] ∧ s.host = [])) → ∃ t, step s = .next t)

/-- R32: every step keeps enable low and the used pins outputs, but D7 during a poll. -/
def Obligations.StepKeepsReadyPins : Prop :=
  ∀ s t : State, ReadyPins s → step s = .next t → ReadyPins t

/-- R32: SETUP, on distinct pins and from any directions and latches, leaves the pins ready, from its first step on. -/
def Obligations.SetupMakesPinsReady : Prop :=
  ∀ s : State, s.rdy = true → PinsDistinct s.con → ∃ t, exec .setup s = .next t ∧ ReadyPins t

/-- R32 (c): under BusyFlagPoll read/write is Low after an operation that ended with a transfer, SETUP among them, and High
after a WAIT, however many samples the polls take. -/
def Obligations.ReadWriteLevelAfterOperation : Prop :=
  (∀ (i : Instr) (s : State) (k : Nat), i.wellFormed = true → i ≠ .setup → s.rdy = true →
    busyFlagPoll s.con = true → rwWired s.con = true → PinsDistinct s.con → BusyFor k s → s.answer k = .low →
    (∀ m, s.con.prm.bfRetryMax = some m → k < m) →
    ∃ (u : State) (n : Nat) (t : State), exec i s = .next u ∧ Host.Core.run Sys2Proof.core n u = .next t ∧
      IdleReady t ∧ Answered s t (k + 1) ∧ t.out[resolve s.con .rw] = if i = .wait then .high else .low) ∧
  (∀ (s : State) (ks : List Nat), s.rdy = true → busyFlagPoll s.con = true → rwWired s.con = true →
    PinsDistinct s.con → ks.length = 6 → Answers (pollLevels ks) s →
    (∀ m, s.con.prm.bfRetryMax = some m → ∀ k ∈ ks, k < m) →
    ∃ (u : State) (n : Nat) (t : State), exec .setup s = .next u ∧ Host.Core.run Sys2Proof.core n u = .next t ∧
      IdleReady t ∧ Answered s t (ks.sum + 6) ∧ t.out[resolve s.con .rw] = .low)

/-- R32: every step leaves the pins of no used signal at their reset values. -/
def Obligations.StepKeepsUnusedPins : Prop :=
  ∀ s t : State, UnusedPinsUntouched s → step s = .next t → UnusedPinsUntouched t

/-- R31: every instance whose construction check passes meets the invariants at reset. The machine's own reset is one of
them; which one, is the model's choice (log entry 1). -/
def Obligations.ResetMeetsInvariants : Prop :=
  (∀ c : Consts, handshakeLegal c = true →
    LatchesReplay (State.resetWith c true) ∧ SequencerConsistent (State.resetWith c true) ∧
    UnusedPinsUntouched (State.resetWith c true) ∧ Event.d 0 ∉ (State.resetWith c true).h ∧
    NoError (State.resetWith c true)) ∧
  (∃ c : Consts, handshakeLegal c = true ∧ State.reset = State.resetWith c true) ∧
  (∀ (a : PinAssignment) (cfg : BitVec 5) (cols : BitVec 8) (prm : Params),
    (State.construct a cfg cols prm).rdy = true →
    ∃ c : Consts, handshakeLegal c = true ∧ State.construct a cfg cols prm = State.resetWith c true)

/-- R4, R24, R18: a step changes no constant of the instance and only lengthens the trace. -/
def Obligations.ConstantsFixedTraceGrows : Prop :=
  ∀ s t : State, step s = .next t → t.con = s.con ∧ ∃ es, t.h = s.h ++ es

/-- 00_scope.md section 6: no step emits `D(0)`. -/
def Obligations.NoZeroDelay : Prop :=
  ∀ s t : State, step s = .next t → Event.d 0 ∉ s.h → Event.d 0 ∉ t.h

/-! ### The parts of a poll (42_handshake.md), and the premises about the device (70_reset_and_hazards.md R202) -/

/-- R107, R108, R110: the poll's prologue, its sample and its epilogue, event by event, and the registers they write. The
read stands inside the enable pulse, after the high hold (general knowledge, log entry 20). R44, R45: a poll, whether it ends idle or at the bound, is read
cycles and nothing else, one a sample under EightBit and two under FourBit, and leaves enable low. -/
def Obligations.PollParts : Prop :=
  (∀ c : Consts,
    (rwWired c = true →
      pollBeginEvents c = [.w (resolve c .rs) .low, .w (resolve c .rw) .high, .m (resolve c d7) .input]) ∧
    (1 ≤ c.prm.tEnHi → ∀ l : Level,
      sampleEvents c l =
        [.w (resolve c .en) .high, .d c.prm.tEnHi, .r (resolve c d7) l, .w (resolve c .en) .low] ++
        (if c.prm.tEnLo > 0 then [.d c.prm.tEnLo] else []) ++
        (if eightBit c then []
         else [.w (resolve c .en) .high, .d c.prm.tEnHi, .w (resolve c .en) .low] ++
          (if c.prm.tEnLo > 0 then [.d c.prm.tEnLo] else []))) ∧
    pollEndEvents c = [.m (resolve c d7) .output]) ∧
  (∀ s : State,
    (Emitted s (pollBegin s) (pollBeginEvents s.con) ∧ Answered s (pollBegin s) 0 ∧
      (pollBegin s).rsel = .busyFlagRead ∧ (pollBegin s).pcnt = 0) ∧
    (Emitted s (sample s) (sampleEvents s.con (s.answer 0)) ∧ Answered s (sample s) 1 ∧
      (sample s).bfs = decide (s.answer 0 = .high)) ∧
    (Emitted s (pollEnd s) (pollEndEvents s.con) ∧ Answered s (pollEnd s) 0)) ∧
  ∀ (c : Consts) (out : Vector Level 16), PinsDistinct c → rwWired c = true → out[resolve c .en] = .low →
    (∀ k, busCycles c out (pollEvents c k) =
        List.replicate ((k + 1) * if eightBit c then 1 else 2) ⟨.low, .high, none⟩ ∧
      (latchesAfter out (pollEvents c k))[resolve c .en] = .low) ∧
    (∀ m, busCycles c out (failedPollEvents c m) =
        List.replicate (m * if eightBit c then 1 else 2) ⟨.low, .high, none⟩ ∧
      (latchesAfter out (failedPollEvents c m))[resolve c .en] = .low)

/-- R202: under DeviceEventuallyReady without a bound, and under DeviceReadyWithin(m) with the bound m, every operation
the port takes, SETUP among them, completes: its poll, or all the steps of SETUP, and its transfer are done, the block is idle and ready, no error bit has
changed, and the next word stands at the port. The two premises are about every poll of a run: they hold of the rest of
the run after any step (log entry 24). -/
def Obligations.ReadyDeviceCompletes : Prop :=
  (∀ (s : State) (w : OpWord) (ws : List OpWord) (i : Instr),
    IdleReady s → s.port = w :: ws → decode w = .ok i → i.fromPort = true → busyFlagPoll s.con = true →
    ((s.con.prm.bfRetryMax = none ∧ DeviceEventuallyReady s) ∨
      ∃ m, s.con.prm.bfRetryMax = some m ∧ DeviceReadyWithin m s) →
    ∃ (n : Nat) (t : State) (es : List Event), Host.Core.run Sys2Proof.core n s = .next t ∧ IdleReady t ∧
      (i = .setup → ∃ ks : List Nat, ks.length = 6 ∧ es = setupEventsPoll s.con ks) ∧
      (i ≠ .setup → ∃ k, es = pollEvents s.con k) ∧
      Emitted s t (es ++ afterPollEvents s.con i) ∧ t.port = ws ∧ t.host = s.host ∧ t.status = s.status ∧
      t.con = s.con ∧ t.setups = s.setups + (if i = .setup then 1 else 0)) ∧
  (∀ s t : State, step s = .next t →
    (DeviceEventuallyReady s → DeviceEventuallyReady t) ∧
    (∀ m, DeviceReadyWithin m s → DeviceReadyWithin m t))
end

