-- ==== Sys2Proof/Laws/State.lean ====
section
/-! SUPPORT. One lemma per field per update of the state; all are true by unfolding the update once. -/

namespace Sys2Proof.Machine

section Emit
variable (e : Event) (s : State)

@[simp] theorem emit_xb : (emit e s).xb = s.xb := by cases e <;> rfl
@[simp] theorem emit_rsel : (emit e s).rsel = s.rsel := by cases e <;> rfl
@[simp] theorem emit_bfs : (emit e s).bfs = s.bfs := by cases e <;> rfl
@[simp] theorem emit_pcnt : (emit e s).pcnt = s.pcnt := by cases e <;> rfl
@[simp] theorem emit_seq : (emit e s).seq = s.seq := by cases e <;> rfl
@[simp] theorem emit_con : (emit e s).con = s.con := by cases e <;> rfl
@[simp] theorem emit_status : (emit e s).status = s.status := by cases e <;> rfl
@[simp] theorem emit_h : (emit e s).h = s.h ++ [e] := by cases e <;> rfl
@[simp] theorem emit_setups : (emit e s).setups = s.setups := by cases e <;> rfl
@[simp] theorem emit_todo : (emit e s).todo = s.todo := by cases e <;> rfl
@[simp] theorem emit_port : (emit e s).port = s.port := by cases e <;> rfl
@[simp] theorem emit_host : (emit e s).host = s.host := by cases e <;> rfl
@[simp] theorem emit_tape : (emit e s).tape = s.tape := by cases e <;> rfl
@[simp] theorem emit_reads : (emit e s).reads = s.reads := by cases e <;> rfl

end Emit

section SetSeq
variable (q : SeqState) (s : State)

@[simp] theorem setSeq_dir : (setSeq q s).dir = s.dir := rfl
@[simp] theorem setSeq_out : (setSeq q s).out = s.out := rfl
@[simp] theorem setSeq_xb : (setSeq q s).xb = s.xb := rfl
@[simp] theorem setSeq_rsel : (setSeq q s).rsel = s.rsel := rfl
@[simp] theorem setSeq_bfs : (setSeq q s).bfs = s.bfs := rfl
@[simp] theorem setSeq_pcnt : (setSeq q s).pcnt = s.pcnt := rfl
@[simp] theorem setSeq_tmr : (setSeq q s).tmr = s.tmr := rfl
@[simp] theorem setSeq_seq : (setSeq q s).seq = q := rfl
@[simp] theorem setSeq_con : (setSeq q s).con = s.con := rfl
@[simp] theorem setSeq_status : (setSeq q s).status = statusSetRdy (decide (q = .idle)) s.status := rfl
@[simp] theorem setSeq_h : (setSeq q s).h = s.h := rfl
@[simp] theorem setSeq_setups : (setSeq q s).setups = s.setups := rfl
@[simp] theorem setSeq_todo : (setSeq q s).todo = s.todo := rfl
@[simp] theorem setSeq_port : (setSeq q s).port = s.port := rfl
@[simp] theorem setSeq_host : (setSeq q s).host = s.host := rfl
@[simp] theorem setSeq_tape : (setSeq q s).tape = s.tape := rfl
@[simp] theorem setSeq_reads : (setSeq q s).reads = s.reads := rfl

end SetSeq

section Answered
variable (s : State)

@[simp] theorem answered_dir : s.answered.dir = s.dir := rfl
@[simp] theorem answered_out : s.answered.out = s.out := rfl
@[simp] theorem answered_xb : s.answered.xb = s.xb := rfl
@[simp] theorem answered_rsel : s.answered.rsel = s.rsel := rfl
@[simp] theorem answered_bfs : s.answered.bfs = s.bfs := rfl
@[simp] theorem answered_pcnt : s.answered.pcnt = s.pcnt := rfl
@[simp] theorem answered_tmr : s.answered.tmr = s.tmr := rfl
@[simp] theorem answered_seq : s.answered.seq = s.seq := rfl
@[simp] theorem answered_con : s.answered.con = s.con := rfl
@[simp] theorem answered_status : s.answered.status = s.status := rfl
@[simp] theorem answered_h : s.answered.h = s.h := rfl
@[simp] theorem answered_setups : s.answered.setups = s.setups := rfl
@[simp] theorem answered_todo : s.answered.todo = s.todo := rfl
@[simp] theorem answered_port : s.answered.port = s.port := rfl
@[simp] theorem answered_host : s.answered.host = s.host := rfl
@[simp] theorem answered_tape : s.answered.tape = s.tape.tail := rfl
@[simp] theorem answered_reads : s.answered.reads = s.reads + 1 := rfl

end Answered

section Raise
variable (e : Cause) (s : State)

@[simp] theorem raise_dir : (raise e s).dir = s.dir := rfl
@[simp] theorem raise_out : (raise e s).out = s.out := rfl
@[simp] theorem raise_xb : (raise e s).xb = s.xb := rfl
@[simp] theorem raise_rsel : (raise e s).rsel = s.rsel := rfl
@[simp] theorem raise_bfs : (raise e s).bfs = s.bfs := rfl
@[simp] theorem raise_pcnt : (raise e s).pcnt = s.pcnt := rfl
@[simp] theorem raise_tmr : (raise e s).tmr = s.tmr := rfl
@[simp] theorem raise_seq : (raise e s).seq = .idle := rfl
@[simp] theorem raise_con : (raise e s).con = s.con := rfl
@[simp] theorem raise_status : (raise e s).status = statusRaise e s.status := rfl
@[simp] theorem raise_h : (raise e s).h = s.h := rfl
@[simp] theorem raise_setups : (raise e s).setups = s.setups := rfl
@[simp] theorem raise_todo : (raise e s).todo = [] := rfl
@[simp] theorem raise_port : (raise e s).port = [] := rfl
@[simp] theorem raise_host : (raise e s).host = s.host := rfl
@[simp] theorem raise_tape : (raise e s).tape = s.tape := rfl
@[simp] theorem raise_reads : (raise e s).reads = s.reads := rfl

end Raise

section Status
variable (st : BitVec 3)

@[simp] theorem statusRdy_setRdy (b : Bool) : statusRdy (statusSetRdy b st) = b := by
  revert st; cases b <;> decide

@[simp] theorem statusCfgErr_setRdy (b : Bool) : statusCfgErr (statusSetRdy b st) = statusCfgErr st := by
  revert st; cases b <;> decide

@[simp] theorem statusNoResp_setRdy (b : Bool) : statusNoResp (statusSetRdy b st) = statusNoResp st := by
  revert st; cases b <;> decide

@[simp] theorem statusRdy_raise (e : Cause) : statusRdy (statusRaise e st) = true := by
  revert st; cases e <;> decide

@[simp] theorem statusCfgErr_raise (e : Cause) :
    statusCfgErr (statusRaise e st) = (decide (e = .configurationError) || statusCfgErr st) := by
  revert st; cases e <;> decide

@[simp] theorem statusNoResp_raise (e : Cause) :
    statusNoResp (statusRaise e st) = (decide (e = .deviceNotResponding) || statusNoResp st) := by
  revert st; cases e <;> decide

/-- A status word is its three fields. -/
theorem status_ext {a b : BitVec 3} (h0 : statusRdy a = statusRdy b) (h1 : statusCfgErr a = statusCfgErr b)
    (h2 : statusNoResp a = statusNoResp b) : a = b := by
  revert a b; decide

end Status

end Sys2Proof.Machine
end

