-- ==== Sys2Proof/Laws/Ops.lean ====
section
/-! SUPPORT. One lemma for each shared operation that says what it can do; callers cite it instead of unfolding the
operation. -/

namespace Sys2Proof.Machine

/-! ### The pin latches -/

/-- Reading a latch after writing one: the value written at that pin, the old value at any other. -/
@[simp] theorem pins_getElem_set {α : Type} (v : Vector α 16) (p q : PinId) (x : α) :
    (v.set p.val x p.isLt)[q.val]'q.isLt = if p = q then x else v[q.val]'q.isLt := by
  by_cases h : p = q
  · simp [h]
  · have h' : p.val ≠ q.val := fun e => h (Fin.ext e)
    simp [h, h']

/-- Used signals on distinct pins: different signals resolve to different pins (40_pinmap.md R85). -/
theorem resolve_ne {c : Consts} (h : PinsDistinct c) {a b : Signal} (ha : a ∈ usedSignals c)
    (hb : b ∈ usedSignals c) (hab : a ≠ b) : resolve c a ≠ resolve c b :=
  fun e => hab (List.inj_on_of_nodup_map h ha hb e)

@[simp] theorem rs_used (c : Consts) : Signal.rs ∈ usedSignals c := by simp [usedSignals]

@[simp] theorem en_used (c : Consts) : Signal.en ∈ usedSignals c := by simp [usedSignals]

theorem rw_used {c : Consts} (h : rwWired c = true) : Signal.rw ∈ usedSignals c := by simp [usedSignals, h]

theorem data_used {c : Consts} {i : Fin 8} (h : eightBit c = true ∨ 4 ≤ i.val) : Signal.d i ∈ usedSignals c := by
  cases h8 : eightBit c
  · simp [usedSignals, dataSignals, h8]; simp [h8] at h; omega
  · simp [usedSignals, dataSignals, h8]; omega

@[simp] theorem d7_used (c : Consts) : d7 ∈ usedSignals c := data_used (.inr (by decide))

/-! ### Emitting events -/

@[simp] theorem latchesAfter_nil (out : Vector Level 16) : latchesAfter out [] = out := rfl

@[simp] theorem latchesAfter_append (out : Vector Level 16) (a b : List Event) :
    latchesAfter out (a ++ b) = latchesAfter (latchesAfter out a) b := by
  simp [latchesAfter, List.foldl_append]

theorem latchesAfter_cons (out : Vector Level 16) (e : Event) (es : List Event) :
    latchesAfter out (e :: es) = latchesAfter (latchAfter out e) es := rfl

@[simp] theorem dirsAfter_nil (dir : Vector PinDir 16) : dirsAfter dir [] = dir := rfl

@[simp] theorem dirsAfter_append (dir : Vector PinDir 16) (a b : List Event) :
    dirsAfter dir (a ++ b) = dirsAfter (dirsAfter dir a) b := by
  simp [dirsAfter, List.foldl_append]

theorem dirsAfter_cons (dir : Vector PinDir 16) (e : Event) (es : List Event) :
    dirsAfter dir (e :: es) = dirsAfter (dirAfter dir e) es := rfl

@[simp] theorem timerAfter_nil (n : Nat) : timerAfter n [] = n := rfl

@[simp] theorem timerAfter_append (n : Nat) (a b : List Event) :
    timerAfter n (a ++ b) = timerAfter (timerAfter n a) b := by
  simp [timerAfter, List.foldl_append]

/-- Everything the emission of events does: it moves the latches and the timer and lengthens the trace. -/
theorem emitAll_eq (es : List Event) (s : State) :
    emitAll es s = { s with dir := dirsAfter s.dir es, out := latchesAfter s.out es,
                            tmr := timerAfter s.tmr es, h := s.h ++ es } := by
  induction es generalizing s with
  | nil => simp [emitAll]
  | cons e es ih =>
    rw [emitAll, ih]
    cases e <;> simp [emit, dirsAfter, latchesAfter, timerAfter, dirAfter, latchAfter]

@[simp] theorem emitAll_append (a b : List Event) (s : State) :
    emitAll (a ++ b) s = emitAll b (emitAll a s) := by
  simp [emitAll_eq]

section EmitAll
variable (es : List Event) (s : State)

@[simp] theorem emitAll_dir : (emitAll es s).dir = dirsAfter s.dir es := by simp [emitAll_eq]
@[simp] theorem emitAll_out : (emitAll es s).out = latchesAfter s.out es := by simp [emitAll_eq]
@[simp] theorem emitAll_tmr : (emitAll es s).tmr = timerAfter s.tmr es := by simp [emitAll_eq]
@[simp] theorem emitAll_h : (emitAll es s).h = s.h ++ es := by simp [emitAll_eq]
@[simp] theorem emitAll_xb : (emitAll es s).xb = s.xb := by simp [emitAll_eq]
@[simp] theorem emitAll_rsel : (emitAll es s).rsel = s.rsel := by simp [emitAll_eq]
@[simp] theorem emitAll_bfs : (emitAll es s).bfs = s.bfs := by simp [emitAll_eq]
@[simp] theorem emitAll_pcnt : (emitAll es s).pcnt = s.pcnt := by simp [emitAll_eq]
@[simp] theorem emitAll_seq : (emitAll es s).seq = s.seq := by simp [emitAll_eq]
@[simp] theorem emitAll_con : (emitAll es s).con = s.con := by simp [emitAll_eq]
@[simp] theorem emitAll_status : (emitAll es s).status = s.status := by simp [emitAll_eq]
@[simp] theorem emitAll_setups : (emitAll es s).setups = s.setups := by simp [emitAll_eq]
@[simp] theorem emitAll_todo : (emitAll es s).todo = s.todo := by simp [emitAll_eq]
@[simp] theorem emitAll_port : (emitAll es s).port = s.port := by simp [emitAll_eq]
@[simp] theorem emitAll_host : (emitAll es s).host = s.host := by simp [emitAll_eq]
@[simp] theorem emitAll_tape : (emitAll es s).tape = s.tape := by simp [emitAll_eq]
@[simp] theorem emitAll_reads : (emitAll es s).reads = s.reads := by simp [emitAll_eq]

end EmitAll

/-! ### The environment's answers -/

/-- After one answer is used, the answers that follow are those that followed it. -/
@[simp] theorem answered_answer (s : State) (n : Nat) : s.answered.answer n = s.answer (n + 1) := by
  simp only [State.answer, answered_tape, answered_reads]
  cases h : s.tape with
  | nil => simp [Nat.add_comm, Nat.add_left_comm]
  | cons l ls =>
    have : s.reads + 1 + n = s.reads + (n + 1) := by omega
    simp [this]

/-- The answers depend on what State lines up and on how many there have been, on nothing else. -/
theorem answer_congr {s t : State} (ht : t.tape = s.tape) (hr : t.reads = s.reads) (n : Nat) :
    t.answer n = s.answer n := by
  simp [State.answer, ht, hr]

/-! ### The handshake -/

section Sample
variable (s : State)

@[simp] theorem sample_h : (sample s).h = s.h ++ sampleEvents s.con (s.answer 0) := by simp [sample]
@[simp] theorem sample_dir : (sample s).dir = dirsAfter s.dir (sampleEvents s.con (s.answer 0)) := by
  simp [sample]
@[simp] theorem sample_out : (sample s).out = latchesAfter s.out (sampleEvents s.con (s.answer 0)) := by
  simp [sample]
@[simp] theorem sample_tmr : (sample s).tmr = timerAfter s.tmr (sampleEvents s.con (s.answer 0)) := by
  simp [sample]
@[simp] theorem sample_bfs : (sample s).bfs = levelBit (s.answer 0) := rfl
@[simp] theorem sample_con : (sample s).con = s.con := by simp [sample]
@[simp] theorem sample_pcnt : (sample s).pcnt = s.pcnt := by simp [sample]
@[simp] theorem sample_xb : (sample s).xb = s.xb := by simp [sample]
@[simp] theorem sample_rsel : (sample s).rsel = s.rsel := by simp [sample]
@[simp] theorem sample_seq : (sample s).seq = s.seq := by simp [sample]
@[simp] theorem sample_status : (sample s).status = s.status := by simp [sample]
@[simp] theorem sample_setups : (sample s).setups = s.setups := by simp [sample]
@[simp] theorem sample_todo : (sample s).todo = s.todo := by simp [sample]
@[simp] theorem sample_port : (sample s).port = s.port := by simp [sample]
@[simp] theorem sample_host : (sample s).host = s.host := by simp [sample]
@[simp] theorem sample_tape : (sample s).tape = s.tape.tail := by simp [sample]
@[simp] theorem sample_reads : (sample s).reads = s.reads + 1 := by simp [sample]

end Sample

/-- One more sample of the poll: the state the loop tests. -/
def sampled (s : State) : State := sample { s with pcnt := s.pcnt + 1 }

section Sampled
variable (s : State)

@[simp] theorem sampled_h : (sampled s).h = s.h ++ sampleEvents s.con (s.answer 0) := by
  simp [sampled, State.answer]
@[simp] theorem sampled_dir : (sampled s).dir = dirsAfter s.dir (sampleEvents s.con (s.answer 0)) := by
  simp [sampled, State.answer]
@[simp] theorem sampled_out : (sampled s).out = latchesAfter s.out (sampleEvents s.con (s.answer 0)) := by
  simp [sampled, State.answer]
@[simp] theorem sampled_tmr : (sampled s).tmr = timerAfter s.tmr (sampleEvents s.con (s.answer 0)) := by
  simp [sampled, State.answer]
@[simp] theorem sampled_bfs : (sampled s).bfs = levelBit (s.answer 0) := rfl
@[simp] theorem sampled_con : (sampled s).con = s.con := by simp [sampled]
@[simp] theorem sampled_pcnt : (sampled s).pcnt = s.pcnt + 1 := by simp [sampled]
@[simp] theorem sampled_xb : (sampled s).xb = s.xb := by simp [sampled]
@[simp] theorem sampled_rsel : (sampled s).rsel = s.rsel := by simp [sampled]
@[simp] theorem sampled_seq : (sampled s).seq = s.seq := by simp [sampled]
@[simp] theorem sampled_status : (sampled s).status = s.status := by simp [sampled]
@[simp] theorem sampled_setups : (sampled s).setups = s.setups := by simp [sampled]
@[simp] theorem sampled_todo : (sampled s).todo = s.todo := by simp [sampled]
@[simp] theorem sampled_port : (sampled s).port = s.port := by simp [sampled]
@[simp] theorem sampled_host : (sampled s).host = s.host := by simp [sampled]
@[simp] theorem sampled_tape : (sampled s).tape = s.tape.tail := by simp [sampled]
@[simp] theorem sampled_reads : (sampled s).reads = s.reads + 1 := by simp [sampled]

/-- After one more sample the answers are those that followed it. -/
@[simp] theorem sampled_answer (n : Nat) : (sampled s).answer n = s.answer (n + 1) := by
  rw [← answered_answer]; exact answer_congr (by simp) (by simp) n

end Sampled

/-- A turn whose sample says idle ends the loop with the pin restored. -/
theorem pollTurn_low {s : State} (h : s.answer 0 = .low) : pollTurn s = .idle (pollEnd (sampled s)) := by
  have h' : State.answer { s with pcnt := s.pcnt + 1 } 0 = .low := h
  simp [pollTurn, sampled, h', levelBit]

/-- A turn whose sample says busy at the bound raises DeviceNotResponding with the pin restored. -/
theorem pollTurn_bound {s : State} (h : s.answer 0 = .high)
    (hb : s.con.prm.bfRetryMax = some (s.pcnt + 1)) :
    pollTurn s = .raised (raise .deviceNotResponding (pollEnd (sampled s))) := by
  have h' : State.answer { s with pcnt := s.pcnt + 1 } 0 = .high := h
  simp [pollTurn, sampled, h', hb, levelBit]

/-- A turn whose sample says busy short of the bound is followed by another. -/
theorem pollTurn_high {s : State} (h : s.answer 0 = .high)
    (hb : s.con.prm.bfRetryMax ≠ some (s.pcnt + 1)) : pollTurn s = .busy (sampled s) := by
  have h' : State.answer { s with pcnt := s.pcnt + 1 } 0 = .high := h
  simp [pollTurn, sampled, h', hb, levelBit]

/-- Everything a turn of the loop can do. -/
theorem pollTurn_cases (s : State) :
    (s.answer 0 = .low ∧ pollTurn s = .idle (pollEnd (sampled s))) ∨
    (s.answer 0 = .high ∧ s.con.prm.bfRetryMax = some (s.pcnt + 1) ∧
      pollTurn s = .raised (raise .deviceNotResponding (pollEnd (sampled s)))) ∨
    (s.answer 0 = .high ∧ s.con.prm.bfRetryMax ≠ some (s.pcnt + 1) ∧ pollTurn s = .busy (sampled s)) := by
  cases h : s.answer 0 with
  | low => exact .inl ⟨rfl, pollTurn_low h⟩
  | high =>
    by_cases hb : s.con.prm.bfRetryMax = some (s.pcnt + 1)
    · exact .inr (.inl ⟨rfl, hb, pollTurn_bound h hb⟩)
    · exact .inr (.inr ⟨rfl, hb, pollTurn_high h hb⟩)

/-! ### The sequencer -/

/-- The line is no wait. -/
def Act.plain : Act → Bool
  | .prewait => false
  | .pollLoop => false
  | _ => true

@[simp] theorem run_nil (s : State) : run [] s = { s with todo := [] } := rfl

/-- A line that is no wait is done and the next follows. -/
theorem run_plain {a : Act} (h : a.plain = true) (k : List Act) (s : State) :
    run (a :: k) s = run k (act a s) := by
  cases a <;> first | rfl | simp [Act.plain] at h

/-- Under FixedDelay the wait before a transfer is nothing (42_handshake.md R105). -/
theorem run_prewait_fixed {s : State} (h : busyFlagPoll s.con = false) (k : List Act) :
    run (.prewait :: k) s = run k s := by
  simp [run, h]

/-- Under BusyFlagPoll the wait before a transfer is the poll: its prologue and its loop (42_handshake.md R105, R107). -/
theorem run_prewait_poll {s : State} (h : busyFlagPoll s.con = true) (k : List Act) :
    run (.prewait :: k) s = run (.pollLoop :: k) (pollBegin s) := by
  simp [run, h]

/-- The loop, when the sample says idle. -/
theorem run_pollLoop_low {s : State} (h : s.answer 0 = .low) (k : List Act) :
    run (.pollLoop :: k) s = run k (pollEnd (sampled s)) := by
  simp [run, pollTurn_low h]

/-- The loop, when the sample says busy at the bound. -/
theorem run_pollLoop_bound {s : State} (h : s.answer 0 = .high)
    (hb : s.con.prm.bfRetryMax = some (s.pcnt + 1)) (k : List Act) :
    run (.pollLoop :: k) s = raise .deviceNotResponding (pollEnd (sampled s)) := by
  simp [run, pollTurn_bound h hb]

/-- The loop, when the sample says busy short of the bound: the step ends with the loop still to do. -/
theorem run_pollLoop_high {s : State} (h : s.answer 0 = .high)
    (hb : s.con.prm.bfRetryMax ≠ some (s.pcnt + 1)) (k : List Act) :
    run (.pollLoop :: k) s = { sampled s with todo := .pollLoop :: k } := by
  simp [run, pollTurn_high h hb]

/-- What every line keeps, the sequencer keeps: the induction over the lines, once. -/
theorem run_preserves (P : State → Prop)
    (hact : ∀ a s, P s → P (act a s))
    (hbegin : ∀ s, P s → P (pollBegin s))
    (hidle : ∀ s, P s → s.answer 0 = .low → P (pollEnd (sampled s)))
    (hbusy : ∀ s, P s → s.answer 0 = .high → P (sampled s))
    (hraise : ∀ s, P s → s.answer 0 = .high → s.con.prm.bfRetryMax = some (s.pcnt + 1) →
      P (raise .deviceNotResponding (pollEnd (sampled s))))
    (htodo : ∀ s k, P s → P { s with todo := k })
    (k : List Act) (s : State) (hs : P s) : P (run k s) := by
  have hloop : ∀ k : List Act, (∀ s, P s → P (run k s)) → ∀ s, P s → P (run (.pollLoop :: k) s) := by
    intro k ih s hs
    rcases pollTurn_cases s with ⟨hl, -⟩ | ⟨hh, hb, -⟩ | ⟨hh, hb, -⟩
    · rw [run_pollLoop_low hl]; exact ih _ (hidle s hs hl)
    · rw [run_pollLoop_bound hh hb]; exact hraise s hs hh hb
    · rw [run_pollLoop_high hh hb]; exact htodo _ _ (hbusy s hs hh)
  induction k generalizing s with
  | nil => exact htodo s [] hs
  | cons a k ih =>
    by_cases hp : a.plain = true
    · rw [run_plain hp]; exact ih _ (hact a s hs)
    · cases a with
      | prewait =>
        cases hc : busyFlagPoll s.con with
        | false => rw [run_prewait_fixed hc]; exact ih s hs
        | true => rw [run_prewait_poll hc]; exact hloop k (fun t => ih t) _ (hbegin s hs)
      | pollLoop => exact hloop k (fun t => ih t) s hs
      | countSetup => simp [Act.plain] at hp
      | seq => simp [Act.plain] at hp
      | load => simp [Act.plain] at hp
      | xfer => simp [Act.plain] at hp
      | postwait => simp [Act.plain] at hp
      | select => simp [Act.plain] at hp
      | rawcycle => simp [Act.plain] at hp
      | delay => simp [Act.plain] at hp
      | pinConfig => simp [Act.plain] at hp

/-- No line changes the constants of the instance. -/
@[simp] theorem act_con (a : Act) (s : State) : (act a s).con = s.con := by
  cases a <;> simp [act, setSeq, xfer]

/-- The sequencer changes no constant of the instance (00_scope.md R4). -/
@[simp] theorem run_con (k : List Act) (s : State) : (run k s).con = s.con := by
  refine run_preserves (fun t => t.con = s.con) ?_ ?_ ?_ ?_ ?_ ?_ k s rfl <;>
    intros <;> simp_all [pollBegin, pollEnd, sampled]

/-- What the machine had left to do makes no difference to a line. -/
theorem act_todo (a : Act) (s : State) (x : List Act) :
    act a { s with todo := x } = { act a s with todo := x } := by
  cases a <;> simp [act, setSeq, xfer, emitAll_eq]

/-- What the machine had left to do makes no difference to the lines that run. -/
theorem run_todo (k : List Act) (s : State) (x : List Act) : run k { s with todo := x } = run k s := by
  have hend : ∀ s : State, pollEnd (sampled { s with todo := x }) = { pollEnd (sampled s) with todo := x } := by
    intro s; simp [pollEnd, sampled, sample, emitAll_eq, State.answered, State.answer]
  have hloop : ∀ k : List Act, (∀ s : State, run k { s with todo := x } = run k s) →
      ∀ s : State, run (.pollLoop :: k) { s with todo := x } = run (.pollLoop :: k) s := by
    intro k ih s
    have ha : State.answer { s with todo := x } 0 = s.answer 0 := rfl
    rcases pollTurn_cases s with ⟨hl, -⟩ | ⟨hh, hb, -⟩ | ⟨hh, hb, -⟩
    · rw [run_pollLoop_low hl, run_pollLoop_low (s := { s with todo := x }) (ha.trans hl), hend, ih]
    · rw [run_pollLoop_bound hh hb, run_pollLoop_bound (s := { s with todo := x }) (ha.trans hh) hb, hend]; rfl
    · rw [run_pollLoop_high hh hb, run_pollLoop_high (s := { s with todo := x }) (ha.trans hh) hb]
      simp [sampled, sample, emitAll_eq, State.answered, State.answer]
  induction k generalizing s with
  | nil => rfl
  | cons a k ih =>
    by_cases hp : a.plain = true
    · rw [run_plain hp, run_plain hp, act_todo, ih]
    · cases a <;> first | (simp [Act.plain] at hp; done) | skip
      · cases hc : busyFlagPoll s.con with
        | false => rw [run_prewait_fixed hc, run_prewait_fixed (s := { s with todo := x }) hc, ih]
        | true =>
          rw [run_prewait_poll hc, run_prewait_poll (s := { s with todo := x }) hc, ← hloop k ih (pollBegin s)]
          congr 1; simp [pollBegin, emitAll_eq]
      · exact hloop k ih s

/-- Two runs of events one after the other are one run of both. -/
theorem emitted_append {s t u : State} {a b : List Event} (h : Emitted s t a) (h' : Emitted t u b) :
    Emitted s u (a ++ b) := by
  obtain ⟨h1, h2, h3, h4⟩ := h
  obtain ⟨g1, g2, g3, g4⟩ := h'
  exact ⟨by rw [g1, h1, List.append_assoc], by rw [g2, h2, dirsAfter_append], by rw [g3, h3, latchesAfter_append],
    by rw [g4, h4, timerAfter_append]⟩

/-! ### Acceptance and the step -/

/-- Everything the acceptance of an operation does. -/
theorem accept_eq (k : List Act) (s : State) :
    accept k s = .next (if s.rdy then run k s else s) := by
  unfold accept; split <;> rfl

/-- A step with an operation in progress goes on with it. -/
theorem step_busy {s : State} (h : s.todo ≠ []) : step s = .next (run s.todo s) := by
  unfold step stepBlock
  split
  · rfl
  · exact absurd ‹_› h

/-- A step of an idle, ready block serves the command port. -/
theorem step_ready {s : State} (h : IdleReady s) : step s = idleStep s := by
  obtain ⟨h1, h2, h3⟩ := h
  simp [step, stepBlock, h1, h2, h3]

/-- A step of an idle block that is not ready does nothing (60_exceptions.md R176). -/
theorem step_unready {s : State} (h1 : s.seq = .idle) (h2 : s.rdy = false) (h3 : s.todo = []) : step s = .next s := by
  simp [step, stepBlock, h1, h2, h3]

/-- A run of no step. -/
@[simp] theorem core_run_zero (s : State) : Host.Core.run Sys2Proof.core 0 s = .next s := rfl

/-- A run whose first step answers a next state goes on from it. -/
theorem core_run_succ {s t : State} (h : step s = .next t) (n : Nat) :
    Host.Core.run Sys2Proof.core (n + 1) s = Host.Core.run Sys2Proof.core n t := by
  have h' : Sys2Proof.core.step s = .next t := h
  simp only [Host.Core.run, h']

/-- A run of `n` steps that answers a next state is followed by the rest of a longer run. -/
theorem core_run_add {n : Nat} {s t : State} (h : Host.Core.run Sys2Proof.core n s = .next t) (m : Nat) :
    Host.Core.run Sys2Proof.core (n + m) s = Host.Core.run Sys2Proof.core m t := by
  induction n generalizing s with
  | zero => rw [core_run_zero] at h; cases h; simp
  | succ n ih =>
    rw [Nat.add_right_comm]
    cases hs : step s with
    | next u => rw [core_run_succ hs] at h ⊢; exact ih h
    | fault f =>
      have h' : Sys2Proof.core.step s = .fault f := hs
      simp only [Host.Core.run, h'] at h; cases h
    | refused f =>
      have h' : Sys2Proof.core.step s = .refused f := hs
      simp only [Host.Core.run, h'] at h; cases h

/-- Everything a step of the machine can do when it answers a next state. -/
theorem step_cases {s t : State} (h : step s = .next t) :
    (s.todo ≠ [] ∧ t = run s.todo s) ∨
    (s.todo = [] ∧ s.seq = .idle ∧ t = s) ∨
    (s.todo = [] ∧ s.seq = .idle ∧ s.rdy = true ∧
      ∃ w ws i, s.port = w :: ws ∧ decode w = .ok i ∧ i.fromPort = true ∧ exec i { s with port := ws } = .next t) ∨
    (s.todo = [] ∧ s.seq = .idle ∧ s.rdy = true ∧ s.port = [] ∧
      ∃ r rs, s.host = r :: rs ∧
        ((∃ ws, expand s.con r = .words ws ∧ t = { s with host := rs, port := ws }) ∨
         (expand s.con r = .configurationError ∧ t = raise .configurationError { s with host := rs }))) := by
  unfold step stepBlock at h
  split at h
  · rename_i a k htd
    left
    rw [htd]
    simp only [resume, Host.Outcome.next.injEq] at h
    exact ⟨by simp, by rw [← h, htd]⟩
  · rename_i htd
    split at h
    · cases h
    · rename_i hseq
      have hseq : s.seq = .idle := by simpa using hseq
      split at h
      · rename_i hrdy
        unfold idleStep at h
        split at h
        · rename_i w ws hp
          unfold runWord at h
          split at h
          · rename_i i hd
            split at h
            · rename_i hf
              exact .inr (.inr (.inl ⟨htd, hseq, hrdy, w, ws, i, hp, hd, hf, h⟩))
            · cases h
          · cases h
        · rename_i r rs hp hh
          unfold present at h
          split at h
          · rename_i ws he
            simp only [Host.Outcome.next.injEq] at h
            exact .inr (.inr (.inr ⟨htd, hseq, hrdy, hp, r, rs, hh, .inl ⟨ws, he, h.symm⟩⟩))
          · rename_i he
            simp only [Host.Outcome.next.injEq] at h
            exact .inr (.inr (.inr ⟨htd, hseq, hrdy, hp, r, rs, hh, .inr ⟨he, h.symm⟩⟩))
          · cases h
        · simp only [Host.Outcome.next.injEq] at h
          exact .inr (.inl ⟨htd, hseq, h.symm⟩)
      · simp only [Host.Outcome.next.injEq] at h
        exact .inr (.inl ⟨htd, hseq, h.symm⟩)

/-- The lines of an operation; an operand out of range has none. -/
def linesOf (i : Instr) (c : Consts) : List Act :=
  match i with
  | .clear => transferLines .op .instruction 0x01#8 c.prm.tClear ++ [.seq .idle]
  | .home => transferLines .op .instruction 0x02#8 c.prm.tClear ++ [.seq .idle]
  | .entryMode inc shift => transferLines .op .instruction (entryModeByte inc shift) c.prm.tCmd ++ [.seq .idle]
  | .display on cursor blink =>
    transferLines .op .instruction (displayByte on cursor blink) c.prm.tCmd ++ [.seq .idle]
  | .shift disp right => transferLines .op .instruction (shiftByte disp right) c.prm.tCmd ++ [.seq .idle]
  | .functionSet e l f g =>
    transferLines .op .instruction (functionSetByte e l f g) c.prm.tCmd ++ [.seq .idle]
  | .setCgram a => transferLines .op .instruction (cgramByte a) c.prm.tCmd ++ [.seq .idle]
  | .setDdram a => transferLines .op .instruction (ddramByte a) c.prm.tCmd ++ [.seq .idle]
  | .writeData b => transferLines .op .data b c.prm.tCmd ++ [.seq .idle]
  | .wait => waitLines
  | .setup => setupLines c

/-- Everything an operation does: if its operands fit, its lines run. -/
theorem exec_eq {i : Instr} (h : i.wellFormed = true) (s : State) :
    exec i s = accept (linesOf i s.con) s := by
  cases i <;>
    simp_all [Instr.wellFormed, exec, execClear, execHome, execEntryMode, execDisplay, execShift,
      execFunctionSet, execSetCgram, execSetDdram, execWriteData, execWait, execSetup, transferOp, linesOf]

/-- An operation with an operand out of range is refused (30_encoding.md R64). -/
theorem exec_illFormed {i : Instr} (h : i.wellFormed = false) (s : State) :
    exec i s = .refused .operandOutOfRange := by
  cases i <;> simp_all [Instr.wellFormed, exec, execSetCgram, execSetDdram]

/-- Everything an operation can do when it answers a next state. -/
theorem exec_cases {i : Instr} {s t : State} (h : exec i s = .next t) :
    i.wellFormed = true ∧ t = if s.rdy then run (linesOf i s.con) s else s := by
  cases hw : i.wellFormed with
  | false => rw [exec_illFormed hw] at h; cases h
  | true =>
    rw [exec_eq hw, accept_eq] at h
    exact ⟨rfl, by simpa using h.symm⟩

end Sys2Proof.Machine
end

