-- ==== Sys2Proof/Laws/PerInstr.lean ====
section
/-! SUPPORT. The statements made for every operation, one lemma per constructor: the word of a well-formed operation is a
word of its row of the opcode table (30_encoding.md R62, R65, R66). -/

namespace Sys2Proof.Laws.FitsRow

/-- Mask and match of an operation's row, in ten bits (30_encoding.md R62, R65, R66). -/
def maskAndMatch : Instr → OpWord × OpWord
  | .clear => (0x3FF#10, 0x001#10)
  | .home => (0x3FF#10, 0x002#10)
  | .entryMode _ _ => (0x3FC#10, 0x004#10)
  | .display _ _ _ => (0x3F8#10, 0x008#10)
  | .shift _ _ => (0x3F3#10, 0x010#10)
  | .functionSet _ _ _ _ => (0x3E0#10, 0x020#10)
  | .setCgram _ => (0x3C0#10, 0x040#10)
  | .setDdram _ => (0x380#10, 0x080#10)
  | .writeData _ => (0x300#10, 0x100#10)
  | .wait => (0x3FF#10, 0x200#10)
  | .setup => (0x3FF#10, 0x300#10)

/-- The word of the operation, if it is well formed, is a word of its row. -/
def Statement (i : Instr) : Prop :=
  i.wellFormed = true → encode i &&& (maskAndMatch i).1 = (maskAndMatch i).2

theorem clear : Statement .clear := by unfold Statement; decide

theorem home : Statement .home := by unfold Statement; decide

theorem entryMode (inc shift : Bool) : Statement (.entryMode inc shift) := by
  unfold Statement; revert inc shift; decide

theorem display (on cursor blink : Bool) : Statement (.display on cursor blink) := by
  unfold Statement; revert on cursor blink; decide

theorem shift (disp right : Bool) : Statement (.shift disp right) := by
  unfold Statement; revert disp right; decide

theorem functionSet (eightBit twoLine tall : Bool) (ign : BitVec 2) :
    Statement (.functionSet eightBit twoLine tall ign) := by
  unfold Statement; revert eightBit twoLine tall ign; decide

theorem setCgram (a : Nat) : Statement (.setCgram a) := by
  intro h
  have h' : a < 64 := by simp [Instr.wellFormed] at h; omega
  have all : ∀ k : Fin 64, encode (.setCgram k.val) &&& 0x3C0#10 = 0x040#10 := by decide
  exact all ⟨a, h'⟩

theorem setDdram (a : Nat) : Statement (.setDdram a) := by
  intro h
  have h' : a < 128 := by simp [Instr.wellFormed] at h; omega
  have all : ∀ k : Fin 128, encode (.setDdram k.val) &&& 0x380#10 = 0x080#10 := by decide
  exact all ⟨a, h'⟩

theorem writeData (b : Byte) : Statement (.writeData b) := by
  intro _
  have all : ∀ k : Byte, encode (.writeData k) &&& 0x300#10 = 0x100#10 := by decide
  exact all b

theorem wait : Statement .wait := by unfold Statement; decide

theorem setup : Statement .setup := by unfold Statement; decide

end Sys2Proof.Laws.FitsRow
end

