-- ==== Sys2Proof/Laws/Reads.lean ====
section
/-! SUPPORT. How many answers of the environment each operation's events use, and that a run of the sequencer uses as
many as it reads: the words in which the premises about the device are stated (70_reset_and_hazards.md R202). -/

namespace Sys2Proof.Machine

@[simp] theorem readCount_nil : readCount [] = 0 := rfl

@[simp] theorem readCount_append (a b : List Event) : readCount (a ++ b) = readCount a + readCount b := by
  induction a with
  | nil => simp [readCount]
  | cons e a ih => cases e <;> simp [readCount, ih]; omega

/-! ### The reads of each list of events -/

@[simp] theorem readCount_delay (n : Nat) : readCount (delayEvents n) = 0 := by
  unfold delayEvents; split <;> rfl

@[simp] theorem readCount_select (c : Consts) (reg : DevReg) : readCount (selectEvents c reg) = 0 := by
  cases reg <;> simp [selectEvents, setsig] <;> split <;> rfl

@[simp] theorem readCount_put8 (c : Consts) (b : Byte) : readCount (put8Events c b) = 0 := rfl

@[simp] theorem readCount_put4 (c : Consts) (n : Nibble) : readCount (put4Events c n) = 0 := rfl

@[simp] theorem readCount_pulse (c : Consts) : readCount (pulseEvents c) = 0 := by
  simp [pulseEvents, setsig, readCount]

@[simp] theorem readCount_xfer (c : Consts) (reg : DevReg) (b : Byte) : readCount (xferEvents c reg b) = 0 := by
  simp [xferEvents, byteEvents]; split <;> simp

@[simp] theorem readCount_rawcycle (c : Consts) (v : Byte) : readCount (rawcycleEvents c v) = 0 := by
  simp [rawcycleEvents]; split <;> simp

@[simp] theorem readCount_postwait (c : Consts) (n : Nat) : readCount (postwaitEvents c n) = 0 := by
  unfold postwaitEvents; split <;> simp

@[simp] theorem readCount_pinConfig (c : Consts) : readCount (pinConfigEvents c) = 0 := by
  unfold pinConfigEvents; induction usedSignals c <;> simp_all [readCount, setsig]

@[simp] theorem readCount_pollBegin (c : Consts) : readCount (pollBeginEvents c) = 0 := by
  simp [pollBeginEvents, readCount]

/-- A sample reads once. -/
@[simp] theorem readCount_sample (c : Consts) (l : Level) : readCount (sampleEvents c l) = 1 := by
  simp [sampleEvents, setsig, readCount]; split <;> simp

@[simp] theorem readCount_pollEnd (c : Consts) : readCount (pollEndEvents c) = 0 := rfl

@[simp] theorem readCount_samples (c : Consts) (l : Level) (n : Nat) :
    readCount (List.replicate n (sampleEvents c l)).flatten = n := by
  induction n with
  | zero => rfl
  | succ n ih => simp [List.replicate_succ, ih]; omega

/-- A poll reads once for each busy sample and once for the idle one. -/
@[simp] theorem readCount_poll (c : Consts) (k : Nat) : readCount (pollEvents c k) = k + 1 := by
  simp [pollEvents]

@[simp] theorem readCount_failedPoll (c : Consts) (m : Nat) : readCount (failedPollEvents c m) = m := by
  simp [failedPollEvents]

/-! ### A run uses the answers it reads -/

/-- `t` continues `s`: the same constants, a longer trace, and the answers that follow those read in between. -/
def Continues (s t : State) : Prop :=
  t.con = s.con ∧ ∃ es, t.h = s.h ++ es ∧ ∀ n, t.answer n = s.answer (readCount es + n)

theorem continues_refl (s : State) : Continues s s := ⟨rfl, [], by simp, by simp⟩

theorem continues_trans {s t u : State} (h : Continues s t) (h' : Continues t u) : Continues s u := by
  obtain ⟨c, a, hh, ha⟩ := h
  obtain ⟨c', b, hh', hb⟩ := h'
  exact ⟨c'.trans c, a ++ b, by rw [hh', hh, List.append_assoc], fun n => by rw [hb, ha]; simp [Nat.add_assoc]⟩

/-- What emits events without a read continues the state. -/
theorem continues_of_noRead {s t : State} {es : List Event} (hh : t.h = s.h ++ es) (hes : readCount es = 0)
    (hc : t.con = s.con) (ht : t.tape = s.tape) (hr : t.reads = s.reads) : Continues s t :=
  ⟨hc, es, hh, fun n => by rw [hes, Nat.zero_add]; exact answer_congr ht hr n⟩

theorem continues_act (a : Act) (s : State) : Continues s (act a s) := by
  cases a <;> first
    | exact continues_of_noRead (es := []) (by simp [act, setSeq]) rfl (by simp) rfl rfl
    | exact continues_of_noRead (by simp [act, xfer]; rfl) (by simp) (by simp) (by simp [act, xfer])
        (by simp [act, xfer])

theorem continues_pollBegin (s : State) : Continues s (pollBegin s) :=
  continues_of_noRead (by simp [pollBegin]; rfl) (by simp) (by simp [pollBegin]) (by simp [pollBegin])
    (by simp [pollBegin])

theorem continues_sampled (s : State) : Continues s (sampled s) :=
  ⟨by simp, _, sampled_h s, fun n => by simp [Nat.add_comm]⟩

theorem continues_pollEnd (s : State) : Continues s (pollEnd s) :=
  continues_of_noRead (by simp [pollEnd]; rfl) (by simp) (by simp [pollEnd]) (by simp [pollEnd]) (by simp [pollEnd])

/-- Whatever lines the sequencer runs, it continues the state. -/
theorem continues_run (k : List Act) (s : State) : Continues s (run k s) := by
  refine run_preserves (Continues s) ?_ ?_ ?_ ?_ ?_ ?_ k s (continues_refl s)
  · exact fun a t h => continues_trans h (continues_act a t)
  · exact fun t h => continues_trans h (continues_pollBegin t)
  · exact fun t h _ => continues_trans h (continues_trans (continues_sampled t) (continues_pollEnd _))
  · exact fun t h _ => continues_trans h (continues_sampled t)
  · exact fun t h _ _ => continues_trans h (continues_trans (continues_sampled t) (continues_trans (continues_pollEnd _)
      (continues_of_noRead (es := []) (by simp) rfl rfl rfl rfl)))
  · exact fun t k h => continues_trans h (continues_of_noRead (es := []) (by simp) rfl rfl rfl rfl)

end Sys2Proof.Machine
end

