-- ==== Sys2Proof/Tests/Slice0.lean ====
section
/-! SUPPORT. Tests: expected values are those of 95_test_vectors.md (named V<n>) or written out from the rules; and a
witness for the hypotheses of every statement that has any. -/

namespace Sys2Proof.Tests

open Sys2Proof Sys2Proof.Machine

/-! ### Helpers -/

def mapA : Consts := Config.resetConsts
def mapB : Consts := { pmCtl := 0xA98#12, pmDat := 0x76543210#32, cfg := 0b01111#5, cols := 16#8, prm := {} }
def mapC : Consts := { pmCtl := 0xBDC#12, pmDat := 0x23450000#32, cfg := 0b01110#5, cols := 16#8, prm := {} }
def mapD : Consts := { pmCtl := 0xA98#12, pmDat := 0x76543210#32, cfg := 0b10101#5, cols := 8#8, prm := {} }

/-- An instance with the given bound on a poll's samples. -/
def bounded (c : Consts) (m : Nat) : Consts := { c with prm := { c.prm with bfRetryMax := some m } }

/-- An idle instance whose used pins are outputs, with the answers the environment will give. -/
def ready (c : Consts) (tape : List Level) : State :=
  { State.resetWith c true with
    dir := dirsAfter (Vector.replicate 16 .input) (pinConfigEvents c), tape := tape }

/-- The same with one word at the command port. -/
def readyWord (c : Consts) (w : OpWord) (tape : List Level) : State := { ready c tape with port := [w] }

/-- A block inside the poll of CLEAR, after one busy sample. -/
def inPoll (c : Consts) (tape : List Level) : State :=
  { ready c tape with
    dir := (ready c []).dir.set (resolve c d7) .input
    pcnt := 1, bfs := true, seq := .op .prewait, status := 0b000#3
    todo := [.pollLoop, .seq (.op .xfer), .xfer .instruction 0x01#8, .seq (.op .postwait), .postwait 1600, .seq .idle] }

/-- The next state of an outcome, if it has one. -/
def nextOf : Host.Outcome State Fault Refusal → Option State
  | .next t => some t
  | .fault _ => none
  | .refused _ => none

/-- The refusal of an outcome, if it is one. -/
def refusalOf : Host.Outcome State Fault Refusal → Option Refusal
  | .next _ => none
  | .fault _ => none
  | .refused r => some r

/-- The trace after one operation. -/
def traceOf (i : Instr) (s : State) : Option (List Event) := (nextOf (exec i s)).map State.h

/-- The bus cycles of one operation. -/
def cyclesOf (i : Instr) (s : State) : Option (List BusCycle) :=
  (traceOf i s).map (busCycles s.con s.out)

def hi (p : PinId) : Event := .w p .high
def lo (p : PinId) : Event := .w p .low

/-- An instruction cycle of the vectors, `(L,L,v)`. -/
def cyc (v : Byte) : BusCycle := ⟨.low, .low, some v⟩

/-- A data cycle of the vectors, `(H,L,v)`. -/
def dcyc (v : Byte) : BusCycle := ⟨.high, .low, some v⟩

/-! ### Well-formedness: the smoke test -/

theorem test_setCgram_64_illFormed : (Instr.setCgram 64).wellFormed = false := by decide

theorem test_setDdram_128_illFormed : (Instr.setDdram 128).wellFormed = false := by decide

theorem test_addresses_at_the_top_are_wellFormed :
    (Instr.setCgram 63).wellFormed = true ∧ (Instr.setDdram 127).wellFormed = true := by decide

/-! ### Decoding: words written out from 30_encoding.md R60, R62, R65, R66 -/

theorem test_decode_clear : decode 0b00_0000_0001#10 = .ok .clear := by decide
theorem test_decode_home : decode 0b00_0000_0010#10 = .ok .home := by decide
theorem test_decode_entryMode : decode 0b00_0000_0110#10 = .ok (.entryMode true false) := by decide
theorem test_decode_display : decode 0b00_0000_1101#10 = .ok (.display true false true) := by decide
theorem test_decode_shift : decode 0b00_0001_1000#10 = .ok (.shift true false) := by decide
theorem test_decode_functionSet : decode 0b00_0010_1001#10 = .ok (.functionSet false true false 1#2) := by decide
theorem test_decode_setCgram : decode 0b00_0111_1111#10 = .ok (.setCgram 63) := by decide
theorem test_decode_setDdram : decode 0b00_1100_0000#10 = .ok (.setDdram 0x40) := by decide
theorem test_decode_writeData : decode 0b01_0100_1000#10 = .ok (.writeData 0x48#8) := by decide
theorem test_decode_wait : decode 0b10_0000_0000#10 = .ok .wait := by decide
theorem test_decode_setup : decode 0b11_0000_0000#10 = .ok .setup := by decide

/-- The lines of R68's table, one word each. -/
theorem test_decode_reserved :
    decode 0x000#10 = .error .noOperation ∧ decode 0x003#10 = .error .homeFlag ∧
    decode 0x01F#10 = .error .shiftLowBits ∧ decode 0x2FF#10 = .error .pollSubOpcode ∧
    decode 0x301#10 = .error .sysSubOpcode := by decide

/-- No two rows of the table share a word (R61). -/
theorem test_rows_disjoint :
    opcodeRows.Pairwise (fun a b => a.pattern &&& b.mask &&& a.mask ≠ b.pattern &&& a.mask &&& b.mask) := by
  simp only [opcodeRows]; decide

/-- The host numbers bits in whole bytes; a number above ten bits is no word. -/
theorem test_decodeTableWord :
    decodeTableWord 16 0x148 = some (.writeData 0x48#8) ∧ decodeTableWord 16 0x401 = none := by decide

/-! ### The pin map -/

/-- V3: Map B's and Map A's packed words; the unused signals of Map A are not looked at (V5). -/
theorem test_pack :
    pack mapB ⟨8, 9, 10, #v[0, 1, 2, 3, 4, 5, 6, 7]⟩ = some mapB ∧
    pack mapA ⟨12, 99, 11, #v[16, 16, 16, 16, 5, 4, 3, 2]⟩ = some mapA := by decide

/-- V5, V6: the two construction errors. -/
theorem test_construction_errors :
    (State.construct ⟨8, 9, 16, #v[0, 1, 2, 3, 4, 5, 6, 7]⟩ 0b01111#5 16#8 {}).status = 0b010#3 ∧
    (State.construct ⟨8, 9, 10, #v[0, 1, 2, 3, 4, 5, 6, 7]⟩ 0b01010#5 16#8 {}).status = 0b010#3 := by decide

/-! ### One operation -/

/-- V25: CLEAR on Map A. -/
theorem test_clear_trace :
    traceOf .clear (ready mapA []) = some
      [lo 12, lo 5, lo 4, lo 3, lo 2, hi 11, .d 1, lo 11, .d 1, hi 5, lo 4, lo 3, lo 2, hi 11, .d 1, lo 11, .d 1,
       .d 1600] := by decide

/-- V21: two busy samples at the bound; STATUS is 0b101 and the transfer is not performed. -/
theorem test_clear_raises_at_bound :
    (nextOf (step (inPoll (bounded mapC 2) [.high]))).map (fun t => (t.status, t.dir[2], t.xb, t.seq)) =
      some (0b101#3, .output, 0#8, .idle) := by decide

/-- V24: HOME on Map A. -/
theorem test_home_cycles : cyclesOf .home (ready mapA []) = some [cyc 0x0#8, cyc 0x2#8] := by decide

/-- V19's first step: HOME on Map C, the first sample busy. -/
theorem test_home_busy :
    traceOf .home (ready mapC [.high, .low]) = some
      [lo 12, hi 13, .m 2 .input, hi 11, .d 1, .r 2 .high, lo 11, .d 1, hi 11, .d 1, lo 11, .d 1] := by decide

/-- V24: `ENTRY_MODE ENTRY_INC` on Map A. -/
theorem test_entryMode_cycles :
    cyclesOf (.entryMode true false) (ready mapA []) = some [cyc 0x0#8, cyc 0x6#8] := by decide

/-- V29: `DISPLAY DISPLAY_ON` on Map A. -/
theorem test_display_trace :
    traceOf (.display true false false) (ready mapA []) = some
      [lo 12, lo 5, lo 4, lo 3, lo 2, hi 11, .d 1, lo 11, .d 1, lo 5, lo 4, hi 3, hi 2, hi 11, .d 1, lo 11, .d 1,
       .d 46] := by decide

/-- V24: `SHIFT SHIFT_RIGHT` on Map A. -/
theorem test_shift_cycles :
    cyclesOf (.shift false true) (ready mapA []) = some [cyc 0x1#8, cyc 0x4#8] := by decide

/-- R129 with V33's FUNC byte 0x34: Map D, eight bits, one line, 5×11. -/
theorem test_functionSet_cycles :
    cyclesOf (.functionSet true false true 0#2) (ready mapD []) = some [cyc 0x34#8] := by decide

/-- R68: the command port refuses FUNCTION_SET's words. -/
theorem test_functionSet_refused_at_port :
    refusalOf (step (readyWord mapD 0x034#10 [])) = some (.reservedWord 0x034#10) := by decide

/-- V24: `SET_CGRAM 63` on Map A. -/
theorem test_setCgram_cycles :
    cyclesOf (.setCgram 63) (ready mapA []) = some [cyc 0x7#8, cyc 0xF#8] := by decide

theorem test_setCgram_64_refused : refusalOf (exec (.setCgram 64) (ready mapA [])) = some .operandOutOfRange := by
  decide

/-- V24: `SET_DDRAM 127` on Map A. -/
theorem test_setDdram_cycles :
    cyclesOf (.setDdram 127) (ready mapA []) = some [cyc 0xF#8, cyc 0xF#8] := by decide

theorem test_setDdram_128_refused : refusalOf (exec (.setDdram 128) (ready mapA [])) = some .operandOutOfRange := by
  decide

/-- V28: `WRITE_DATA 0x5A` on Map D. -/
theorem test_writeData_trace :
    traceOf (.writeData 0x5A#8) (ready mapD []) = some
      [hi 8, lo 9, lo 0, hi 1, lo 2, hi 3, hi 4, lo 5, hi 6, lo 7, hi 10, .d 1, lo 10, .d 1, .d 46] := by decide

/-- V24: `WRITE_DATA 0x48` on Map A. -/
theorem test_writeData_cycles :
    cyclesOf (.writeData 0x48#8) (ready mapA []) = some [dcyc 0x4#8, dcyc 0x8#8] := by decide

/-- V16: WAIT on Map B. -/
theorem test_wait_trace :
    traceOf .wait (ready mapB [.low]) = some
      [lo 8, hi 9, .m 7 .input, hi 10, .d 1, .r 7 .low, lo 10, .d 1, .m 7 .output] := by decide

/-- V20: WAIT under FixedDelay changes nothing. -/
theorem test_wait_fixed : nextOf (exec .wait (ready mapA [])) = some (ready mapA []) := by decide

set_option maxRecDepth 8000 in
/-- V33's bus cycles: SETUP on Map D. -/
theorem test_setup_cycles :
    cyclesOf .setup (State.resetWith mapD true) = some
      [cyc 0x30#8, cyc 0x30#8, cyc 0x30#8, cyc 0x34#8, cyc 0x08#8, cyc 0x02#8, cyc 0x01#8, cyc 0x06#8,
       cyc 0x0C#8] := by decide

set_option maxRecDepth 8000 in
/-- V30: SETUP from reset through the port: the number of events, OUT and SETUPS. -/
theorem test_setup_from_reset :
    (nextOf (step (State.reset.withFetchWord 16 0x300))).map
      (fun t => (t.h.length, t.out.toList.map levelBit, t.setups, t.status)) =
      some (158, [false, false, true, true, false, false, false, false, false, false, false, false, false, false,
        false, false], 1, 0b001#3) := by decide

/-! ### Pseudo-operations -/

/-- V34, V36: the corners of MOVE_TO. -/
theorem test_moveTo :
    expand mapA (.moveTo 20 4) = .words [0x0E7#10] ∧ expand mapA (.moveTo 44 4) = .words [0x0FF#10] ∧
    expand mapA (.moveTo 64 4) = .refuse .operandOutOfRange ∧ expand mapA (.moveTo 1 5) = .refuse .operandOutOfRange ∧
    expand mapD (.moveTo 8 16) = .words [0x0FF#10] ∧ expand mapD (.moveTo 1 17) = .refuse .operandOutOfRange := by
  decide

/-- R72's table, and its refusals: the assembler's range check (R126) and the reserved words (R68). -/
theorem test_assembler :
    expand mapA (.asm (.setCgram 63)) = .words [0x07F#10] ∧ expand mapA (.asm .setup) = .words [0x300#10] ∧
    expand mapA (.asm (.setDdram 128)) = .refuse .operandOutOfRange ∧
    expand mapA (.asm (.functionSet true true false 0#2)) = .refuse (.reservedWord 0x038#10) ∧
    expand mapA (.word 0x003#10) = .words [0x003#10] := by decide

/-- V3: the constructed instance holds the packed words. -/
theorem test_construct_holds_packed_words :
    (State.construct ⟨8, 9, 10, #v[0, 1, 2, 3, 4, 5, 6, 7]⟩ 0b01111#5 16#8 {}).con = mapB := by decide

/-- V38, V40: the length is checked before the range. -/
theorem test_defineChar :
    expand mapA (.defineChar 9 (List.replicate 7 0#8)) = .configurationError ∧
    expand mapA (.defineChar 8 (List.replicate 8 0#8)) = .refuse .operandOutOfRange ∧
    expand mapA (.defineChar 7 [0xFF#8, 0#8, 0#8, 0#8, 0#8, 0#8, 0#8, 1#8]) = .words
      [0x078#10, 0x1FF#10, 0x079#10, 0x100#10, 0x07A#10, 0x100#10, 0x07B#10, 0x100#10, 0x07C#10, 0x100#10, 0x07D#10,
       0x100#10, 0x07E#10, 0x100#10, 0x07F#10, 0x101#10] := by decide

/-- V43: the first terminator ends the string; without one there is no meaning. -/
theorem test_printStr :
    expand mapA (.printStr [0x41#8, 0x00#8, 0x42#8]) = .words [0x141#10] ∧
    expand mapA (.printStr [0x41#8]) = .refuse .unterminatedString := by decide

/-- V41: the largest value in base 36, and two bases that are refused. -/
theorem test_printUint :
    expand mapA (.printUint 4294967295#32 36) = .words
      [0x131#10, 0x15A#10, 0x131#10, 0x134#10, 0x131#10, 0x15A#10, 0x133#10] ∧
    expand mapA (.printUint 1#32 1) = .refuse .operandOutOfRange ∧
    expand mapA (.printUint 1#32 37) = .refuse .operandOutOfRange := by decide

/-- V42: the least value. -/
theorem test_printInt :
    expand mapA (.printInt 0x80000000#32 16) = .words
      [0x12D#10, 0x138#10, 0x130#10, 0x130#10, 0x130#10, 0x130#10, 0x130#10, 0x130#10, 0x130#10] := by decide

/-- V49: the launch premises P3 and P4. -/
theorem test_launch_refusals :
    (launch ⟨12, 0, 11, #v[0, 0, 0, 0, 5, 4, 3, 2]⟩ 0b01000#5 20#8 {} [.word 0x001#10]).toOption = none ∧
    (launch ⟨12, 0, 11, #v[0, 0, 0, 0, 5, 4, 3, 2]⟩ 0b01000#5 20#8 {} [.word 0x300#10, .word 0x300#10]).toOption =
      none ∧
    (launch ⟨12, 0, 11, #v[0, 0, 0, 0, 5, 4, 3, 2]⟩ 0b01000#5 20#8 {} [.word 0x300#10, .word 0x001#10]).toOption =
      some { State.reset with host := [.word 0x300#10, .word 0x001#10] } := by decide

/-! ### Witnesses for the hypotheses of the statements -/

theorem witness_DecodeOfEncode : (Instr.setDdram 127).wellFormed = true := by decide

theorem witness_EncodeOfDecode : decode 0x0FF#10 = .ok (.setDdram 127) := by decide

/-- One reserved word of each line of R68's table, at a boundary, and one word beside them that is not. -/
theorem witness_ReservedWordsRefused :
    IdleReady (readyWord mapA 0x000#10 []) ∧ (readyWord mapA 0x000#10 []).port = [0x000#10] ∧
    ReservedNumber 0x000 ∧ ReservedNumber 0x003 ∧ ReservedNumber 0x01F ∧ ReservedNumber 0x020 ∧ ReservedNumber 0x03F ∧
    ReservedNumber 0x201 ∧ ReservedNumber 0x3FF ∧ ¬ ReservedNumber 0x01C ∧ ¬ ReservedNumber 0x040 ∧
    ¬ ReservedNumber 0x300 :=
  ⟨⟨rfl, rfl, rfl⟩, rfl, by decide, by decide, by decide, by decide, by decide, by decide, by decide, by decide,
    by decide, by decide⟩

theorem witness_StepRunsDecodedInstruction :
    IdleReady (readyWord mapA 0x0FF#10 []) ∧ (readyWord mapA 0x0FF#10 []).port = [0x0FF#10] ∧
    decode 0x0FF#10 = .ok (.setDdram 127) ∧ (Instr.setDdram 127).fromPort = true :=
  ⟨⟨rfl, rfl, rfl⟩, rfl, by decide, rfl⟩

/-- One request of each kind of outcome. -/
theorem witness_StepPresentsRequest :
    IdleReady (ready mapA []) ∧ (ready mapA []).port = [] ∧ (ready mapA []).host = [] ∧
    (IdleReady { ready mapA [] with host := [.printChar 0x41#8] }) ∧
    expand mapA (.printChar 0x41#8) = .words [0x141#10] ∧
    expand mapA (.moveTo 0 1) = .refuse .operandOutOfRange ∧
    expand mapA (.defineChar 0 []) = .configurationError ∧
    (Instr.setCgram 64).wellFormed = false ∧ (Instr.functionSet true true false 0#2).wellFormed = true ∧
    (Instr.functionSet true true false 0#2).fromPort = false ∧ (Instr.setCgram 63).wellFormed = true ∧
    (Instr.setCgram 63).fromPort = true :=
  ⟨⟨rfl, rfl, rfl⟩, rfl, rfl, ⟨rfl, rfl, rfl⟩, by decide⟩

theorem witness_FailedConstructionIsDead :
    pinsFit ⟨0#12, 0#32, 0b01111#5, 16#8, {}⟩ ⟨8, 9, 16, #v[0, 1, 2, 3, 4, 5, 6, 7]⟩ = false ∧
    handshakeLegal ⟨0#12, 0#32, 0b01010#5, 16#8, {}⟩ = false := by decide

theorem witness_PackThenResolve :
    pinsFit mapB ⟨15, 0, 7, #v[14, 13, 12, 11, 10, 9, 8, 1]⟩ = true ∧
    pinsFit mapB ⟨16, 0, 7, #v[14, 13, 12, 11, 10, 9, 8, 1]⟩ = false ∧ Signal.rw ∈ usedSignals mapB := by decide

theorem witness_LaunchMeetsPremises :
    ∃ s, launch ⟨12, 0, 11, #v[0, 0, 0, 0, 5, 4, 3, 2]⟩ 0b01000#5 20#8 {} [.word 0x300#10] = .ok s := ⟨_, rfl⟩

theorem witness_SelectSetsLevels :
    PinsDistinct mapA ∧ rwWired mapA = false ∧ DevReg.data ≠ .busyFlagRead ∧ (0 : PinId) ≠ resolve mapA .rs ∧
    PinsDistinct mapB ∧ rwWired mapB = true ∧ (0 : PinId) ≠ resolve mapB .rs ∧ (0 : PinId) ≠ resolve mapB .rw := by
  decide

theorem witness_DataPlacement :
    PinsDistinct mapA ∧ eightBit mapA = false ∧ PinsDistinct mapB ∧ eightBit mapB = true ∧
    (∀ i : Fin 8, 4 ≤ i.val → resolve mapA (.d i) ≠ 12) ∧ (∀ i : Fin 8, resolve mapB (.d i) ≠ 8) := by decide

theorem witness_PulseIsOneBusCycle :
    1 ≤ mapA.prm.tEnHi ∧ PinsDistinct mapA ∧ (ready mapA []).out[resolve mapA .en] = .low := by decide

theorem witness_TransferBusCycles :
    PinsDistinct mapA ∧ eightBit mapA = false ∧ (ready mapA []).out[resolve mapA .en] = .low ∧
    PinsDistinct mapD ∧ eightBit mapD = true ∧ (ready mapD []).out[resolve mapD .en] = .low := by decide

theorem witness_RawCycleIsOneBusCycle :
    PinsDistinct mapB ∧ (ready mapB []).out[resolve mapB .en] = .low ∧ rwLevel mapB (ready mapB []).out = .low ∧
    PinsDistinct mapA ∧ (ready mapA []).out[resolve mapA .en] = .low ∧ rwLevel mapA (ready mapA []).out = .low := by
  decide

theorem witness_EventCounts :
    1 ≤ mapA.prm.tEnHi ∧ eightBit mapA = false ∧ eightBit mapB = true ∧ DevReg.data ≠ .busyFlagRead := by decide

theorem witness_PinConfigMakesOutputs : ¬ PinUnused mapA 12 ∧ PinUnused mapA 13 := by decide

/-- A state for each clause of TransferEffect, the hypotheses of ClearEffect, HomeEffect, EntryModeEffect, DisplayEffect,
ShiftEffect, FunctionSetEffect, SetCgramEffect, SetDdramEffect and WriteDataEffect (and of WaitEffect): under BusyFlagPoll one whose first sample is idle, one
with two busy samples and the least bound that lets the poll end, and one for the least bound and the next. -/
theorem witness_TransferEffect :
    ((ready mapA []).rdy = true ∧ busyFlagPoll mapA = false) ∧
    ((ready mapB [.low]).rdy = true ∧ busyFlagPoll mapB = true ∧ BusyFor 0 (ready mapB [.low]) ∧
      (ready mapB [.low]).answer 0 = .low) ∧
    ((ready (bounded mapC 3) [.high, .high, .low]).rdy = true ∧ busyFlagPoll (bounded mapC 3) = true ∧
      BusyFor 2 (ready (bounded mapC 3) [.high, .high, .low]) ∧
      (ready (bounded mapC 3) [.high, .high, .low]).answer 2 = .low ∧ (bounded mapC 3).prm.bfRetryMax = some 3) ∧
    ((bounded mapC 1).prm.bfRetryMax = some 1 ∧ BusyFor 1 (ready (bounded mapC 1) [.high]) ∧
      (bounded mapC 2).prm.bfRetryMax = some 2 ∧ BusyFor 2 (ready (bounded mapC 2) [.high, .high])) :=
  ⟨⟨rfl, rfl⟩, ⟨rfl, rfl, by decide, rfl⟩, ⟨rfl, rfl, by decide, rfl, rfl⟩, ⟨rfl, by decide, rfl, by decide⟩⟩

theorem witness_WaitEffect :
    IdleReady (ready mapA []) ∧ IdleReady (ready mapB [.low]) ∧
    IdleReady (ready (bounded mapC 3) [.high, .high, .low]) ∧ IdleReady (ready (bounded mapC 1) [.high]) :=
  ⟨⟨rfl, rfl, rfl⟩, ⟨rfl, rfl, rfl⟩, ⟨rfl, rfl, rfl⟩, ⟨rfl, rfl, rfl⟩⟩

theorem witness_ShiftEffect : (15 : Fin 16).val % 4 ≠ 0 := by decide

theorem witness_SetCgramEffect : (63 : Nat) ≤ 63 ∧ (64 : Nat) > 63 := by decide

theorem witness_SetDdramEffect : (127 : Nat) ≤ 127 ∧ (128 : Nat) > 127 := by decide

theorem witness_SetupEffectFixedDelay : State.reset.rdy = true ∧ busyFlagPoll State.reset.con = false := by decide

/-- Six polls of no, one or two busy samples, the least bound that lets them all end, and none. -/
theorem witness_SetupEffectBusyFlagPoll :
    (ready (bounded mapC 3) (pollLevels [0, 2, 0, 0, 1, 2])).rdy = true ∧ busyFlagPoll (bounded mapC 3) = true ∧
    [0, 2, 0, 0, 1, 2].length = 6 ∧
    Answers (pollLevels [0, 2, 0, 0, 1, 2]) (ready (bounded mapC 3) (pollLevels [0, 2, 0, 0, 1, 2])) ∧
    (bounded mapC 3).prm.bfRetryMax = some 3 ∧ (∀ k ∈ [0, 2, 0, 0, 1, 2], k < 3) ∧ mapC.prm.bfRetryMax = none ∧
    Answers (pollLevels [0, 0, 0, 0, 0, 0]) (ready mapC (pollLevels [0, 0, 0, 0, 0, 0])) :=
  ⟨rfl, rfl, rfl, by decide, rfl, by decide, rfl, by decide⟩

/-- One instance of each handshake. -/
theorem witness_SetupBusCycles :
    State.reset.rdy = true ∧ busyFlagPoll State.reset.con = false ∧ PinsDistinct State.reset.con ∧
    State.reset.out[resolve State.reset.con .en] = .low ∧
    (ready mapC (pollLevels [0, 2, 0, 0, 1, 2])).rdy = true ∧ busyFlagPoll mapC = true ∧ rwWired mapC = true ∧
    PinsDistinct mapC ∧ (ready mapC []).out[resolve mapC .en] = .low ∧ mapC.prm.bfRetryMax = none ∧
    Answers (pollLevels [0, 2, 0, 0, 1, 2]) (ready mapC (pollLevels [0, 2, 0, 0, 1, 2])) :=
  ⟨rfl, rfl, by decide, by decide, rfl, rfl, rfl, by decide, by decide, rfl, by decide⟩

theorem witness_RepetitionIsIdempotent :
    (ready mapA []).rdy = true ∧ busyFlagPoll mapA = false ∧ ∃ t, exec (.display true false false) (ready mapA []) = .next t :=
  ⟨rfl, rfl, _, rfl⟩

/-- One operation under each handshake, WAIT and SETUP among them, and a pin that carries no used signal. -/
theorem witness_ExecFrame :
    (∃ t, exec .wait (ready mapB [.low]) = .next t) ∧ (∃ t, exec .setup (ready mapA []) = .next t) ∧
    (∃ t, exec (.writeData 1#8) (ready (bounded mapC 1) [.high]) = .next t) ∧ busyFlagPoll mapA = false ∧
    PinUnused mapA 13 :=
  ⟨⟨_, rfl⟩, ⟨_, rfl⟩, ⟨_, rfl⟩, rfl, by decide⟩

/-- Two busy samples and an idle one, with the least bound that lets the poll end, and with none. -/
theorem witness_PollSamplesUntilIdle :
    IdleReady (readyWord (bounded mapC 3) 0x001#10 [.high, .high, .low]) ∧ decode 0x001#10 = .ok .clear ∧
    Instr.clear.fromPort = true ∧ Instr.clear ≠ .setup ∧ busyFlagPoll (bounded mapC 3) = true ∧
    BusyFor 2 (readyWord (bounded mapC 3) 0x001#10 [.high, .high, .low]) ∧
    (readyWord (bounded mapC 3) 0x001#10 [.high, .high, .low]).answer 2 = .low ∧
    (∀ m, (bounded mapC 3).prm.bfRetryMax = some m → 2 < m) ∧ (∀ m, mapC.prm.bfRetryMax = some m → 2 < m) :=
  ⟨⟨rfl, rfl, rfl⟩, by decide, rfl, by decide, rfl, by decide, rfl, by simp [bounded], by simp [mapC]⟩

/-- The least bound and the one above it; and the SETUP of V33a, whose second poll reaches its bound, and one whose first
poll does. -/
theorem witness_PollBoundRaises :
    IdleReady (readyWord (bounded mapC 1) 0x200#10 [.high]) ∧ decode 0x200#10 = .ok .wait ∧
    Instr.wait.fromPort = true ∧ Instr.wait ≠ .setup ∧ busyFlagPoll (bounded mapC 1) = true ∧
    (bounded mapC 1).prm.bfRetryMax = some 1 ∧ BusyFor 1 (readyWord (bounded mapC 1) 0x200#10 [.high]) ∧
    IdleReady (readyWord (bounded mapC 2) 0x200#10 [.high, .high]) ∧
    (bounded mapC 2).prm.bfRetryMax = some 2 ∧ BusyFor 2 (readyWord (bounded mapC 2) 0x200#10 [.high, .high]) ∧
    (∃ k, (inPoll (bounded mapC 2) [.high]).todo = .pollLoop :: k) ∧
    (bounded mapC 2).prm.bfRetryMax = some ((inPoll (bounded mapC 2) [.high]).pcnt + 1) ∧
    BusyFor 1 (inPoll (bounded mapC 2) [.high]) ∧
    (ready (bounded mapC 3) [.low, .high, .high, .high]).rdy = true ∧ (bounded mapC 3).prm.bfRetryMax = some 3 ∧
    Answers (pollLevels [0] ++ List.replicate 3 .high) (ready (bounded mapC 3) [.low, .high, .high, .high]) ∧
    Answers (pollLevels [] ++ List.replicate 1 .high) (ready (bounded mapC 1) [.high]) :=
  ⟨⟨rfl, rfl, rfl⟩, by decide, rfl, by decide, rfl, rfl, by decide, ⟨rfl, rfl, rfl⟩, rfl, by decide, ⟨_, rfl⟩, rfl,
    by decide, rfl, rfl, by decide, by decide⟩

theorem witness_BusyDeviceKeepsPolling :
    (∃ k, (inPoll mapC [.high, .high]).todo = .pollLoop :: k) ∧ mapC.prm.bfRetryMax = none ∧
    BusyFor 2 (inPoll mapC [.high, .high]) :=
  ⟨⟨_, rfl⟩, rfl, by decide⟩

theorem witness_BoundedPollsEnd :
    (bounded mapC 2).prm.bfRetryMax = some 2 ∧ (inPoll (bounded mapC 2) []).todo ≠ [] ∧
    (inPoll (bounded mapC 2) []).pcnt < 2 ∧ Act.pollLoop ∉ (inPoll (bounded mapC 2) []).todo.tail ∧
    SequencerConsistent (inPoll (bounded mapC 2) []) :=
  ⟨rfl, by decide, by decide, by decide, .inr ⟨by decide, rfl,
    [.seq (.op .xfer), .xfer .instruction 0x01#8, .seq (.op .postwait), .postwait 1600], rfl, by decide⟩⟩

/-- A step in a poll, and a step under FixedDelay outside one. -/
theorem witness_ReadsOnlyBusyFlag :
    (∃ t, step (inPoll mapC [.low]) = .next t) ∧
    (∃ t, step (readyWord mapA 0x001#10 []) = .next t) ∧ busyFlagPoll mapA = false ∧
    Act.pollLoop ∉ (readyWord mapA 0x001#10 []).todo :=
  ⟨⟨_, rfl⟩, ⟨_, rfl⟩, rfl, by decide⟩

theorem witness_ErrorBitsSticky :
    (∃ t, step { readyWord mapA 0x001#10 [] with status := 0b111#3 } = .next t) ∧
    State.cfgErr { readyWord mapA 0x001#10 [] with status := 0b111#3 } = true ∧
    State.noResp { readyWord mapA 0x001#10 [] with status := 0b111#3 } = true :=
  ⟨⟨_, rfl⟩, rfl, rfl⟩

theorem witness_ConfigErrorOnlyFromGlyphLength :
    ∃ t, step { ready mapA [] with host := [.defineChar 0 []] } = .next t ∧ (ready mapA []).cfgErr = false ∧
      t.cfgErr = true := ⟨_, rfl, rfl, rfl⟩

theorem witness_NoRespOnlyAtBound :
    ∃ t, step (inPoll (bounded mapC 2) [.high]) = .next t ∧ (inPoll (bounded mapC 2) [.high]).noResp = false ∧
      t.noResp = true := ⟨_, rfl, rfl, by decide⟩

/-- The clauses of MOVE_TO, each at a boundary: column 0, row 5, every row of two lines, and one line. -/
theorem witness_MoveToExpansion :
    twoLines mapA = true ∧ (5 : Nat) > 4 ∧ 0x40 + mapA.cols.toNat + (44 - 1) = 127 ∧
    0x40 + mapA.cols.toNat + (45 - 1) > 127 ∧ mapA.cols.toNat + (108 - 1) = 127 ∧ 0x40 + (64 - 1) = 127 ∧
    twoLines mapD = false ∧ (16 - 1) * mapD.cols.toNat + (8 - 1) = 127 := by decide

/-- Both values of `ROWS`, and each clause at the boundary of its range. -/
theorem witness_DefineCharExpansion :
    8 = (if mapA.cfg.toNat / 16 % 2 = 1 then 11 else 8) ∧ 11 = (if mapD.cfg.toNat / 16 % 2 = 1 then 11 else 8) ∧
    (List.replicate 7 (0#8)).length ≠ 8 ∧ (List.replicate 8 (0#8)).length = 8 ∧ 8 * 8 + (8 - 1) > 63 ∧
    7 * 8 + (8 - 1) ≤ 63 ∧ 5 * 11 + (11 - 1) > 63 ∧ 4 * 11 + (11 - 1) ≤ 63 ∧
    IdleReady { ready mapA [] with host := [.defineChar 0 []] } :=
  ⟨by decide, by decide, by decide, by decide, by decide, by decide, by decide, by decide, rfl, rfl, rfl⟩

theorem witness_PrintStrExpansion : ∀ b ∈ [0x48#8, 0x69#8], b ≠ 0x00#8 := by decide

theorem witness_PrintUintExpansion :
    (1 : Nat) < 2 ∧ (37 : Nat) > 36 ∧ (2 : Nat) ≤ 2 ∧ (36 : Nat) ≤ 36 ∧ (0xFFFFFFFF#32) ≠ 0#32 := by decide

theorem witness_PrintIntExpansion :
    (0x7FFFFFFF#32).toNat < 2 ^ 31 ∧ (0x80000000#32).toNat ≥ 2 ^ 31 ∧ (0xFFFFFFFF#32).toNat ≥ 2 ^ 31 := by decide

theorem witness_StepKeepsLatchesReplay :
    LatchesReplay (State.reset.withFetchWord 16 0x001) ∧
    ∃ t, step (State.reset.withFetchWord 16 0x001) = .next t :=
  ⟨by decide, _, rfl⟩

/-- Both ways a sequencer is consistent. -/
theorem witness_StepKeepsSequencerConsistent :
    SequencerConsistent (readyWord mapA 0x001#10 []) ∧ (∃ t, step (readyWord mapA 0x001#10 []) = .next t) ∧
    SequencerConsistent (inPoll mapC [.high]) ∧ ∃ t, step (inPoll mapC [.high]) = .next t :=
  ⟨.inl ⟨rfl, rfl, rfl⟩, ⟨_, rfl⟩,
    .inr ⟨by decide, rfl, [.seq (.op .xfer), .xfer .instruction 0x01#8, .seq (.op .postwait), .postwait 1600], rfl,
      by decide⟩, _, rfl⟩

theorem witness_NeverStuck :
    SequencerConsistent (inPoll mapC []) ∧ (inPoll mapC []).todo ≠ [] ∧ SequencerConsistent (ready mapA []) ∧
    (ready mapA []).port = [] ∧ (ready mapA []).host = [] :=
  ⟨.inr ⟨by decide, rfl, [.seq (.op .xfer), .xfer .instruction 0x01#8, .seq (.op .postwait), .postwait 1600], rfl,
      by decide⟩,
    by decide, .inl ⟨rfl, rfl, rfl⟩, rfl, rfl⟩

/-- Both ways the pins are ready: between operations, and during a poll. -/
theorem witness_StepKeepsReadyPins :
    ReadyPins (readyWord mapA 0x001#10 []) ∧ (∃ t, step (readyWord mapA 0x001#10 []) = .next t) ∧
    ReadyPins (inPoll mapC [.high]) ∧ ∃ t, step (inPoll mapC [.high]) = .next t :=
  ⟨⟨by decide, by decide, .inl ⟨rfl, by decide⟩⟩, ⟨_, rfl⟩,
    ⟨by decide, by decide, .inr ⟨⟨_, rfl, by decide⟩, by decide, by decide⟩⟩, _, rfl⟩

theorem witness_SetupMakesPinsReady : State.reset.rdy = true ∧ PinsDistinct State.reset.con := by decide

/-- WAIT and WRITE_DATA after two busy samples, and a SETUP with some busy samples in its polls. -/
theorem witness_ReadWriteLevelAfterOperation :
    (ready (bounded mapB 3) [.high, .high, .low]).rdy = true ∧ busyFlagPoll (bounded mapB 3) = true ∧
    rwWired (bounded mapB 3) = true ∧ PinsDistinct (bounded mapB 3) ∧
    BusyFor 2 (ready (bounded mapB 3) [.high, .high, .low]) ∧
    (ready (bounded mapB 3) [.high, .high, .low]).answer 2 = .low ∧ (bounded mapB 3).prm.bfRetryMax = some 3 ∧
    Instr.wait.wellFormed = true ∧ (Instr.writeData 0xFF#8).wellFormed = true ∧
    Answers (pollLevels [0, 2, 0, 0, 1, 2]) (ready (bounded mapB 3) (pollLevels [0, 2, 0, 0, 1, 2])) :=
  ⟨rfl, rfl, rfl, by decide, by decide, rfl, rfl, rfl, rfl, by decide⟩

theorem witness_StepKeepsUnusedPins :
    UnusedPinsUntouched (State.reset.withFetchWord 16 0x001) ∧
    ∃ t, step (State.reset.withFetchWord 16 0x001) = .next t :=
  ⟨by decide, _, rfl⟩

theorem witness_ConstantsFixedTraceGrows : ∃ t, step (inPoll mapC [.high]) = .next t := ⟨_, rfl⟩

theorem witness_NoZeroDelay :
    (∃ t, step { readyWord mapA 0x001#10 [] with con := { mapA with prm := { mapA.prm with tEnLo := 0 } } } = .next t) ∧
    Event.d 0 ∉ (readyWord mapA 0x001#10 []).h :=
  ⟨⟨_, rfl⟩, by decide⟩

/-- Every instance of the vectors, and one with a bound, passes the check; a constructed one is ready. -/
theorem witness_ResetMeetsInvariants :
    handshakeLegal mapA = true ∧ handshakeLegal mapB = true ∧ handshakeLegal (bounded mapC 1) = true ∧
    handshakeLegal mapD = true ∧
    (State.construct ⟨8, 9, 10, #v[0, 1, 2, 3, 4, 5, 6, 7]⟩ 0b01111#5 16#8 {}).rdy = true := by decide

theorem witness_PollParts :
    rwWired mapB = true ∧ 1 ≤ mapB.prm.tEnHi ∧ PinsDistinct mapB ∧ eightBit mapB = true ∧
    (ready mapB []).out[resolve mapB .en] = .low ∧ rwWired mapC = true ∧ PinsDistinct mapC ∧ eightBit mapC = false ∧
    (ready mapC []).out[resolve mapC .en] = .low := by decide

/-- The next state of a step, or the state itself. -/
def stepped (s : State) : State := (nextOf (step s)).getD s

/-- A run from an empty trace that stays where its first step leads meets DeviceReadyWithin(1), if the first sample of
every poll of that step reads `L`. -/
theorem readyWithin_one {s t : State} (h0 : s.h = []) (h1 : step s = .next t) (h2 : step t = .next t)
    (hd : resolve t.con d7 = resolve s.con d7)
    (ht : ∀ n, n < t.h.length → t.h[n]? = some (.m (resolve t.con d7) .input) →
      s.answer (readCount (t.h.take n)) = .low) : DeviceReadyWithin 1 s := by
  have hrun : ∀ n, Host.Core.run Sys2Proof.core n t = .next t := by
    intro n
    induction n with
    | zero => rfl
    | succ n ih => simpa [Host.Core.run, Sys2Proof.core, h2] using ih
  rintro n ⟨k, u, before, after, hr, hu, rfl⟩
  refine ⟨0, by decide, ?_⟩
  cases k with
  | zero => cases hr; simp [h0] at hu
  | succ k =>
    have hr' : Host.Core.run Sys2Proof.core k t = .next u := by
      simpa [Host.Core.run, Sys2Proof.core, h1] using hr
    rw [hrun] at hr'
    cases hr'
    have := ht before.length (by simp [hu, h0]) (by simp [hu, h0, hd])
    simpa [hu, h0] using this

theorem readyWithin_eventually {m : Nat} {s : State} (h : DeviceReadyWithin m s) : DeviceEventuallyReady s :=
  fun n hn => (h n hn).imp fun _ hj => hj.2

/-- WAIT without a bound, and WRITE_DATA with the bound 1. -/
theorem witness_ReadyDeviceCompletes :
    (IdleReady (readyWord mapB 0x200#10 [.low]) ∧ decode 0x200#10 = .ok .wait ∧ Instr.wait.fromPort = true ∧
      busyFlagPoll mapB = true ∧ mapB.prm.bfRetryMax = none ∧
      DeviceEventuallyReady (readyWord mapB 0x200#10 [.low])) ∧
    (IdleReady (readyWord (bounded mapB 1) 0x141#10 [.low]) ∧ decode 0x141#10 = .ok (.writeData 0x41#8) ∧
      (Instr.writeData 0x41#8).fromPort = true ∧ busyFlagPoll (bounded mapB 1) = true ∧
      (bounded mapB 1).prm.bfRetryMax = some 1 ∧ DeviceReadyWithin 1 (readyWord (bounded mapB 1) 0x141#10 [.low])) ∧
    ∃ t, step (readyWord (bounded mapB 1) 0x141#10 [.low]) = .next t :=
  ⟨⟨⟨rfl, rfl, rfl⟩, by decide, rfl, rfl, rfl, readyWithin_eventually
      (readyWithin_one (t := stepped (readyWord mapB 0x200#10 [.low])) rfl rfl rfl rfl (by decide))⟩,
    ⟨⟨rfl, rfl, rfl⟩, by decide, rfl, rfl, rfl,
      readyWithin_one (t := stepped (readyWord (bounded mapB 1) 0x141#10 [.low])) rfl rfl rfl rfl (by decide)⟩,
    _, rfl⟩

end Sys2Proof.Tests
end

section
/-! PROOF. What reset leaves in the state (10_state.md R31). The frozen definition is opened here, one lemma per
register whose value the spec fixes; later proofs about a freshly reset block cite these lemmas. -/

namespace Sys2Proof.Machine

section StatusAtReset
variable (ok : Bool)

@[simp] theorem statusRdy_atReset : statusRdy (statusAtReset ok) = ok := by
  cases ok <;> rfl

@[simp] theorem statusCfgErr_atReset : statusCfgErr (statusAtReset ok) = !ok := by
  cases ok <;> rfl

@[simp] theorem statusNoResp_atReset : statusNoResp (statusAtReset ok) = false := by
  cases ok <;> rfl

end StatusAtReset

section ResetWith
variable (c : Consts) (fit : Bool)

@[simp] theorem resetWith_dir : (State.resetWith c fit).dir = Vector.replicate 16 .input := rfl
@[simp] theorem resetWith_out : (State.resetWith c fit).out = Vector.replicate 16 .low := rfl
@[simp] theorem resetWith_seq : (State.resetWith c fit).seq = .idle := rfl
@[simp] theorem resetWith_tmr : (State.resetWith c fit).tmr = 0 := rfl
@[simp] theorem resetWith_con : (State.resetWith c fit).con = c := rfl
@[simp] theorem resetWith_h : (State.resetWith c fit).h = [] := rfl
@[simp] theorem resetWith_setups : (State.resetWith c fit).setups = 0 := rfl

@[simp] theorem resetWith_noResp : (State.resetWith c fit).noResp = false :=
  statusNoResp_atReset _

/-- CFGERR is set by either half of the construction check: a pin that does not fit, or an illegal handshake. -/
@[simp] theorem resetWith_cfgErr : (State.resetWith c fit).cfgErr = !(fit && handshakeLegal c) :=
  statusCfgErr_atReset _

@[simp] theorem resetWith_rdy : (State.resetWith c fit).rdy = (fit && handshakeLegal c) :=
  statusRdy_atReset _

end ResetWith

/-- Settles O7: each register R31 speaks of has its reset value. -/
theorem resetValues : Obligations.ResetValues := by
  intro c fit
  have hpins (p : PinId) : (State.resetWith c fit).dir[p] = .input ∧ (State.resetWith c fit).out[p] = .low := by
    simp
  exact ⟨hpins, resetWith_seq c fit, resetWith_tmr c fit,
    resetWith_noResp c fit, resetWith_cfgErr c fit, resetWith_rdy c fit,
    resetWith_con c fit, resetWith_h c fit, resetWith_setups c fit⟩

end Sys2Proof.Machine
end

section
/-! PROOF. The words of each row of the opcode table, by number, and with them which words the command port takes
(30_encoding.md R62, R65, R66, R68). -/

namespace Sys2Proof.Machine

open Sys2Proof.Laws.FitsRow (maskAndMatch)

/-- A mask of all but the low `k` bits selects the `2 ^ k` words from its match on. -/
theorem and_highMask_eq_iff (k : Nat) {m p : OpWord} (hm : m = BitVec.allOnes 10 <<< k) (hp : p.toNat % 2 ^ k = 0)
    (w : OpWord) : w &&& m = p ↔ p.toNat ≤ w.toNat ∧ w.toNat < p.toNat + 2 ^ k := by
  obtain ⟨q, hq⟩ := Nat.dvd_of_mod_eq_zero hp
  have hlow : w.toNat / 2 ^ k * 2 ^ k < 2 ^ 10 := (Nat.div_mul_le_self _ _).trans_lt w.isLt
  have hpow : 0 < 2 ^ k := Nat.two_pow_pos k
  calc w &&& m = p
      ↔ w.toNat / 2 ^ k * 2 ^ k = q * 2 ^ k := by
        rw [hm, ← BitVec.shiftLeft_ushiftRight, ← BitVec.toNat_inj, hq, BitVec.toNat_shiftLeft, BitVec.toNat_ushiftRight,
          Nat.shiftRight_eq_div_pow, Nat.shiftLeft_eq, Nat.mod_eq_of_lt hlow, Nat.mul_comm q]
    _ ↔ w.toNat / 2 ^ k = q := Nat.mul_left_inj hpow.ne'
    _ ↔ p.toNat ≤ w.toNat ∧ w.toNat < p.toNat + 2 ^ k := by
        rw [Nat.div_eq_iff hpow, hq, Nat.mul_comm q]; omega

/-- SHIFT's mask asks in addition that bits [1:0] are 0 (30_encoding.md R68). -/
theorem and_shiftMask_eq_iff (w : OpWord) :
    w &&& 0x3F3#10 = 0x010#10 ↔ w &&& 0x3F0#10 = 0x010#10 ∧ w.toNat % 4 = 0 := by
  have hlow : w &&& 0x003#10 = 0#10 ↔ w.toNat % 4 = 0 := by
    rw [← BitVec.toNat_inj, BitVec.toNat_and]
    exact Eq.congr_left (Nat.and_two_pow_sub_one_eq_mod w.toNat 2)
  rw [← hlow]
  constructor
  · intro h
    have hpart (m : OpWord) (hm : 0x3F3#10 &&& m = m) : w &&& m = 0x010#10 &&& m := by
      rw [← h, BitVec.and_assoc, hm]
    exact ⟨hpart 0x3F0#10 rfl, hpart 0x003#10 rfl⟩
  · rintro ⟨hhigh, hlow⟩
    rw [show 0x3F3#10 = 0x3F0#10 ||| 0x003#10 from rfl, BitVec.and_or_distrib_left, hhigh, hlow]
    rfl

/-- The numbers of the words of an operation's row: the column "legal bytes" of R62, and the words of R65 and R66. -/
def RowNumber : Instr → Nat → Prop
  | .clear, n => n = 0x001
  | .home, n => n = 0x002
  | .entryMode _ _, n => 0x004 ≤ n ∧ n < 0x008
  | .display _ _ _, n => 0x008 ≤ n ∧ n < 0x010
  | .shift _ _, n => (0x010 ≤ n ∧ n < 0x020) ∧ n % 4 = 0
  | .functionSet _ _ _ _, n => 0x020 ≤ n ∧ n < 0x040
  | .setCgram _, n => 0x040 ≤ n ∧ n < 0x080
  | .setDdram _, n => 0x080 ≤ n ∧ n < 0x100
  | .writeData _, n => 0x100 ≤ n ∧ n < 0x200
  | .wait, n => n = 0x200
  | .setup, n => n = 0x300

/-- The words that mask and match of a row select are those with the row's numbers. -/
theorem maskAndMatch_iff_rowNumber (i : Instr) (w : OpWord) :
    w &&& (maskAndMatch i).1 = (maskAndMatch i).2 ↔ RowNumber i w.toNat := by
  have hexact (p : OpWord) : w &&& 0x3FF#10 = p ↔ w.toNat = p.toNat := by
    rw [show 0x3FF#10 = BitVec.allOnes 10 from rfl, BitVec.and_allOnes, BitVec.toNat_inj]
  cases i <;> dsimp only [maskAndMatch, RowNumber]
  case clear => exact hexact 0x001#10
  case home => exact hexact 0x002#10
  case entryMode => exact and_highMask_eq_iff 2 rfl rfl w
  case display => exact and_highMask_eq_iff 3 rfl rfl w
  case shift =>
    rw [and_shiftMask_eq_iff]
    exact and_congr_left' (and_highMask_eq_iff 4 rfl rfl w)
  case functionSet => exact and_highMask_eq_iff 5 rfl rfl w
  case setCgram => exact and_highMask_eq_iff 6 rfl rfl w
  case setDdram => exact and_highMask_eq_iff 7 rfl rfl w
  case writeData => exact and_highMask_eq_iff 8 rfl rfl w
  case wait => exact hexact 0x200#10
  case setup => exact hexact 0x300#10

/-- Mask and match of a row of the decoder's table are those of the operation it reads. -/
theorem maskAndMatch_read {r : Row} (hr : r ∈ opcodeRows) (w : OpWord) :
    maskAndMatch (r.read w) = (r.mask, r.pattern) := by
  revert r
  simp [opcodeRows, maskAndMatch]

/-- A word is of a row of the decoder's table exactly when it has one of the row's numbers. -/
theorem rowFits_iff_rowNumber {r : Row} (hr : r ∈ opcodeRows) (w : OpWord) :
    rowFits r w = true ↔ RowNumber (r.read w) w.toNat := by
  simp [← maskAndMatch_iff_rowNumber, maskAndMatch_read hr, rowFits]

/-- A word that decodes has one of the numbers of its operation's row. -/
theorem rowNumber_of_decode {w : OpWord} {i : Instr} (h : decode w = .ok i) : RowNumber i w.toNat := by
  unfold decode at h
  split at h
  · rename_i r hr
    cases h
    exact (rowFits_iff_rowNumber (List.mem_of_find?_eq_some hr) w).1 (List.find?_some (p := fun r => rowFits r w) hr)
  · cases h

/-- A word with one of the numbers of a row decodes. -/
theorem exists_decode_of_rowNumber {w : OpWord} {r : Row} (hr : r ∈ opcodeRows) (h : RowNumber (r.read w) w.toNat) :
    ∃ i, decode w = .ok i := by
  unfold decode
  split
  · exact ⟨_, rfl⟩
  · rename_i hnone
    exact absurd ((rowFits_iff_rowNumber hr w).2 h) (List.find?_eq_none.1 hnone r hr)

/-- A row's numbers are reserved at the port exactly when the port does not take its operation. -/
theorem fromPort_iff_not_reserved {i : Instr} {n : Nat} (h : RowNumber i n) :
    i.fromPort = true ↔ ¬ ReservedNumber n := by
  cases i with
  | functionSet => exact iff_of_false Bool.false_ne_true (not_not.2 (by simp only [RowNumber] at h; omega))
  | _ => exact iff_of_true rfl (by simp only [RowNumber] at h; omega)

/-- The rows leave out no number below 1024 that is not reserved. -/
theorem exists_row_of_not_reserved {w : OpWord} (h : ¬ ReservedNumber w.toNat) :
    ∃ r ∈ opcodeRows, RowNumber (r.read w) w.toNat := by
  have hlt : w.toNat < 1024 := w.isLt
  simp only [opcodeRows, List.mem_cons, List.not_mem_nil, exists_eq_or_imp, RowNumber]
  omega

/-- A word at the port whose operation, if it decodes to one, the port does not take is refused by name. -/
theorem runWord_refused {w : OpWord} (h : ∀ i, decode w = .ok i → i.fromPort = false) (s : State) :
    runWord w s = .refused (.reservedWord w) := by
  unfold runWord
  split
  · rename_i i hi
    simp [h i hi]
  · rfl

/-- Settles O3: a word that decodes lies in its row's range, reserved for FUNCTION_SET's row and for no other, and
the rows leave out no number that is not reserved. -/
theorem reservedWordsRefused : Obligations.ReservedWordsRefused := by
  refine ⟨fun s w ws hs hp hw => ?_, fun w hw => ?_⟩
  · rw [step_ready hs, idleStep, hp]
    refine runWord_refused (fun i hi => ?_) _
    simpa [hw] using fromPort_iff_not_reserved (rowNumber_of_decode hi)
  · obtain ⟨r, hr, hrow⟩ := exists_row_of_not_reserved hw
    obtain ⟨i, hi⟩ := exists_decode_of_rowNumber hr hrow
    exact ⟨i, hi, (fromPort_iff_not_reserved (rowNumber_of_decode hi)).2 hw⟩

end Sys2Proof.Machine
end

section
/-! PROOF. The output latches and the bus cycles of a list of events, one rule for each part of the transfer engine
(41_transfer.md R91 to R94; 20_memory.md R44). -/

namespace Sys2Proof.Machine

/-! ### Reading a latch after a list of events -/

/-- No event of the list writes the latch of the pin. -/
abbrev Unwritten (p : PinId) (es : List Event) : Prop := ∀ l, Event.w p l ∉ es

/-- A latch that no event writes keeps its level. -/
theorem latchesAfter_unwritten {p : PinId} {es : List Event} (h : Unwritten p es) (out : Vector Level 16) :
    (latchesAfter out es)[p] = out[p] := by
  induction es generalizing out with
  | nil => rfl
  | cons e es ih =>
    rw [latchesAfter_cons, ih fun l hl => h l (.tail _ hl)]
    cases e with
    | w q l =>
      have hq : q ≠ p := by rintro rfl; exact h l (.head _)
      simp [latchAfter, hq]
    | _ => rfl

/-- Writes to different pins, one after another, leave on each the level written to it. -/
theorem latchesAfter_writes {ι : Type} {pin : ι → PinId} (hpin : pin.Injective) (lev : ι → Level) {js : List ι} {i : ι}
    (hi : i ∈ js) (out : Vector Level 16) :
    (latchesAfter out (js.map fun j => .w (pin j) (lev j)))[pin i] = lev i := by
  induction js generalizing out with
  | nil => cases hi
  | cons j js ih =>
    rw [List.map_cons, latchesAfter_cons]
    by_cases hjs : i ∈ js
    · exact ih hjs _
    · obtain rfl : i = j := (List.mem_cons.1 hi).resolve_right hjs
      have hrest : Unwritten (pin i) (js.map fun j => .w (pin j) (lev j)) := by
        intro l hl
        obtain ⟨j, hj, heq⟩ := List.mem_map.1 hl
        exact hjs (hpin (Event.w.inj heq).1 ▸ hj)
      simp [latchesAfter_unwritten hrest, latchAfter]

@[simp] theorem latchesAfter_delay (out : Vector Level 16) (n : Nat) : latchesAfter out (delayEvents n) = out := by
  unfold delayEvents
  split <;> rfl

/-! ### Bus cycles -/

theorem busCycles_append (c : Consts) (out : Vector Level 16) (a b : List Event) :
    busCycles c out (a ++ b) = busCycles c out a ++ busCycles c (latchesAfter out a) b := by
  induction a generalizing out with
  | nil => rfl
  | cons e a ih => simp [busCycles, ih, latchesAfter_cons]

/-- Without a write of `L` to enable there is no falling edge, and no bus cycle. -/
theorem busCycles_eq_nil {c : Consts} {es : List Event} (h : setsig c .en .low ∉ es) (out : Vector Level 16) :
    busCycles c out es = [] := by
  induction es generalizing out with
  | nil => rfl
  | cons e es ih =>
    obtain ⟨he, hes⟩ := not_or.1 (mt List.mem_cons.2 h)
    simp [busCycles, isFall, Ne.symm he, ih hes]

/-- A bus cycle does not depend on enable's latch, nor on a pin that carries no used signal. -/
theorem cycleOf_congr {c : Consts} {out out' : Vector Level 16}
    (h : ∀ s ∈ usedSignals c, s ≠ .en → out'[resolve c s] = out[resolve c s]) : cycleOf c out' = cycleOf c out := by
  have hrs := h .rs (rs_used c) nofun
  have hrw : rwLevel c out' = rwLevel c out := by
    unfold rwLevel
    split
    · exact h .rw (rw_used ‹_›) nofun
    · rfl
  have hdata : dataOnPins c out' = dataOnPins c out := by
    have hd (i : Fin 8) (hi : eightBit c = true ∨ 4 ≤ i.val) : dataBit c out' i = dataBit c out i :=
      congrArg levelBit (h (.d i) (data_used hi) nofun)
    dsimp only [dataOnPins]
    split
    next h8 => simp only [hd _ (.inl h8)]
    next => rw [hd 4 (.inr (by decide)), hd 5 (.inr (by decide)), hd 6 (.inr (by decide)), hd 7 (.inr (by decide))]
  simp only [cycleOf, hrs, hrw, hdata]

/-! ### `select` (R91) -/

/-- The level `select` gives RS (41_transfer.md R91). -/
def selectedRs : DevReg → Level
  | .instruction => .low
  | .data => .high
  | .busyFlagRead => .low

/-- The level `select` gives RW where it is wired (41_transfer.md R91). -/
def selectedRw : DevReg → Level
  | .instruction => .low
  | .data => .low
  | .busyFlagRead => .high

theorem selectEvents_unwired {c : Consts} (h : rwWired c = false) (reg : DevReg) :
    selectEvents c reg = [.w (resolve c .rs) (selectedRs reg)] := by
  cases reg <;> simp [selectEvents, setsig, selectedRs, h]

theorem selectEvents_wired {c : Consts} (h : rwWired c = true) (reg : DevReg) :
    selectEvents c reg = [.w (resolve c .rs) (selectedRs reg), .w (resolve c .rw) (selectedRw reg)] := by
  cases reg <;> simp [selectEvents, setsig, selectedRs, selectedRw, h]

/-- `select` writes RS and, where it is wired, RW. -/
theorem select_unwritten {c : Consts} {p : PinId} (hrs : p ≠ resolve c .rs)
    (hrw : rwWired c = true → p ≠ resolve c .rw) (reg : DevReg) : Unwritten p (selectEvents c reg) := by
  intro l
  cases h : rwWired c with
  | false => simp [selectEvents_unwired h, hrs]
  | true => simp [selectEvents_wired h, hrs, hrw h]

theorem latchesAfter_select_rs {c : Consts} (hd : PinsDistinct c) (out : Vector Level 16) (reg : DevReg) :
    (latchesAfter out (selectEvents c reg))[resolve c .rs] = selectedRs reg := by
  cases h : rwWired c with
  | false => simp [selectEvents_unwired h, latchesAfter_cons, latchAfter]
  | true =>
    have hne : resolve c .rw ≠ resolve c .rs := resolve_ne hd (rw_used h) (rs_used c) nofun
    simp [selectEvents_wired h, latchesAfter_cons, latchAfter, hne]

theorem latchesAfter_select_rw {c : Consts} (h : rwWired c = true) (out : Vector Level 16) (reg : DevReg) :
    (latchesAfter out (selectEvents c reg))[resolve c .rw] = selectedRw reg := by
  simp [selectEvents_wired h, latchesAfter_cons, latchAfter]

/-- Settles O12: each case of select reads off its event list, one shape for RW wired and one for it unwired. -/
theorem selectSetsLevels : Obligations.SelectSetsLevels := by
  refine ⟨fun c => ⟨fun h => ?_, fun h => ?_⟩, fun c out hd => ⟨?_, ?_, fun h => ?_, ?_⟩⟩
  · exact ⟨selectEvents_unwired h .instruction, selectEvents_unwired h .data⟩
  · exact ⟨selectEvents_wired h .instruction, selectEvents_wired h .data, selectEvents_wired h .busyFlagRead⟩
  · exact latchesAfter_select_rs hd out .instruction
  · exact latchesAfter_select_rs hd out .data
  · exact ⟨latchesAfter_select_rw h out .instruction, latchesAfter_select_rw h out .data,
      latchesAfter_select_rs hd out .busyFlagRead, latchesAfter_select_rw h out .busyFlagRead⟩
  · exact fun reg p _ hrs hrw => latchesAfter_unwritten (select_unwritten hrs hrw reg) out

/-! ### `put4` and `put8` (R92, R93) -/

/-- The data line that carries bit `k` of a nibble, D(4+k) (41_transfer.md R92). -/
def nibbleLine (k : Fin 4) : Signal := .d ⟨4 + k.val, by omega⟩

theorem put4Events_eq_map (c : Consts) (n : Nibble) :
    put4Events c n = (List.finRange 4).map fun k => .w (resolve c (nibbleLine k)) (lvl (n.getLsbD k.val)) := rfl

theorem put8Events_eq_map (c : Consts) (b : Byte) :
    put8Events c b = (List.finRange 8).map fun i => .w (resolve c (.d i)) (lvl (b.getLsbD i.val)) := rfl

/-- `put4` writes D4 to D7 alone. -/
theorem put4_unwritten {c : Consts} {p : PinId} (h : ∀ i : Fin 8, 4 ≤ i.val → resolve c (.d i) ≠ p) (n : Nibble) :
    Unwritten p (put4Events c n) := by
  intro l
  simp only [put4Events_eq_map, List.mem_map, Event.w.injEq, not_exists, not_and]
  exact fun k _ hk => (h _ (Nat.le_add_right 4 k.val) hk).elim

/-- `put8` writes D0 to D7 alone. -/
theorem put8_unwritten {c : Consts} {p : PinId} (h : ∀ i : Fin 8, resolve c (.d i) ≠ p) (b : Byte) :
    Unwritten p (put8Events c b) := by
  intro l
  simp only [put8Events_eq_map, List.mem_map, Event.w.injEq, not_exists, not_and]
  exact fun i _ hi => (h i hi).elim

/-- Different used data lines lie on different pins. -/
theorem data_inj {c : Consts} (hd : PinsDistinct c) {i j : Fin 8} (hi : eightBit c = true ∨ 4 ≤ i.val)
    (hj : eightBit c = true ∨ 4 ≤ j.val) (h : resolve c (.d i) = resolve c (.d j)) : i = j := by
  by_contra hne
  exact resolve_ne hd (data_used hi) (data_used hj) (by simpa using hne) h

theorem latchesAfter_put4 {c : Consts} (hd : PinsDistinct c) (out : Vector Level 16) (n : Nibble) {i : Fin 8}
    (hi : 4 ≤ i.val) : (latchesAfter out (put4Events c n))[resolve c (.d i)] = lvl (n.getLsbD (i.val - 4)) := by
  have hinj : Function.Injective fun k => resolve c (nibbleLine k) := by
    intro j k h
    have := data_inj hd (.inr (Nat.le_add_right 4 j.val)) (.inr (Nat.le_add_right 4 k.val)) h
    simpa [Fin.ext_iff] using this
  have hk : nibbleLine ⟨i.val - 4, by omega⟩ = .d i := by simp [nibbleLine, Nat.add_sub_cancel' hi]
  simpa only [put4Events_eq_map, hk] using
    latchesAfter_writes hinj (fun k => lvl (n.getLsbD k.val)) (List.mem_finRange ⟨i.val - 4, by omega⟩) out

theorem latchesAfter_put8 {c : Consts} (hd : PinsDistinct c) (h8 : eightBit c = true) (out : Vector Level 16)
    (b : Byte) (i : Fin 8) : (latchesAfter out (put8Events c b))[resolve c (.d i)] = lvl (b.getLsbD i.val) := by
  have hinj : Function.Injective fun i => resolve c (.d i) := fun _ _ => data_inj hd (.inl h8) (.inl h8)
  exact latchesAfter_writes hinj (fun i : Fin 8 => lvl (b.getLsbD i.val)) (List.mem_finRange i) out

/-- Settles O13: both placements are a write for each bit, to pins that are distinct. -/
theorem dataPlacement : Obligations.DataPlacement := fun c =>
  ⟨put4Events_eq_map c, put8Events_eq_map c,
    fun hd => ⟨fun _ out n _ hi => latchesAfter_put4 hd out n hi, fun h8 out b i => latchesAfter_put8 hd h8 out b i⟩,
    fun out n _ h => latchesAfter_unwritten (put4_unwritten h n) out,
    fun out b _ h => latchesAfter_unwritten (put8_unwritten h b) out⟩

/-! ### `pulse` (R94) -/

theorem pulseEvents_eq {c : Consts} (h : 1 ≤ c.prm.tEnHi) :
    pulseEvents c = [.w (resolve c .en) .high, .d c.prm.tEnHi, .w (resolve c .en) .low] ++
      (if c.prm.tEnLo > 0 then [.d c.prm.tEnLo] else []) := by
  have hhi : delayEvents c.prm.tEnHi = [.d c.prm.tEnHi] := if_neg (by omega)
  have hlo : delayEvents c.prm.tEnLo = if c.prm.tEnLo > 0 then [.d c.prm.tEnLo] else [] := by
    simp [delayEvents, Nat.pos_iff_ne_zero]
  simp [pulseEvents, setsig, hhi, hlo]

theorem latchesAfter_pulse {c : Consts} {out : Vector Level 16} (hen : out[resolve c .en] = .low) :
    latchesAfter out (pulseEvents c) = out := by
  have hself : out.set (resolve c .en) .low = out := by
    simp [← hen]
  simp [pulseEvents, setsig, latchesAfter_cons, latchAfter, hself]

theorem busCycles_pulse {c : Consts} {out : Vector Level 16} (hd : PinsDistinct c) :
    busCycles c out (pulseEvents c) = [cycleOf c out] := by
  have hdelay (n : Nat) (out) : busCycles c out (delayEvents n) = [] :=
    busCycles_eq_nil (by unfold delayEvents; split <;> simp [setsig]) out
  have hrise : busCycles c out [setsig c .en .high] = [] := busCycles_eq_nil (by simp [setsig]) out
  have hfall : cycleOf c (latchesAfter out [setsig c .en .high]) = cycleOf c out := by
    refine cycleOf_congr fun s hs hne => latchesAfter_unwritten (fun l => ?_) out
    simp [setsig, resolve_ne hd hs (en_used c) hne]
  simp only [pulseEvents, busCycles_append, hdelay, hrise, latchesAfter_append, latchesAfter_delay]
  have hhigh : (latchesAfter out [setsig c .en .high])[resolve c .en] = .high := by
    simp [latchesAfter_cons, setsig, latchAfter]
  simp [busCycles, isFall, hfall, hhigh]

/-- Settles O14: enable falls once, and no signal of the cycle shares its pin. -/
theorem pulseIsOneBusCycle : Obligations.PulseIsOneBusCycle :=
  ⟨fun _ h => pulseEvents_eq h, fun _ _ hd hen => ⟨busCycles_pulse hd, latchesAfter_pulse hen⟩⟩

end Sys2Proof.Machine
end

section
/-! PROOF. The bus cycles of a transferred byte (41_transfer.md R90, R95, R96). -/

namespace Sys2Proof.Machine

/-! ### The number on the data pins -/

@[simp] theorem levelBit_lvl (b : Bool) : levelBit (lvl b) = b := by cases b <;> rfl

/-- A flag is its own bit alone of the byte (30_encoding.md R63). -/
theorem getLsbD_flagAt (b : Bool) (n i : Nat) : (flagAt b n).getLsbD i = (b && (decide (n < 8) && decide (n = i))) := by
  cases b with
  | false => simp [flagAt]
  | true => simp [flagAt, ← BitVec.twoPow_eq, BitVec.getLsbD_twoPow]

/-- Eight data pins that hold the bits of a byte carry that byte (20_memory.md R44). -/
theorem dataOnPins_eight {c : Consts} (h8 : eightBit c = true) {out : Vector Level 16} {b : Byte}
    (h : ∀ i : Fin 8, out[resolve c (.d i)] = lvl (b.getLsbD i.val)) : dataOnPins c out = b := by
  have hbit (i : Fin 8) : dataBit c out i = b.getLsbD i.val := by rw [dataBit, h i, levelBit_lvl]
  refine BitVec.eq_of_getLsbD_eq fun i hi => ?_
  simp only [dataOnPins, h8, if_true, hbit, BitVec.getLsbD_or, getLsbD_flagAt]
  interval_cases i <;> simp

/-- Four data pins, D4 to D7, that hold the bits of a nibble carry that nibble (20_memory.md R44). -/
theorem dataOnPins_four {c : Consts} (h8 : eightBit c = false) {out : Vector Level 16} {n : Nibble}
    (h : ∀ i : Fin 8, 4 ≤ i.val → out[resolve c (.d i)] = lvl (n.getLsbD (i.val - 4))) :
    dataOnPins c out = n.setWidth 8 := by
  have hbit (i : Fin 8) (hi : 4 ≤ i.val) : dataBit c out i = n.getLsbD (i.val - 4) := by
    rw [dataBit, h i hi, levelBit_lvl]
  refine BitVec.eq_of_getLsbD_eq fun i hi => ?_
  simp only [dataOnPins, h8, Bool.false_eq_true, if_false, hbit 4 (by decide), hbit 5 (by decide), hbit 6 (by decide),
    hbit 7 (by decide), BitVec.getLsbD_or, getLsbD_flagAt, BitVec.getLsbD_setWidth]
  interval_cases i <;> simp

/-! ### Placing a value and pulsing enable -/

/-- The events put `v` on the data pins, whatever the latches were, and write no used pin that is not a data pin. -/
structure Places (c : Consts) (es : List Event) (v : Byte) : Prop where
  data : ∀ out, dataOnPins c (latchesAfter out es) = v
  others : ∀ s ∈ usedSignals c, (∀ i, s ≠ .d i) → Unwritten (resolve c s) es

theorem places_put8 {c : Consts} (hd : PinsDistinct c) (h8 : eightBit c = true) (b : Byte) :
    Places c (put8Events c b) b where
  data out := dataOnPins_eight h8 (latchesAfter_put8 hd h8 out b)
  others _ hs hne := put8_unwritten (fun i => resolve_ne hd (data_used (.inl h8)) hs (hne i).symm) b

theorem places_put4 {c : Consts} (hd : PinsDistinct c) (h8 : eightBit c = false) (n : Nibble) :
    Places c (put4Events c n) (n.setWidth 8) where
  data out := dataOnPins_four h8 fun _ hi => latchesAfter_put4 hd out n hi
  others _ hs hne := put4_unwritten (fun i hi => resolve_ne hd (data_used (.inr hi)) hs (hne i).symm) n

section Places
variable {c : Consts} {es : List Event} {v : Byte} (h : Places c es v) (out : Vector Level 16)
include h

theorem Places.keeps_rs : (latchesAfter out es)[resolve c .rs] = out[resolve c .rs] :=
  latchesAfter_unwritten (h.others .rs (rs_used c) nofun) out

theorem Places.keeps_en : (latchesAfter out es)[resolve c .en] = out[resolve c .en] :=
  latchesAfter_unwritten (h.others .en (en_used c) nofun) out

theorem Places.keeps_rwLevel : rwLevel c (latchesAfter out es) = rwLevel c out := by
  unfold rwLevel
  split
  next hw => exact latchesAfter_unwritten (h.others .rw (rw_used hw) nofun) out
  next => rfl

/-- A value placed and a pulse are the one write cycle of that value, at the selected RS level. -/
theorem Places.oneWriteCycle (hd : PinsDistinct c) (hrw : rwLevel c out = .low) :
    busCycles c out (es ++ pulseEvents c) = [⟨out[resolve c .rs], .low, some v⟩] := by
  have hes : busCycles c out es = [] := busCycles_eq_nil (h.others .en (en_used c) nofun .low) out
  simp [busCycles_append, hes, busCycles_pulse hd, cycleOf, h.keeps_rs, h.keeps_rwLevel, hrw, h.data]

end Places

/-! ### The byte of a transfer -/

theorem split_fst_setWidth (b : Byte) : (split b).1.setWidth 8 = b >>> 4 := by
  refine BitVec.eq_of_toNat_eq ?_
  have := b.isLt
  simp [split, Nat.shiftRight_eq_div_pow]
  omega

theorem split_snd_setWidth (b : Byte) : (split b).2.setWidth 8 = b &&& 0x0F#8 := by
  refine BitVec.eq_of_toNat_eq ?_
  have hlow (n : Nat) : n &&& 15 = n % 16 := Nat.and_two_pow_sub_one_eq_mod n 4
  simp [split, hlow]

/-- With enable low and a write selected, a byte is its write cycles: the byte, or its nibbles, high first (R96). -/
theorem busCycles_byteEvents {c : Consts} {out : Vector Level 16} (hd : PinsDistinct c)
    (hen : out[resolve c .en] = .low) (hrw : rwLevel c out = .low) (b : Byte) :
    busCycles c out (byteEvents c b) = byteCycles c out[resolve c .rs] b := by
  unfold byteEvents byteCycles
  split
  next h8 => exact (places_put8 hd h8 b).oneWriteCycle out hd hrw
  next h8 =>
    have h8 : eightBit c = false := by simpa using h8
    have hhi := places_put4 hd h8 (split b).1
    have hlo := places_put4 hd h8 (split b).2
    rw [busCycles_append, hhi.oneWriteCycle out hd hrw, latchesAfter_append,
      latchesAfter_pulse ((hhi.keeps_en out).trans hen), hlo.oneWriteCycle _ hd ((hhi.keeps_rwLevel out).trans hrw),
      hhi.keeps_rs, split_fst_setWidth, split_snd_setWidth]
    rfl

/-- A transfer to the Instruction or the Data register is the write cycles of its byte at that register's RS (R96). -/
theorem busCycles_xferEvents {c : Consts} {out : Vector Level 16} (hd : PinsDistinct c)
    (hen : out[resolve c .en] = .low) {reg : DevReg} (hreg : selectedRw reg = .low) (b : Byte) :
    busCycles c out (xferEvents c reg b) = byteCycles c (selectedRs reg) b := by
  have hfree : Unwritten (resolve c .en) (selectEvents c reg) :=
    select_unwritten (resolve_ne hd (en_used c) (rs_used c) nofun)
      (fun hw => resolve_ne hd (en_used c) (rw_used hw) nofun) reg
  have hen' : (latchesAfter out (selectEvents c reg))[resolve c .en] = .low :=
    (latchesAfter_unwritten hfree out).trans hen
  have hrw : rwLevel c (latchesAfter out (selectEvents c reg)) = .low := by
    unfold rwLevel
    split
    next hw => exact (latchesAfter_select_rw hw out reg).trans hreg
    next => rfl
  rw [xferEvents, busCycles_append, busCycles_eq_nil (hfree .low), List.nil_append,
    busCycles_byteEvents hd hen' hrw, latchesAfter_select_rs hd]

/-- Settles O15: the byte's cycles at the RS level of either register. -/
theorem transferBusCycles : Obligations.TransferBusCycles := fun _ _ b hd hen =>
  ⟨busCycles_xferEvents hd hen (reg := .instruction) rfl b, busCycles_xferEvents hd hen (reg := .data) rfl b⟩

end Sys2Proof.Machine
end

section
/-! PROOF. The poll as a run of the machine: its busy turns, its two ends, and the state it leaves, whatever lines stand
before and after it (42_handshake.md R107 to R111); and WAIT, which is the poll alone (R113). -/

namespace Sys2Proof.Machine

/-! ### The turns of the loop -/

/-- As many busy samples short of the bound are as many steps of the machine, after which the loop goes on (R109). -/
theorem core_run_busySamples {k : Nat} {s : State} (hbusy : BusyFor k s)
    (hbound : ∀ j, j < k → s.con.prm.bfRetryMax ≠ some (s.pcnt + j + 1)) (acts : List Act) :
    Host.Core.run Sys2Proof.core k (run (.pollLoop :: acts) s) = .next (run (.pollLoop :: acts) (sampled^[k] s)) := by
  induction k generalizing s with
  | zero => rfl
  | succ k ih =>
    have hturn := run_pollLoop_high (hbusy 0 k.succ_pos) (hbound 0 k.succ_pos) acts
    have hstep : step (run (.pollLoop :: acts) s) = .next (run (.pollLoop :: acts) (sampled s)) := by
      rw [hturn, step_busy (List.cons_ne_nil _ _), run_todo]
    rw [core_run_succ hstep, Function.iterate_succ_apply]
    refine ih (fun j hj => ?_) fun j hj => ?_
    · rw [sampled_answer]
      exact hbusy (j + 1) (Nat.succ_lt_succ hj)
    · rw [sampled_con, sampled_pcnt, Nat.add_right_comm s.pcnt, Nat.add_assoc s.pcnt]
      exact hbound (j + 1) (Nat.succ_lt_succ hj)

/-! ### The state a poll leaves -/

/-- The state once a poll that began in `s` has emitted `es` and used `n` answers, with `b` in BFS. -/
def polled (es : List Event) (n : Nat) (b : Bool) (s : State) : State :=
  { emitAll es s with rsel := .busyFlagRead, bfs := b, pcnt := n, tape := s.tape.drop n, reads := s.reads + n }

section Polled
variable (es : List Event) (n : Nat) (b : Bool) (s : State)

@[simp] theorem polled_xb : (polled es n b s).xb = s.xb := emitAll_xb es s
@[simp] theorem polled_con : (polled es n b s).con = s.con := emitAll_con es s
@[simp] theorem polled_status : (polled es n b s).status = s.status := emitAll_status es s
@[simp] theorem polled_setups : (polled es n b s).setups = s.setups := emitAll_setups es s
@[simp] theorem polled_port : (polled es n b s).port = s.port := emitAll_port es s
@[simp] theorem polled_host : (polled es n b s).host = s.host := emitAll_host es s
@[simp] theorem polled_rsel : (polled es n b s).rsel = .busyFlagRead := rfl
@[simp] theorem polled_bfs : (polled es n b s).bfs = b := rfl
@[simp] theorem polled_pcnt : (polled es n b s).pcnt = n := rfl

theorem emitted_polled : Emitted s (polled es n b s) es :=
  ⟨emitAll_h es s, emitAll_dir es s, emitAll_out es s, emitAll_tmr es s⟩

theorem answered_polled : Answered s (polled es n b s) n := ⟨rfl, rfl⟩

@[simp] theorem polled_answer (j : Nat) : (polled es n b s).answer j = s.answer (n + j) := by
  simp [polled, State.answer, Nat.add_assoc]

theorem pollBegin_eq_polled : pollBegin s = polled (pollBeginEvents s.con) 0 s.bfs s := by
  simp [pollBegin, polled, emitAll_eq]

theorem sampled_polled : sampled (polled es n b s) =
    polled (es ++ sampleEvents s.con (s.answer n)) (n + 1) (levelBit (s.answer n)) s := by
  have hanswer : State.answer { polled es n b s with pcnt := n + 1 } 0 = s.answer n := polled_answer es n b s 0
  simp only [sampled, sample, polled_pcnt, hanswer]
  simp [polled, emitAll_eq, State.answered, Nat.add_assoc]

theorem pollEnd_polled : pollEnd (polled es n b s) = polled (es ++ pollEndEvents s.con) n b s := by
  simp [pollEnd, polled, emitAll_eq]

end Polled

/-- The events of a poll whose `k` samples so far say busy (R107, R109). -/
def pollingEvents (c : Consts) (k : Nat) : List Event :=
  pollBeginEvents c ++ (List.replicate k (sampleEvents c .high)).flatten

theorem pollingEvents_succ (c : Consts) (k : Nat) :
    pollingEvents c (k + 1) = pollingEvents c k ++ sampleEvents c .high := by
  simp [pollingEvents, List.replicate_succ']

/-- A poll after `k` busy samples; BFS is as before the poll until the first of them. -/
theorem sampled_iterate_pollBegin {k : Nat} {s : State} (h : BusyFor k s) :
    sampled^[k] (pollBegin s) = polled (pollingEvents s.con k) k (decide (0 < k) || s.bfs) s := by
  induction k with
  | zero => simpa [pollingEvents] using pollBegin_eq_polled s
  | succ k ih =>
    rw [Function.iterate_succ_apply', ih fun j hj => h j (Nat.lt_succ_of_lt hj), sampled_polled, h k k.lt_succ_self,
      ← pollingEvents_succ]
    simp [levelBit]

/-! ### The wait before a transfer -/

section Prewait
variable {s : State} (hpoll : busyFlagPoll s.con = true) (acts : List Act)
include hpoll

/-- Busy samples short of the bound: as many steps bring the poll back to its loop (R107, R109). -/
theorem core_run_prewait_busy {k : Nat} (hbusy : BusyFor k s)
    (hbound : ∀ m, s.con.prm.bfRetryMax = some m → k < m) :
    Host.Core.run Sys2Proof.core k (run (.prewait :: acts) s) =
      .next (run (.pollLoop :: acts) (polled (pollingEvents s.con k) k (decide (0 < k) || s.bfs) s)) := by
  have hbegin := pollBegin_eq_polled s
  rw [run_prewait_poll hpoll, ← sampled_iterate_pollBegin hbusy]
  refine core_run_busySamples (fun j hj => ?_) (fun j hj heq => ?_) acts
  · simpa [hbegin] using hbusy j hj
  · have hlt := hbound (j + 1) (by simpa [hbegin] using heq)
    omega

/-- A poll that an idle sample ends hands over to the lines after it (R110). -/
theorem core_run_prewait_idle {k : Nat} (hbusy : BusyFor k s) (hidle : s.answer k = .low)
    (hbound : ∀ m, s.con.prm.bfRetryMax = some m → k < m) :
    Host.Core.run Sys2Proof.core k (run (.prewait :: acts) s) =
      .next (run acts (polled (pollEvents s.con k) (k + 1) false s)) := by
  rw [core_run_prewait_busy hpoll acts hbusy hbound, run_pollLoop_low (by simpa using hidle), sampled_polled,
    pollEnd_polled, hidle]
  rfl

/-- A poll with as many busy samples as the bound ends in DeviceNotResponding, the lines after it dropped (R111). -/
theorem core_run_prewait_bound {k : Nat} (hbusy : BusyFor (k + 1) s)
    (hbound : s.con.prm.bfRetryMax = some (k + 1)) :
    Host.Core.run Sys2Proof.core k (run (.prewait :: acts) s) =
      .next (raise .deviceNotResponding (polled (failedPollEvents s.con (k + 1)) (k + 1) true s)) := by
  have hlast : s.answer k = .high := hbusy k k.lt_succ_self
  have hshort (m : Nat) (hm : s.con.prm.bfRetryMax = some m) : k < m := by simp_all
  rw [core_run_prewait_busy hpoll acts (fun j hj => hbusy j (Nat.lt_succ_of_lt hj)) hshort,
    run_pollLoop_bound (by simpa using hlast) (by simpa using hbound), sampled_polled, pollEnd_polled, hlast,
    ← pollingEvents_succ]
  rfl

end Prewait

/-! ### The ends of an operation -/

@[simp] theorem run_singleton_seq (q : SeqState) (s : State) : run [.seq q] s = { setSeq q s with todo := [] } := rfl

/-- The last line of every operation, `SEQ <- IDLE`, leaves the block idle and ready (10_state.md R16, R25). -/
theorem idleReady_run_seqIdle (s : State) : IdleReady (run [.seq .idle] s) :=
  ⟨rfl, statusRdy_setRdy s.status true, rfl⟩

/-- An exception leaves the block idle and ready (60_exceptions.md R175). -/
theorem idleReady_raise (e : Cause) (s : State) : IdleReady (raise e s) :=
  ⟨rfl, statusRdy_raise s.status e, rfl⟩

section Ends
variable {s t : State}

theorem emitted_run_seqIdle {es : List Event} (h : Emitted s t es) : Emitted s (run [.seq .idle] t) es := h

theorem emitted_raise {es : List Event} (h : Emitted s t es) (e : Cause) : Emitted s (raise e t) es := h

theorem answered_run_seqIdle {n : Nat} (h : Answered s t n) : Answered s (run [.seq .idle] t) n := h

theorem answered_raise {n : Nat} (h : Answered s t n) (e : Cause) : Answered s (raise e t) n := h

end Ends

/-- A ready status word is as before once RDY has been taken away and given back. -/
theorem statusSetRdy_restore {st : BitVec 3} (h : statusRdy st = true) :
    statusSetRdy true (statusSetRdy false st) = st :=
  status_ext (by simp [h]) (by simp) (by simp)

/-! ### WAIT -/

/-- A ready block accepts WAIT: the wait before a transfer, and no transfer after it (R113). -/
theorem exec_wait {s : State} (h : s.rdy = true) :
    exec .wait s = .next (run [.prewait, .seq .idle] (setSeq (.op .prewait) s)) := by
  rw [exec_eq rfl, accept_eq, if_pos h]
  rfl

/-- Under FixedDelay WAIT gives the state back. -/
theorem exec_wait_fixed {s : State} (hs : IdleReady s) (hfixed : busyFlagPoll s.con = false) :
    exec .wait s = .next s := by
  obtain ⟨hseq, hrdy, htodo⟩ := hs
  have hstatus : statusSetRdy true (statusSetRdy false s.status) = s.status := statusSetRdy_restore hrdy
  rw [exec_wait hrdy, run_prewait_fixed (s := setSeq _ s) hfixed]
  calc Host.Outcome.next (run [.seq .idle] (setSeq (.op .prewait) s))
      = .next { s with seq := .idle, status := statusSetRdy true (statusSetRdy false s.status), todo := [] } := rfl
    _ = .next s := by rw [hstatus, ← hseq, ← htodo]

/-- Settles O28: WAIT's lines are a prewait with nothing but `SEQ <- IDLE` after it, so each clause is an end of the
poll. -/
theorem waitEffect : Obligations.WaitEffect := by
  refine ⟨by decide, fun s hs => ?_⟩
  have ⟨_, hrdy, _⟩ := hs
  have hwait := exec_wait hrdy
  refine ⟨exec_wait_fixed hs, fun hpoll k hbusy hidle hbound => ?_, fun hpoll m hm hbound hbusy => ?_⟩
  · have hrun := core_run_prewait_idle (s := setSeq (.op .prewait) s) hpoll [.seq .idle] hbusy hidle hbound
    exact ⟨_, k, _, hwait, hrun, emitted_run_seqIdle (emitted_polled ..),
      by simp [Kept, State.cfgErr, State.noResp], answered_run_seqIdle (answered_polled ..),
      idleReady_run_seqIdle _, by simp⟩
  · obtain ⟨k, rfl⟩ := Nat.exists_eq_add_of_le' hm
    have hrun := core_run_prewait_bound (s := setSeq (.op .prewait) s) hpoll [.seq .idle] hbusy hbound
    exact ⟨_, k, _, hwait, hrun, emitted_raise (emitted_polled ..) _, answered_raise (answered_polled ..) _,
      idleReady_raise .., by simp [State.noResp], by simp [State.cfgErr], by simp⟩

end Sys2Proof.Machine
end

section
/-! PROOF. The word a row's number decodes to, one rule for the whole table (30_encoding.md R62, R65), and the three
rows whose operand is more than flags: SET_CGRAM, SET_DDRAM and WRITE_DATA. -/

namespace Sys2Proof.Machine

/-- No two rows of the decoder's table have a number in common (30_encoding.md R61). -/
theorem opcodeRows_rowNumber_disjoint (w : OpWord) :
    opcodeRows.Pairwise fun r r' => ¬ (RowNumber (r.read w) w.toNat ∧ RowNumber (r'.read w) w.toNat) := by
  simp [opcodeRows, RowNumber]
  omega

/-- A word with one of the numbers of a row decodes to the operation the row reads from it. -/
theorem decode_of_rowNumber {w : OpWord} {r : Row} (hr : r ∈ opcodeRows) (h : RowNumber (r.read w) w.toNat) :
    decode w = .ok (r.read w) := by
  obtain ⟨r', hfind⟩ : ∃ r', opcodeRows.find? (fun r => rowFits r w) = some r' :=
    Option.isSome_iff_exists.1 (List.find?_isSome.2 ⟨r, hr, (rowFits_iff_rowNumber hr w).2 h⟩)
  have hr' : r' ∈ opcodeRows := List.mem_of_find?_eq_some hfind
  have h' := (rowFits_iff_rowNumber hr' w).1 (List.find?_some (p := fun r => rowFits r w) hfind)
  have hsame : r' = r := by
    have hsymm : Std.Symm fun r r' : Row => ¬ (RowNumber (r.read w) w.toNat ∧ RowNumber (r'.read w) w.toNat) :=
      ⟨fun _ _ hne hand => hne hand.symm⟩
    by_contra hne
    exact (opcodeRows_rowNumber_disjoint w).forall hr' hr hne ⟨h', h⟩
  simp [decode, hfind, hsame]

/-- The word of a number below 1024 that is one of a row's decodes to what the row reads from it. -/
theorem decode_ofNat {n : Nat} {r : Row} (hr : r ∈ opcodeRows) (hn : n < 1024)
    (h : RowNumber (r.read (BitVec.ofNat 10 n)) n) :
    decode (BitVec.ofNat 10 n) = .ok (r.read (BitVec.ofNat 10 n)) :=
  decode_of_rowNumber hr (by rwa [BitVec.toNat_ofNat, Nat.mod_eq_of_lt hn])

/-- A mask of the low `k` bits takes a word's number modulo `2 ^ k`. -/
theorem toNat_ofNat_and_lowMask {k n : Nat} {m : OpWord} (hm : m.toNat = 2 ^ k - 1) (hn : n < 1024) :
    (BitVec.ofNat 10 n &&& m).toNat = n % 2 ^ k := by
  rw [BitVec.toNat_and, BitVec.toNat_ofNat, Nat.mod_eq_of_lt hn, hm, Nat.and_two_pow_sub_one_eq_mod]

theorem decode_setCgram {a : Nat} (h : a ≤ 63) : decode (BitVec.ofNat 10 (0x040 + a)) = .ok (.setCgram a) := by
  have hn : 0x040 + a < 1024 := by omega
  have haddr : (BitVec.ofNat 10 (0x040 + a) &&& 0x3F#10).toNat = a := by
    rw [toNat_ofNat_and_lowMask (k := 6) rfl hn]
    omega
  have hrow : decode (BitVec.ofNat 10 (0x040 + a)) = .ok (.setCgram _) :=
    decode_ofNat (r := opcodeRows[6]) (List.getElem_mem _) hn ⟨by omega, by omega⟩
  rw [hrow, haddr]

theorem decode_setDdram {a : Nat} (h : a ≤ 127) : decode (BitVec.ofNat 10 (0x080 + a)) = .ok (.setDdram a) := by
  have hn : 0x080 + a < 1024 := by omega
  have haddr : (BitVec.ofNat 10 (0x080 + a) &&& 0x7F#10).toNat = a := by
    rw [toNat_ofNat_and_lowMask (k := 7) rfl hn]
    omega
  have hrow : decode (BitVec.ofNat 10 (0x080 + a)) = .ok (.setDdram _) :=
    decode_ofNat (r := opcodeRows[7]) (List.getElem_mem _) hn ⟨by omega, by omega⟩
  rw [hrow, haddr]

theorem decode_writeData (b : Byte) : decode (BitVec.ofNat 10 (0x100 + b.toNat)) = .ok (.writeData b) := by
  have hb : b.toNat < 256 := b.isLt
  have hn : 0x100 + b.toNat < 1024 := by omega
  have hbyte : wordByte (BitVec.ofNat 10 (0x100 + b.toNat)) = b := by
    apply BitVec.eq_of_toNat_eq
    rw [wordByte, BitVec.extractLsb'_toNat, BitVec.toNat_ofNat, Nat.mod_eq_of_lt hn, Nat.shiftRight_zero]
    omega
  have hrow : decode (BitVec.ofNat 10 (0x100 + b.toNat)) = .ok (.writeData _) :=
    decode_ofNat (r := opcodeRows[8]) (List.getElem_mem _) hn ⟨by omega, by omega⟩
  rw [hrow, hbyte]

end Sys2Proof.Machine
end

section
/-! PROOF. A transfer, whatever phases its sequencer goes through and whatever lines follow it: the byte loaded at
decode, the wait before the transfer, and the state the transfer and its delay leave (43_commands.md R120); and with
them the operations that are one transfer (R121 to R128). -/

namespace Sys2Proof.Machine

/-! ### The lines of a transfer -/

/-- The state in which the wait before a transfer begins: the byte and the register loaded at decode (10_state.md R13,
R14). -/
def loaded (q : Phase → SeqState) (reg : DevReg) (b : Byte) (s : State) : State :=
  setSeq (q .prewait) { s with xb := b, rsel := reg }

/-- The lines of a transfer after its prewait. -/
def afterPrewaitLines (q : Phase → SeqState) (reg : DevReg) (b : Byte) (t : Nat) : List Act :=
  [.seq (q .xfer), .xfer reg b, .seq (q .postwait), .postwait t]

/-- The state after those lines. -/
def transferred (q : Phase → SeqState) (reg : DevReg) (b : Byte) (t : Nat) (s : State) : State :=
  emitAll (xferEvents s.con reg b ++ postwaitEvents s.con t)
    (setSeq (q .postwait) (setSeq (q .xfer) { s with xb := b, rsel := reg }))

section Lines
variable (q : Phase → SeqState) (reg : DevReg) (b : Byte) (t : Nat) (acts : List Act) (s : State)

theorem run_transferLines :
    run (transferLines q reg b t ++ acts) s =
      run (.prewait :: (afterPrewaitLines q reg b t ++ acts)) (loaded q reg b s) := rfl

theorem run_afterPrewaitLines :
    run (afterPrewaitLines q reg b t ++ acts) s = run acts (transferred q reg b t s) := by
  have hrun : run (afterPrewaitLines q reg b t ++ acts) s =
    run acts (act (.postwait t) (setSeq (q .postwait) (xfer reg b (setSeq (q .xfer) s)))) := rfl
  rw [hrun]
  simp [act, xfer, transferred, setSeq, emitAll_eq]

@[simp] theorem loaded_xb : (loaded q reg b s).xb = b := rfl
@[simp] theorem loaded_rsel : (loaded q reg b s).rsel = reg := rfl
@[simp] theorem loaded_con : (loaded q reg b s).con = s.con := rfl
@[simp] theorem loaded_bfs : (loaded q reg b s).bfs = s.bfs := rfl
@[simp] theorem loaded_pcnt : (loaded q reg b s).pcnt = s.pcnt := rfl
@[simp] theorem loaded_setups : (loaded q reg b s).setups = s.setups := rfl
@[simp] theorem loaded_port : (loaded q reg b s).port = s.port := rfl
@[simp] theorem loaded_host : (loaded q reg b s).host = s.host := rfl
@[simp] theorem loaded_status :
    (loaded q reg b s).status = statusSetRdy (decide (q .prewait = .idle)) s.status := rfl

@[simp] theorem transferred_xb : (transferred q reg b t s).xb = b := emitAll_xb ..
@[simp] theorem transferred_rsel : (transferred q reg b t s).rsel = reg := emitAll_rsel ..
@[simp] theorem transferred_con : (transferred q reg b t s).con = s.con := emitAll_con ..
@[simp] theorem transferred_bfs : (transferred q reg b t s).bfs = s.bfs := emitAll_bfs ..
@[simp] theorem transferred_pcnt : (transferred q reg b t s).pcnt = s.pcnt := emitAll_pcnt ..
@[simp] theorem transferred_setups : (transferred q reg b t s).setups = s.setups := emitAll_setups ..
@[simp] theorem transferred_port : (transferred q reg b t s).port = s.port := emitAll_port ..
@[simp] theorem transferred_host : (transferred q reg b t s).host = s.host := emitAll_host ..
@[simp] theorem transferred_tape : (transferred q reg b t s).tape = s.tape := emitAll_tape ..
@[simp] theorem transferred_reads : (transferred q reg b t s).reads = s.reads := emitAll_reads ..
@[simp] theorem transferred_status : (transferred q reg b t s).status =
    statusSetRdy (decide (q .postwait = .idle)) (statusSetRdy (decide (q .xfer = .idle)) s.status) := emitAll_status ..

/-- The transfer and its delay are what is emitted (R120). -/
theorem emitted_transferred :
    Emitted s (transferred q reg b t s) (xferEvents s.con reg b ++ postwaitEvents s.con t) :=
  ⟨emitAll_h .., emitAll_dir .., emitAll_out .., emitAll_tmr ..⟩

/-- A transfer uses no answer of the environment. -/
theorem answered_transferred {s u : State} {n : Nat} (h : Answered s u n) :
    Answered s (transferred q reg b t u) n :=
  ⟨(transferred_tape ..).trans h.1, (transferred_reads ..).trans h.2⟩

end Lines

theorem postwaitEvents_fixed {c : Consts} (h : busyFlagPoll c = false) (t : Nat) :
    postwaitEvents c t = delayEvents t := by
  simp [postwaitEvents, h]

theorem postwaitEvents_poll {c : Consts} (h : busyFlagPoll c = true) (t : Nat) : postwaitEvents c t = [] := by
  simp [postwaitEvents, h]

/-! ### An operation that is one transfer -/

/-- An operation whose lines are one transfer has the effect of one: the transfer with its delay, or the poll and then
the transfer, or the failed poll (R120; 42_handshake.md R105 to R111). -/
theorem transferEffect_of_linesOf {i : Instr} {reg : DevReg} {b : Byte} {wait : Params → Nat}
    (hw : i.wellFormed = true)
    (hlines : ∀ c : Consts, linesOf i c = transferLines .op reg b (wait c.prm) ++ [.seq .idle]) :
    TransferEffect i reg b wait := by
  intro s hrdy
  have hexec : exec i s = .next (run (.prewait :: (afterPrewaitLines .op reg b (wait s.con.prm) ++ [.seq .idle]))
      (loaded .op reg b s)) := by
    rw [exec_eq hw, accept_eq, if_pos hrdy, hlines, run_transferLines]
  refine ⟨fun hfixed => ?_, fun hpoll k hbusy hidle hbound => ?_, fun hpoll m hm hbound hbusy => ?_⟩
  · rw [run_prewait_fixed (s := loaded .op reg b s) hfixed, run_afterPrewaitLines] at hexec
    have hemit := emitted_transferred .op reg b (wait s.con.prm) (loaded .op reg b s)
    rw [loaded_con, postwaitEvents_fixed hfixed] at hemit
    exact ⟨_, hexec, emitted_run_seqIdle hemit, by simp [Kept, State.cfgErr, State.noResp],
      answered_run_seqIdle (answered_transferred _ _ _ _ ⟨rfl, rfl⟩), idleReady_run_seqIdle _, by simp⟩
  · have hrun := core_run_prewait_idle (s := loaded .op reg b s) hpoll
      (afterPrewaitLines .op reg b (wait s.con.prm) ++ [.seq .idle]) hbusy hidle hbound
    rw [run_afterPrewaitLines] at hrun
    have hemit := emitted_append (emitted_polled (pollEvents s.con k) (k + 1) false (loaded .op reg b s))
      (emitted_transferred .op reg b (wait s.con.prm) _)
    rw [polled_con, loaded_con, postwaitEvents_poll hpoll, List.append_nil] at hemit
    exact ⟨_, k, _, hexec, hrun, emitted_run_seqIdle hemit, by simp [Kept, State.cfgErr, State.noResp],
      answered_run_seqIdle (answered_transferred _ _ _ _ (answered_polled ..)), idleReady_run_seqIdle _, by simp⟩
  · obtain ⟨k, rfl⟩ := Nat.exists_eq_add_of_le' hm
    exact ⟨_, k, _, hexec, core_run_prewait_bound (s := loaded .op reg b s) hpoll _ hbusy hbound,
      emitted_raise (emitted_polled ..) _, answered_raise (answered_polled ..) _,
      idleReady_raise .., by simp [State.noResp], by simp [State.cfgErr], by simp⟩

/-! ### The instruction bytes, as the numbers of R123 to R127 -/

theorem entryModeByte_eq_ofNat (inc shift : Bool) :
    entryModeByte inc shift = BitVec.ofNat 8 (0x04 + (if inc then 0x02 else 0) + (if shift then 0x01 else 0)) := by
  revert inc shift; decide

theorem displayByte_eq_ofNat (on cursor blink : Bool) : displayByte on cursor blink =
    BitVec.ofNat 8 (0x08 + (if on then 0x04 else 0) + (if cursor then 0x02 else 0) + (if blink then 0x01 else 0)) := by
  revert on cursor blink; decide

theorem shiftByte_eq_ofNat (disp right : Bool) :
    shiftByte disp right = BitVec.ofNat 8 (0x10 + (if disp then 0x08 else 0) + (if right then 0x04 else 0)) := by
  revert disp right; decide

/-- An address that fits below the opcode bit is added to it as it is OR-ed to it. -/
theorem cgramByte_eq_ofNat {a : Nat} (h : a ≤ 63) : cgramByte a = BitVec.ofNat 8 (0x40 + a) := by
  have hor : 0x40 + a = 0x40 ||| a := Nat.two_pow_add_eq_or_of_lt (i := 6) (by omega) 1
  rw [hor, BitVec.ofNat_or, cgramByte]

theorem ddramByte_eq_ofNat {a : Nat} (h : a ≤ 127) : ddramByte a = BitVec.ofNat 8 (0x80 + a) := by
  have hor : 0x80 + a = 0x80 ||| a := Nat.two_pow_add_eq_or_of_lt (i := 7) (by omega) 1
  rw [hor, BitVec.ofNat_or, ddramByte]

/-! ### The operations -/

/-- Settles O19: CLEAR is one transfer, of the long delay class. -/
theorem clearEffect : Obligations.ClearEffect :=
  ⟨by decide, transferEffect_of_linesOf rfl fun _ => rfl⟩

/-- Settles O20: HOME is one transfer, of the long delay class. -/
theorem homeEffect : Obligations.HomeEffect :=
  ⟨by decide, by decide, transferEffect_of_linesOf rfl fun _ => rfl⟩

/-- Settles O21: ENTRY_MODE is one transfer, of its word's byte. -/
theorem entryModeEffect : Obligations.EntryModeEffect := by
  intro inc shift
  constructor
  · revert inc shift; decide
  · rw [← entryModeByte_eq_ofNat]
    exact transferEffect_of_linesOf rfl fun _ => rfl

/-- Settles O22: DISPLAY is one transfer, of its word's byte. -/
theorem displayEffect : Obligations.DisplayEffect := by
  intro on cursor blink
  constructor
  · revert on cursor blink; decide
  · rw [← displayByte_eq_ofNat]
    exact transferEffect_of_linesOf rfl fun _ => rfl

/-- Settles O23: SHIFT is one transfer, of its word's byte; the twelve reserved words of its range match no row. -/
theorem shiftEffect : Obligations.ShiftEffect := by
  refine ⟨fun disp right => ⟨?_, ?_⟩, by decide⟩
  · revert disp right; decide
  · rw [← shiftByte_eq_ofNat]
    exact transferEffect_of_linesOf rfl fun _ => rfl

/-- Settles O25: an address that fits its field is one transfer, any other no operation. -/
theorem setCgramEffect : Obligations.SetCgramEffect := by
  refine ⟨fun a ha => ⟨decode_setCgram ha, ?_⟩,
    fun a s ha => exec_illFormed (i := .setCgram a) (decide_eq_false (by omega)) s⟩
  rw [← cgramByte_eq_ofNat ha]
  exact transferEffect_of_linesOf (decide_eq_true ha) fun _ => rfl

/-- Settles O26: an address that fits its field is one transfer, any other no operation. -/
theorem setDdramEffect : Obligations.SetDdramEffect := by
  refine ⟨fun a ha => ⟨decode_setDdram ha, ?_⟩,
    fun a s ha => exec_illFormed (i := .setDdram a) (decide_eq_false (by omega)) s⟩
  rw [← ddramByte_eq_ofNat ha]
  exact transferEffect_of_linesOf (decide_eq_true ha) fun _ => rfl

/-- Settles O27: WRITE_DATA is one transfer, of its operand to the Data register. -/
theorem writeDataEffect : Obligations.WriteDataEffect :=
  fun b => ⟨decode_writeData b, transferEffect_of_linesOf rfl fun _ => rfl⟩

end Sys2Proof.Machine
end

section
/-! PROOF. The words of the operations that carry an address or a byte, and with them the pseudo-operations MOVE_TO,
PRINT_CHAR, DEFINE_CHAR and PRINT_STR (44_compound.md R141 to R146). -/

namespace Sys2Proof.Machine

/-! ### The word of an operand -/

/-- A word is its two fields side by side (30_encoding.md R60). -/
theorem opWord_eq_ofNat (sel : BitVec 2) (b : Byte) : opWord sel b = BitVec.ofNat 10 (0x100 * sel.toNat + b.toNat) := by
  have hfields : 0x100 * sel.toNat + b.toNat = sel.toNat <<< 8 ||| b.toNat := by
    rw [Nat.shiftLeft_eq, Nat.mul_comm sel.toNat]
    exact Nat.two_pow_add_eq_or_of_lt b.isLt sel.toNat
  rw [hfields, ← BitVec.toNat_append, BitVec.ofNat_toNat, BitVec.setWidth_eq, opWord]

theorem encode_writeData (b : Byte) : encode (.writeData b) = BitVec.ofNat 10 (0x100 + b.toNat) := by
  simpa [encode] using opWord_eq_ofNat 1#2 b

theorem encode_setCgram {a : Nat} (h : a ≤ 63) : encode (.setCgram a) = BitVec.ofNat 10 (0x040 + a) := by
  have hbyte : (cgramByte a).toNat = 0x40 + a := by
    rw [cgramByte_eq_ofNat h, BitVec.toNat_ofNat]
    omega
  simpa [encode, hbyte] using opWord_eq_ofNat 0#2 (cgramByte a)

theorem encode_setDdram {a : Nat} (h : a ≤ 127) : encode (.setDdram a) = BitVec.ofNat 10 (0x080 + a) := by
  have hbyte : (ddramByte a).toNat = 0x80 + a := by
    rw [ddramByte_eq_ofNat h, BitVec.toNat_ofNat]
    omega
  simpa [encode, hbyte] using opWord_eq_ofNat 0#2 (ddramByte a)

/-! ### PRINT_CHAR and PRINT_STR -/

/-- Settles O44: the expansion is the encoder's word of WRITE_DATA. -/
theorem printCharExpansion : Obligations.PrintCharExpansion :=
  fun _ b => congrArg (fun w => Expansion.words [w]) (encode_writeData b)

theorem expand_printStr_unterminated (c : Consts) {cs : List Byte} (h : strTerm ∉ cs) :
    expand c (.printStr cs) = .refuse .unterminatedString :=
  if_neg h

/-- What stands after the first terminator makes no difference. -/
theorem expand_printStr_terminated (c : Consts) {cs : List Byte} (h : strTerm ∉ cs) (rest : List Byte) :
    expand c (.printStr (cs ++ strTerm :: rest)) = .words (cs.map fun b => encode (.writeData b)) := by
  have hchars : (cs ++ strTerm :: rest).takeWhile (fun b => b != strTerm) = cs := by
    rw [List.takeWhile_append_of_pos fun b hb => by simpa using ne_of_mem_of_not_mem hb h]
    simp
  rw [expand, expandPrintStr, if_pos (by simp), hchars]

/-- Settles O46: the characters taken are those before the first terminator, and each one's word is WRITE_DATA's. -/
theorem printStrExpansion : Obligations.PrintStrExpansion := by
  intro c cs hcs
  have hnone : strTerm ∉ cs := fun hmem => hcs _ hmem rfl
  refine ⟨expand_printStr_unterminated c hnone, fun rest => ?_⟩
  simp only [← encode_writeData]
  exact expand_printStr_terminated c hnone rest

/-! ### MOVE_TO -/

section MoveTo
variable {c : Consts} {col row : Nat}

theorem expand_moveTo_noPosition (h : col = 0 ∨ row = 0) : expand c (.moveTo col row) = .refuse .operandOutOfRange :=
  if_pos h

theorem expand_moveTo_noRow (h2 : twoLines c = true) (h : row > 4) :
    expand c (.moveTo col row) = .refuse .operandOutOfRange := by
  simp only [expand, expandMoveTo, h2, h, and_self, if_true, ite_self]

/-- For a position the geometry has, what is left is the check of the address. -/
theorem expand_moveTo_position (hcol : 1 ≤ col) (hrow : 1 ≤ row) (hrows : twoLines c = true → row ≤ 4) :
    expand c (.moveTo col row) = if ddaddr c col row > 127 then .refuse .operandOutOfRange
      else .words [encode (.setDdram (ddaddr c col row))] := by
  have hpos : ¬ (col = 0 ∨ row = 0) := by omega
  have hgeom : ¬ (twoLines c = true ∧ row > 4) := fun ⟨h2, h4⟩ => absurd (hrows h2) (by omega)
  rw [expand, expandMoveTo, if_neg hpos, if_neg hgeom]

theorem ddaddr_oneLine (h : twoLines c = false) : ddaddr c col row = (row - 1) * c.cols.toNat + (col - 1) := by
  simp [ddaddr, h]

theorem ddaddr_twoLines (h : twoLines c = true) : ddaddr c col row = rowBase c row + (col - 1) := by
  simp [ddaddr, h]

end MoveTo

/-- Settles O43: the formulas of R141 are `ddaddr`'s, row by row, and the word is SET_DDRAM's. -/
theorem moveToExpansion : Obligations.MoveToExpansion := by
  intro c col row
  refine ⟨expand_moveTo_noPosition, expand_moveTo_noRow, fun a hcol hrow htwo hone => ?_⟩
  have haddr : a = ddaddr c col row := by
    cases h2 : twoLines c with
    | false => rw [hone h2, ddaddr_oneLine h2]
    | true =>
      obtain ⟨h4, hr1, hr2, hr3, hr4⟩ := htwo h2
      rw [ddaddr_twoLines h2]
      obtain rfl | rfl | rfl | rfl : row = 1 ∨ row = 2 ∨ row = 3 ∨ row = 4 := by omega
      · simpa [rowBase] using hr1
      · simpa [rowBase] using hr2
      · simpa [rowBase] using hr3
      · simpa [rowBase] using hr4
  rw [expand_moveTo_position hcol hrow fun h2 => (htwo h2).1, ← haddr]
  exact ⟨fun hbig => if_pos hbig, fun hfit => by rw [if_neg (by omega), encode_setDdram hfit]⟩

/-! ### The host's next request -/

section NextRequest
variable {s : State} {r : Request} {rs : List Request}

/-- An idle, ready block whose port is empty turns to the host's next request (20_memory.md R54). -/
theorem step_request (h : IdleReady s) (hport : s.port = []) (hhost : s.host = r :: rs) :
    step s = present r { s with host := rs } := by
  simp only [step_ready h, idleStep, hport, hhost]

/-- A request that fails its check with ConfigurationError raises it before any event (44_compound.md R145). -/
theorem step_request_configurationError (h : IdleReady s) (hport : s.port = [])
    (hhost : s.host = r :: rs) (hexp : expand s.con r = .configurationError) :
    step s = .next (raise .configurationError { s with host := rs }) := by
  rw [step_request h hport hhost]
  simp only [present, hexp]

end NextRequest

/-! ### DEFINE_CHAR -/

/-- `ROWS` by the number of bit 4 of `CFG` (10_state.md R28). -/
theorem glyphRows_eq (c : Consts) : glyphRows c = if c.cfg.toNat / 16 % 2 = 1 then 11 else 8 := by
  simp [glyphRows, tallFont, BitVec.getLsbD, Nat.testBit_eq_decide_div_mod_eq]

/-- Of a list of pairs laid end to end, the `r`-th pair stands at `2 * r` and after it. -/
theorem getElem?_flatMap_pair {α β : Type} (f g : α → β) (l : List α) (r : Nat) :
    (l.flatMap fun x => [f x, g x])[2 * r]? = l[r]?.map f ∧
    (l.flatMap fun x => [f x, g x])[2 * r + 1]? = l[r]?.map g := by
  induction l generalizing r with
  | nil => simp
  | cons x l ih =>
    cases r with
    | zero => simp
    | succ r => simpa [Nat.mul_succ] using ih r

theorem length_glyphWords (c : Consts) (x : Nat) (bm : List Byte) :
    (bm.zipIdx.flatMap (glyphRowWords c x)).length = 2 * bm.length := by
  simp [List.length_flatMap, glyphRowWords, Nat.mul_comm]

/-- The pair of words of row `r`. -/
theorem getElem?_glyphWords (c : Consts) (x : Nat) (bm : List Byte) {r : Nat} (hr : r < bm.length) :
    (bm.zipIdx.flatMap (glyphRowWords c x))[2 * r]? = some (encode (.setCgram (cgaddr c x r))) ∧
    (bm.zipIdx.flatMap (glyphRowWords c x))[2 * r + 1]? = some (encode (.writeData bm[r])) := by
  have hpair := getElem?_flatMap_pair (fun rb : Byte × Nat => encode (.setCgram (cgaddr c x rb.2)))
    (fun rb => encode (.writeData rb.1)) bm.zipIdx r
  simp only [List.getElem?_zipIdx, List.getElem?_eq_getElem hr, Option.map_some, Nat.zero_add] at hpair
  exact hpair

section DefineChar
variable {c : Consts} {x : Nat} {bm : List Byte}

theorem expand_defineChar_length (h : bm.length ≠ glyphRows c) : expand c (.defineChar x bm) = .configurationError :=
  if_pos h

theorem expand_defineChar_range (h : bm.length = glyphRows c) (hx : cgaddr c x (glyphRows c - 1) > 63) :
    expand c (.defineChar x bm) = .refuse .operandOutOfRange := by
  rw [expand, expandDefineChar, if_neg (not_not.2 h), if_pos hx]

theorem expand_defineChar_words (h : bm.length = glyphRows c) (hx : cgaddr c x (glyphRows c - 1) ≤ 63) :
    expand c (.defineChar x bm) = .words (bm.zipIdx.flatMap (glyphRowWords c x)) := by
  rw [expand, expandDefineChar, if_neg (not_not.2 h), if_neg (by omega)]

end DefineChar

/-- Settles O45: the length check stands before the range check, and past both the words are the pairs of R145. -/
theorem defineCharExpansion : Obligations.DefineCharExpansion := by
  intro c x bm rows hrows
  rw [← glyphRows_eq] at hrows
  subst hrows
  refine ⟨expand_defineChar_length, expand_defineChar_range, fun hlen hx => ?_, fun s rs hs hcon hport hhost hlen => ?_⟩
  · refine ⟨_, expand_defineChar_words hlen hx, by rw [length_glyphWords, hlen], fun r hr => ?_⟩
    have haddr : cgaddr c x r ≤ 63 := by unfold cgaddr; omega
    rw [← encode_writeData]
    exact encode_setCgram haddr ▸ getElem?_glyphWords c x bm hr
  · subst hcon
    exact ⟨_, step_request_configurationError hs hport hhost (expand_defineChar_length hlen),
      by simp [State.cfgErr], rfl, idleReady_raise ..⟩

end Sys2Proof.Machine
end

section
/-! PROOF. The decoder and the encoder are inverse to each other (30_encoding.md R60 to R66). -/

namespace Sys2Proof.Machine

/-- Settles O1: the rows with flags alone are finite tables; an address or a byte is read back by number. -/
theorem decodeOfEncode : Obligations.DecodeOfEncode := by
  intro i hw
  cases i with
  | clear => decide
  | home => decide
  | entryMode inc shift => revert inc shift; decide
  | display on cursor blink => revert on cursor blink; decide
  | shift disp right => revert disp right; decide
  | functionSet eightBit twoLine tall ign => revert eightBit twoLine tall ign; decide
  | setCgram a =>
    have ha : a ≤ 63 := of_decide_eq_true hw
    rw [encode_setCgram ha, decode_setCgram ha]
  | setDdram a =>
    have ha : a ≤ 127 := of_decide_eq_true hw
    rw [encode_setDdram ha, decode_setDdram ha]
  | writeData b => rw [encode_writeData, decode_writeData]
  | wait => decide
  | setup => decide

/-- A number below 1024 that is `p` and a rest below `n` is the word of `p` and that rest. -/
theorem exists_eq_ofNat_add {w : OpWord} {p n : Nat} (h : p ≤ w.toNat ∧ w.toNat < p + n) :
    ∃ a : Fin n, w = BitVec.ofNat 10 (p + a.val) :=
  ⟨⟨w.toNat - p, by omega⟩, by simp [Nat.add_sub_cancel' h.1]⟩

/-- Every word of the table is the word of a well-formed operation: the flags of its row are at its low bits, and its
address or byte is what the row's number leaves. -/
theorem exists_encode_eq {i : Instr} {w : OpWord} (h : RowNumber i w.toNat) :
    ∃ j : Instr, j.wellFormed = true ∧ encode j = w := by
  cases i with
  | clear => exact ⟨.clear, rfl, BitVec.eq_of_toNat_eq (Eq.symm h)⟩
  | home => exact ⟨.home, rfl, BitVec.eq_of_toNat_eq (Eq.symm h)⟩
  | entryMode _ _ =>
    obtain ⟨a, rfl⟩ := exists_eq_ofNat_add (n := 4) h
    have hflags : ∀ a : Fin 4, ∃ inc shift, encode (.entryMode inc shift) = BitVec.ofNat 10 (0x004 + a.val) := by decide
    obtain ⟨inc, shift, heq⟩ := hflags a
    exact ⟨_, rfl, heq⟩
  | display _ _ _ =>
    obtain ⟨a, rfl⟩ := exists_eq_ofNat_add (n := 8) h
    have hflags : ∀ a : Fin 8, ∃ on cursor blink,
        encode (.display on cursor blink) = BitVec.ofNat 10 (0x008 + a.val) := by decide
    obtain ⟨on, cursor, blink, heq⟩ := hflags a
    exact ⟨_, rfl, heq⟩
  | shift _ _ =>
    obtain ⟨a, rfl⟩ := exists_eq_ofNat_add (n := 16) h.1
    have hflags : ∀ a : Fin 16, (BitVec.ofNat 10 (0x010 + a.val)).toNat % 4 = 0 →
        ∃ disp right, encode (.shift disp right) = BitVec.ofNat 10 (0x010 + a.val) := by decide
    obtain ⟨disp, right, heq⟩ := hflags a h.2
    exact ⟨_, rfl, heq⟩
  | functionSet _ _ _ _ =>
    obtain ⟨a, rfl⟩ := exists_eq_ofNat_add (n := 32) h
    have hflags : ∀ a : Fin 32, ∃ e l f ign,
        encode (.functionSet e l f ign) = BitVec.ofNat 10 (0x020 + a.val) := by decide
    obtain ⟨e, l, f, ign, heq⟩ := hflags a
    exact ⟨_, rfl, heq⟩
  | setCgram _ =>
    obtain ⟨a, rfl⟩ := exists_eq_ofNat_add (n := 64) h
    have ha : a.val ≤ 63 := by omega
    exact ⟨.setCgram a, decide_eq_true ha, encode_setCgram ha⟩
  | setDdram _ =>
    obtain ⟨a, rfl⟩ := exists_eq_ofNat_add (n := 128) h
    have ha : a.val ≤ 127 := by omega
    exact ⟨.setDdram a, decide_eq_true ha, encode_setDdram ha⟩
  | writeData _ =>
    obtain ⟨a, rfl⟩ := exists_eq_ofNat_add (n := 256) h
    exact ⟨.writeData (BitVec.ofFin a), rfl, encode_writeData _⟩
  | wait => exact ⟨.wait, rfl, BitVec.eq_of_toNat_eq (Eq.symm h)⟩
  | setup => exact ⟨.setup, rfl, BitVec.eq_of_toNat_eq (Eq.symm h)⟩

/-- Settles O2: a word that decodes is the word of some well-formed operation, which is then the one it decodes to. -/
theorem encodeOfDecode : Obligations.EncodeOfDecode := by
  intro w i h
  obtain ⟨j, hj, rfl⟩ := exists_encode_eq (rowNumber_of_decode h)
  rw [decodeOfEncode j hj] at h
  cases h
  exact ⟨hj, rfl⟩

/-- Settles O4: eleven closed instances of the decoder. -/
theorem tableWordsDecode : Obligations.TableWordsDecode := by
  unfold Obligations.TableWordsDecode; decide

end Sys2Proof.Machine
end

section
/-! PROOF. The induction over a run of the sequencer, once, with what it gives about the sequencer's state, the error
bits and the end of bounded polls (10_state.md R16, R25; 60_exceptions.md; 70_reset_and_hazards.md R202). -/

namespace Sys2Proof.Machine

/-! ### The induction over a run -/

/-- A relation between the lines, the state they run from and the state they leave holds of every run if it holds of
each way the next line can go. -/
theorem run_induction {M : List Act → State → State → Prop}
    (nil : ∀ s, M [] s { s with todo := [] })
    (plain : ∀ a k s t, a.plain = true → M k (act a s) t → M (a :: k) s t)
    (fixed : ∀ k s t, busyFlagPoll s.con = false → M k s t → M (.prewait :: k) s t)
    (poll : ∀ k s t, busyFlagPoll s.con = true → M (.pollLoop :: k) (pollBegin s) t → M (.prewait :: k) s t)
    (idle : ∀ k s t, s.answer 0 = .low → M k (pollEnd (sampled s)) t → M (.pollLoop :: k) s t)
    (raised : ∀ k s, s.answer 0 = .high → s.con.prm.bfRetryMax = some (s.pcnt + 1) →
      M (.pollLoop :: k) s (raise .deviceNotResponding (pollEnd (sampled s))))
    (busy : ∀ k s, s.answer 0 = .high → s.con.prm.bfRetryMax ≠ some (s.pcnt + 1) →
      M (.pollLoop :: k) s { sampled s with todo := .pollLoop :: k })
    (k : List Act) (s : State) : M k s (run k s) := by
  have loop (k : List Act) (ih : ∀ s, M k s (run k s)) (s : State) : M (.pollLoop :: k) s (run (.pollLoop :: k) s) := by
    rcases pollTurn_cases s with ⟨hl, -⟩ | ⟨hh, hb, -⟩ | ⟨hh, hb, -⟩
    · rw [run_pollLoop_low hl]; exact idle _ _ _ hl (ih _)
    · rw [run_pollLoop_bound hh hb]; exact raised _ _ hh hb
    · rw [run_pollLoop_high hh hb]; exact busy _ _ hh hb
  induction k generalizing s with
  | nil => exact nil s
  | cons a k ih =>
    have hplain (ha : a.plain = true) : M (a :: k) s (run (a :: k) s) := by
      rw [run_plain ha]; exact plain _ _ _ _ ha (ih _)
    cases a with
    | prewait =>
      cases hc : busyFlagPoll s.con with
      | false => rw [run_prewait_fixed hc]; exact fixed _ _ _ hc (ih s)
      | true => rw [run_prewait_poll hc]; exact poll _ _ _ hc (loop k ih _)
    | pollLoop => exact loop k ih s
    | _ => exact hplain rfl

/-! ### The lines of an operation -/

/-- Every operation is one transfer to Instruction or Data, or WAIT, or SETUP (43_commands.md R120). -/
theorem linesOf_cases (i : Instr) :
    (∃ reg b, ∃ wait : Params → Nat, transferOf i = some (reg, b) ∧ selectedRw reg = .low ∧
      ∀ c : Consts, linesOf i c = transferLines .op reg b (wait c.prm) ++ [.seq .idle]) ∨
    i = .wait ∨ i = .setup := by
  cases i with
  | clear => exact .inl ⟨_, _, Params.tClear, rfl, rfl, fun _ => rfl⟩
  | home => exact .inl ⟨_, _, Params.tClear, rfl, rfl, fun _ => rfl⟩
  | wait => exact .inr (.inl rfl)
  | setup => exact .inr (.inr rfl)
  | _ => exact .inl ⟨_, _, Params.tCmd, rfl, rfl, fun _ => rfl⟩

/-- The lines of SETUP after its count and before `S_FUNC` (45_init.md R156 to R159). -/
def afterCountLines (c : Consts) : List Act :=
  [.seq .sPincfg, .pinConfig, .seq .sPwrwait, .delay c.prm.tPwr] ++
    (List.range (forceCount c)).flatMap (fun k => forceEightLines c (k + 1)) ++ setFourLines c

/-- The lines of SETUP before `S_FUNC` (45_init.md R155 to R159). -/
def openingLines (c : Consts) : List Act := .countSetup :: afterCountLines c

/-- The steps `S_FUNC` .. `S_DON`, each with its byte and its delay (45_init.md R160 to R164). -/
def setupSteps (c : Consts) : List (SetupStep × Byte × Nat) :=
  [(.func, funcByte c, c.prm.tCmd), (.doff, 0x08#8, c.prm.tCmd), (.home, 0x02#8, c.prm.tClear),
   (.clear, 0x01#8, c.prm.tClear), (.entry, 0x06#8, c.prm.tCmd), (.don, 0x0C#8, c.prm.tCmd)]

/-- The lines of such steps. -/
def stepsLines (l : List (SetupStep × Byte × Nat)) : List Act :=
  l.flatMap fun p => transferLines (.sStep p.1) .instruction p.2.1 p.2.2

theorem setupLines_eq (c : Consts) :
    setupLines c = openingLines c ++ (stepsLines (setupSteps c) ++ [.seq .idle]) := by
  simp [setupLines, openingLines, afterCountLines, setupSteps, stepsLines, setupStepLines, displayByte,
    entryModeByte, flagAt]

/-- What the lines of an operation may be: no poll's loop, and `SEQ <- IDLE` only at the end. -/
abbrev LineOfOperation (a : Act) : Prop := a ≠ .pollLoop ∧ a ≠ .seq .idle

theorem lineOfOperation_transferLines {q : Phase → SeqState} (hq : ∀ ph, q ph ≠ .idle) (reg : DevReg) (b : Byte)
    (t : Nat) : ∀ a ∈ transferLines q reg b t, LineOfOperation a := by
  simp [transferLines, LineOfOperation, hq]

/-- The lines after SETUP's count wait for nothing, count nothing and do not end the operation. -/
theorem afterCountLines_plain (c : Consts) :
    ∀ a ∈ afterCountLines c, a.plain = true ∧ a ≠ .countSetup ∧ a ≠ .seq .idle := by
  have hforce (k : Nat) : ∀ a ∈ forceEightLines c k, a.plain = true ∧ a ≠ .countSetup ∧ a ≠ .seq .idle := by
    unfold forceEightLines
    split <;> simp [Act.plain]
  have hset : ∀ a ∈ setFourLines c, a.plain = true ∧ a ≠ .countSetup ∧ a ≠ .seq .idle := by
    unfold setFourLines
    split <;> simp [Act.plain]
  intro a ha
  simp only [afterCountLines, List.mem_append, List.mem_flatMap] at ha
  obtain (ha | ⟨k, -, ha⟩) | ha := ha
  · revert a
    simp [Act.plain]
  · exact hforce _ a ha
  · exact hset a ha

theorem lineOfOperation_openingLines (c : Consts) : ∀ a ∈ openingLines c, LineOfOperation a := by
  refine List.forall_mem_cons.2 ⟨⟨nofun, nofun⟩, fun a ha => ?_⟩
  obtain ⟨hplain, -, hidle⟩ := afterCountLines_plain c a ha
  exact ⟨fun h => by simp [h, Act.plain] at hplain, hidle⟩

theorem lineOfOperation_stepsLines (l : List (SetupStep × Byte × Nat)) : ∀ a ∈ stepsLines l, LineOfOperation a := by
  intro a ha
  obtain ⟨p, -, ha⟩ := List.mem_flatMap.1 ha
  exact lineOfOperation_transferLines (q := .sStep p.1) nofun _ _ _ a ha

/-- The lines of an operation end in `SEQ <- IDLE`, and neither it nor a poll's loop stands among those before. -/
theorem exists_linesOf_eq (i : Instr) (c : Consts) :
    ∃ k, linesOf i c = k ++ [.seq .idle] ∧ ∀ a ∈ k, LineOfOperation a := by
  rcases linesOf_cases i with ⟨reg, b, wait, -, -, hl⟩ | rfl | rfl
  · exact ⟨_, hl c, lineOfOperation_transferLines (q := .op) nofun _ _ _⟩
  · exact ⟨[.seq (.op .prewait), .prewait], rfl, by simp [LineOfOperation]⟩
  · refine ⟨_, (setupLines_eq c).trans (List.append_assoc ..).symm, fun a ha => ?_⟩
    exact (List.mem_append.1 ha).elim (lineOfOperation_openingLines c a) (lineOfOperation_stepsLines _ a)

theorem pollLoop_not_mem_linesOf (i : Instr) (c : Consts) : Act.pollLoop ∉ linesOf i c := by
  obtain ⟨k, hl, hk⟩ := exists_linesOf_eq i c
  rw [hl]
  simpa using fun h => (hk _ h).1 rfl

/-! ### The sequencer -/

/-- An operation is in progress: SEQ is not IDLE and RDY is 0 (10_state.md R16, R25). -/
abbrev InProgress (s : State) : Prop := s.seq ≠ .idle ∧ s.rdy = false

theorem inProgress_setSeq {q : SeqState} (hq : q ≠ .idle) (s : State) : InProgress (setSeq q s) :=
  ⟨hq, (statusRdy_setRdy s.status _).trans (decide_eq_false hq)⟩

/-- A line that is no `SEQ <- IDLE` leaves the operation in progress. -/
theorem inProgress_act {a : Act} (ha : a ≠ .seq .idle) {s : State} (hs : InProgress s) : InProgress (act a s) := by
  cases a with
  | seq q => exact inProgress_setSeq (fun h => ha (congrArg Act.seq h)) s
  | _ => simpa [InProgress, act, xfer, State.rdy] using hs

/-- The lines left fit the sequencer: none of a block that is idle and ready; of one with an operation in progress,
lines the last of which and no other is `SEQ <- IDLE`. -/
def OnCourse (l : List Act) (s : State) : Prop :=
  (l = [] ∧ s.seq = .idle ∧ s.rdy = true) ∨
  (InProgress s ∧ ∃ k, l = k ++ [.seq .idle] ∧ Act.seq .idle ∉ k)

theorem not_onCourse_nil {s : State} (hs : InProgress s) : ¬ OnCourse [] s := by
  rintro (⟨-, hseq, -⟩ | ⟨-, k, hk, -⟩)
  · exact hs.1 hseq
  · simp at hk

/-- Where a line stands before others in progress, either it is the last, `SEQ <- IDLE`, or one of those before it. -/
theorem onCourse_cons {a : Act} {l : List Act} {s : State} (h : OnCourse (a :: l) s) :
    InProgress s ∧ ((a = .seq .idle ∧ l = []) ∨
      (a ≠ .seq .idle ∧ ∃ k, l = k ++ [.seq .idle] ∧ Act.seq .idle ∉ k)) := by
  obtain ⟨hl, -⟩ | ⟨hs, k, hk, hnot⟩ := h
  · cases hl
  · refine ⟨hs, ?_⟩
    cases k with
    | nil => simp at hk; exact .inl hk
    | cons b k =>
      obtain ⟨rfl, rfl⟩ : a = b ∧ l = k ++ [.seq .idle] := by simpa using hk
      exact .inr ⟨fun h => hnot (h ▸ .head _), k, rfl, fun h => hnot (.tail _ h)⟩

/-- A wait leaves what is after it on course. -/
theorem onCourse_of_wait {a : Act} (ha : a.plain = false) {l : List Act} {s t : State} (h : OnCourse (a :: l) s)
    (hseq : t.seq = s.seq) (hstatus : t.status = s.status) : OnCourse l t := by
  obtain ⟨hs, ⟨rfl, -⟩ | ⟨-, hk⟩⟩ := onCourse_cons h
  · cases ha
  · exact .inr ⟨by simpa [InProgress, State.rdy, hseq, hstatus] using hs, hk⟩

theorem onCourse_act {a : Act} {l : List Act} {s : State} (h : OnCourse (a :: l) s) : OnCourse l (act a s) := by
  obtain ⟨hs, ⟨rfl, rfl⟩ | ⟨ha, hk⟩⟩ := onCourse_cons h
  · exact .inl ⟨rfl, rfl, statusRdy_setRdy s.status true⟩
  · exact .inr ⟨inProgress_act ha hs, hk⟩

/-- Lines that fit the sequencer leave it consistent. -/
theorem sequencerConsistent_run {l : List Act} {s : State} (h : OnCourse l s) : SequencerConsistent (run l s) := by
  refine run_induction (M := fun l s t => OnCourse l s → SequencerConsistent t) ?nil ?plain ?fixed ?poll ?idle
    ?raised ?busy l s h
  case nil =>
    rintro s (⟨-, hseq, hrdy⟩ | ⟨hs, h⟩)
    · exact .inl ⟨hseq, hrdy, rfl⟩
    · exact absurd (.inr ⟨hs, h⟩) (not_onCourse_nil hs)
  case plain => exact fun a k s t _ ih h => ih (onCourse_act h)
  case fixed => exact fun k s t _ ih h => ih (onCourse_of_wait rfl h rfl rfl)
  case poll =>
    intro k s t _ ih h
    obtain ⟨hs, ⟨ha, -⟩ | ⟨-, k', rfl, hnot⟩⟩ := onCourse_cons h
    · cases ha
    · exact ih (.inr ⟨by simpa [InProgress, State.rdy, pollBegin] using hs, .pollLoop :: k', rfl, by simpa using hnot⟩)
  case idle => exact fun k s t _ ih h => ih (onCourse_of_wait rfl h (by simp [pollEnd]) (by simp [pollEnd]))
  case raised => exact fun k s _ _ _ => .inl (idleReady_raise ..)
  case busy =>
    intro k s _ _ h
    obtain ⟨⟨hseq, hrdy⟩, ⟨ha, -⟩ | ⟨-, k', rfl, hnot⟩⟩ := onCourse_cons h
    · cases ha
    · exact .inr ⟨by simpa using hseq, by simpa [State.rdy] using hrdy, k', rfl, hnot⟩

/-- Everything a step can do when it answers a next state, an operation by the lines it runs: it goes on with the lines
left, or, with none left, does nothing, runs an operation's lines, brings a request to the port, or raises
ConfigurationError for one. -/
theorem step_runs {s t : State} (h : step s = .next t) :
    (s.todo ≠ [] ∧ t = run s.todo s) ∨
    (s.todo = [] ∧
      (t = s ∨ (s.rdy = true ∧ ∃ i ws, t = run (linesOf i s.con) { s with port := ws }) ∨
        (∃ rs ws, t = { s with host := rs, port := ws }) ∨
        ∃ r rs, s.host = r :: rs ∧ expand s.con r = .configurationError ∧
          t = raise .configurationError { s with host := rs })) := by
  obtain h | ⟨htodo, -, rfl⟩ | ⟨htodo, -, hrdy, w, ws, i, -, -, -, hexec⟩ |
    ⟨htodo, -, -, -, r, rs, hhost, ⟨ws, -, rfl⟩ | ⟨hexp, rfl⟩⟩ := step_cases h
  · exact .inl h
  · exact .inr ⟨htodo, .inl rfl⟩
  · obtain ⟨-, hrun⟩ := exec_cases hexec
    exact .inr ⟨htodo, .inr (.inl ⟨hrdy, i, ws, hrun.trans (if_pos hrdy)⟩)⟩
  · exact .inr ⟨htodo, .inr (.inr (.inl ⟨rs, ws, rfl⟩))⟩
  · exact .inr ⟨htodo, .inr (.inr (.inr ⟨r, rs, hhost, hexp, rfl⟩))⟩

/-- The first lines of an operation bring the sequencer on course (R16). -/
theorem exists_onCourse (i : Instr) (s : State) :
    ∃ l u, run (linesOf i s.con) s = run l u ∧ OnCourse l u := by
  rcases linesOf_cases i with ⟨reg, b, wait, -, -, hl⟩ | rfl | rfl
  · refine ⟨_, loaded .op reg b s, by rw [hl, run_transferLines],
      .inr ⟨inProgress_setSeq (q := .op .prewait) nofun _, ?_⟩⟩
    exact ⟨.prewait :: afterPrewaitLines .op reg b (wait s.con.prm), rfl, by simp [afterPrewaitLines]⟩
  · exact ⟨[.prewait, .seq .idle], setSeq (.op .prewait) s, rfl,
      .inr ⟨inProgress_setSeq (q := .op .prewait) nofun s, [.prewait], rfl, by simp⟩⟩
  · refine ⟨_, setSeq .sPincfg (act .countSetup s), by rw [linesOf, setupLines_eq]; rfl,
      .inr ⟨inProgress_setSeq (q := .sPincfg) nofun _, (openingLines s.con).drop 2 ++ stepsLines (setupSteps s.con),
        ?_, fun h => ?_⟩⟩
    · simp [openingLines, afterCountLines]
    · obtain h | h := List.mem_append.1 h
      · exact (lineOfOperation_openingLines s.con _ (List.mem_of_mem_drop h)).2 rfl
      · exact (lineOfOperation_stepsLines _ _ h).2 rfl

/-- A consistent block with nothing left to do is idle and ready. -/
theorem SequencerConsistent.idleReady {s : State} (hs : SequencerConsistent s) (h : s.todo = []) : IdleReady s := by
  obtain hidle | ⟨-, -, k, hk, -⟩ := hs
  · exact hidle
  · simp [h] at hk

/-- Settles O50: a poll in progress is on course, an idle block takes an operation, a request or nothing. -/
theorem stepKeepsSequencerConsistent : Obligations.StepKeepsSequencerConsistent := by
  intro s t hs h
  obtain ⟨htodo, rfl⟩ | ⟨htodo, rfl | ⟨-, i, ws, rfl⟩ | ⟨rs, ws, rfl⟩ | ⟨r, rs, -, -, rfl⟩⟩ := step_runs h
  · obtain ⟨-, -, hidle⟩ | ⟨hseq, hrdy, k, hk, hnot⟩ := hs
    · exact absurd hidle htodo
    · exact sequencerConsistent_run (.inr ⟨⟨hseq, hrdy⟩, .pollLoop :: k, hk, by simpa using hnot⟩)
  · exact hs
  · obtain ⟨l, u, hrun, hu⟩ := exists_onCourse i { s with port := ws }
    exact hrun ▸ sequencerConsistent_run hu
  · exact .inl (hs.idleReady htodo)
  · exact .inl (idleReady_raise ..)

/-! ### No step is stuck -/

theorem idleStep_ne_fault (s : State) (f : Fault) : idleStep s ≠ .fault f := by
  have hexec (i : Instr) (u : State) : exec i u ≠ .fault f := by
    cases hw : i.wellFormed with
    | false => rw [exec_illFormed hw]; nofun
    | true => rw [exec_eq hw, accept_eq]; nofun
  unfold idleStep
  split
  · unfold runWord
    split
    · split
      · exact hexec _ _
      · nofun
    · nofun
  · unfold present
    split <;> nofun
  · nofun

/-- Settles O51: an operation in progress goes on, and an idle, ready block serves its port, which never faults. -/
theorem neverStuck : Obligations.NeverStuck := by
  intro s hs
  by_cases htodo : s.todo = []
  · have hidle := hs.idleReady htodo
    refine ⟨fun f => step_ready hidle ▸ idleStep_ne_fault s f, ?_⟩
    rintro (hne | ⟨hport, hhost⟩)
    · exact absurd htodo hne
    · exact ⟨s, by simp only [step_ready hidle, idleStep, hport, hhost]⟩
  · rw [step_busy htodo]
    exact ⟨nofun, fun _ => ⟨_, rfl⟩⟩

/-! ### The error bits -/

@[simp] theorem act_cfgErr (a : Act) (s : State) : (act a s).cfgErr = s.cfgErr := by
  cases a <;> simp [act, xfer, State.cfgErr]

@[simp] theorem act_port (a : Act) (s : State) : (act a s).port = s.port := by
  cases a <;> simp [act, xfer]

@[simp] theorem act_noResp (a : Act) (s : State) : (act a s).noResp = s.noResp := by
  cases a <;> simp [act, xfer, State.noResp]

/-- No run sets or clears CFGERR (60_exceptions.md R170). -/
theorem run_cfgErr (l : List Act) (s : State) : (run l s).cfgErr = s.cfgErr := by
  refine run_induction (M := fun _ s t => t.cfgErr = s.cfgErr) ?_ ?_ ?_ ?_ ?_ ?_ ?_ l s
  · exact fun s => rfl
  · exact fun a k s t _ ih => ih.trans (act_cfgErr a s)
  · exact fun k s t _ ih => ih
  · exact fun k s t _ ih => ih.trans (by simp [State.cfgErr, pollBegin])
  · exact fun k s t _ ih => ih.trans (by simp [State.cfgErr, pollEnd])
  · exact fun k s _ _ => by simp [State.cfgErr, pollEnd]
  · exact fun k s _ _ => by simp [State.cfgErr]

/-- How a run that sets NORESP has ended: a poll has reached its bound with a High sample, and D7 is an output again;
nothing is left at the port (60_exceptions.md R171, R175). -/
structure EndedAtBound (c : Consts) (t : State) : Prop where
  noResp : t.noResp = true
  port : t.port = []
  bound : c.prm.bfRetryMax = some t.pcnt
  high : t.bfs = true
  output : t.dir[resolve c d7] = .output

/-- A run without the end of a failed poll leaves NORESP and the port as they were; only a block that polls, or is in a
poll, comes to that end. -/
theorem run_noResp (l : List Act) (s : State) :
    ((run l s).noResp = s.noResp ∧ (run l s).port = s.port) ∨
      (EndedAtBound s.con (run l s) ∧ (busyFlagPoll s.con = true ∨ .pollLoop ∈ l)) := by
  refine run_induction (M := fun l s t => (t.noResp = s.noResp ∧ t.port = s.port) ∨
    (EndedAtBound s.con t ∧ (busyFlagPoll s.con = true ∨ .pollLoop ∈ l)))
    ?nil ?plain ?fixed ?poll ?idle ?raised ?busy l s
  case nil => exact fun s => .inl ⟨rfl, rfl⟩
  case plain =>
    intro a k s t _ ih
    simp only [act_con, act_noResp, act_port] at ih
    exact ih.imp_right (.imp_right (.imp_right (.tail a)))
  case fixed => exact fun k s t _ ih => ih.imp_right (.imp_right (.imp_right (.tail _)))
  case poll =>
    intro k s t hc ih
    refine ih.imp (fun h => ?_) fun h => ⟨?_, .inl hc⟩
    · simpa [State.noResp, pollBegin] using h
    · simpa [pollBegin] using h.1
  case idle =>
    intro k s t _ ih
    refine ih.imp (fun h => ?_) fun h => ?_
    · simpa [State.noResp, pollEnd] using h
    · exact ⟨by simpa [pollEnd] using h.1, .inr (.head _)⟩
  case raised =>
    refine fun k s hh hb => .inr ⟨⟨?_, rfl, ?_, ?_, ?_⟩, .inr (.head _)⟩
    · simp [State.noResp]
    · simpa [pollEnd] using hb
    · simp [pollEnd, hh, levelBit]
    · simp [pollEnd, pollEndEvents, dirsAfter_cons, dirAfter]
  case busy => exact fun k s _ _ => .inl (by simp [State.noResp])

/-- What a step does to the error bits: it keeps both; or a run keeps CFGERR and ends at a poll's bound; or a request
fails its check with ConfigurationError (60_exceptions.md R170, R171). -/
theorem step_errors {s t : State} (h : step s = .next t) :
    (t.cfgErr = s.cfgErr ∧ t.noResp = s.noResp) ∨
    (t.cfgErr = s.cfgErr ∧ EndedAtBound s.con t ∧ (busyFlagPoll s.con = true ∨ .pollLoop ∈ s.todo)) ∨
    (t.cfgErr = true ∧ t.noResp = s.noResp ∧ t.h = s.h ∧
      ∃ r rs, s.host = r :: rs ∧ expand s.con r = .configurationError) := by
  obtain ⟨-, rfl⟩ | ⟨-, rfl | ⟨-, i, ws, rfl⟩ | ⟨rs, ws, rfl⟩ | ⟨r, rs, hhost, hexp, rfl⟩⟩ := step_runs h
  · exact (run_noResp s.todo s).imp (fun h => ⟨run_cfgErr .., h.1⟩) fun h => .inl ⟨run_cfgErr .., h⟩
  · exact .inl ⟨rfl, rfl⟩
  · refine (run_noResp (linesOf i s.con) { s with port := ws }).imp (fun h => ⟨run_cfgErr .., h.1⟩)
      fun h => .inl ⟨run_cfgErr .., h.1, ?_⟩
    exact h.2.imp_right fun hmem => absurd hmem (pollLoop_not_mem_linesOf i s.con)
  · exact .inl ⟨rfl, rfl⟩
  · exact .inr (.inr ⟨by simp [State.cfgErr], by simp [State.noResp], rfl, r, rs, hhost, hexp⟩)

/-- Settles O40: in none of its three cases does a step clear a bit. -/
theorem errorBitsSticky : Obligations.ErrorBitsSticky := by
  intro s t h
  obtain ⟨hc, hn⟩ | ⟨hc, hend, -⟩ | ⟨hc, hn, -⟩ := step_errors h
  · exact ⟨hc.trans, hn.trans⟩
  · exact ⟨hc.trans, fun _ => hend.noResp⟩
  · exact ⟨fun _ => hc, hn.trans⟩

/-- Only DEFINE_CHAR checks for ConfigurationError, and only the length of its list (44_compound.md R145). -/
theorem exists_defineChar_of_configurationError {c : Consts} {r : Request} (h : expand c r = .configurationError) :
    ∃ x bm, r = .defineChar x bm ∧ bm.length ≠ glyphRows c := by
  cases r with
  | defineChar x bm =>
    refine ⟨x, bm, rfl, fun hlen => ?_⟩
    rw [expand, expandDefineChar, if_neg (not_not.2 hlen)] at h
    split at h <;> cases h
  | word _ => cases h
  | printChar _ => cases h
  | _ =>
    simp only [expand, expandAsm, expandMoveTo, expandPrintStr, expandPrintUint, expandPrintInt] at h
    split_ifs at h

/-- Settles O41: the one case of a step that sets CFGERR is a failed check of a request, and that is DEFINE_CHAR's. -/
theorem configErrorOnlyFromGlyphLength : Obligations.ConfigErrorOnlyFromGlyphLength := by
  intro s t h hs ht
  obtain ⟨hc, -⟩ | ⟨hc, -⟩ | ⟨-, -, hh, r, rs, hhost, hexp⟩ := step_errors h
  · simp [hc, hs] at ht
  · simp [hc, hs] at ht
  · obtain ⟨x, bm, rfl, hlen⟩ := exists_defineChar_of_configurationError hexp
    exact ⟨hh, x, bm, rs, hhost, hlen⟩

/-- Settles O42: the one case of a step that sets NORESP is a run that ends at a poll's bound. -/
theorem noRespOnlyAtBound : Obligations.NoRespOnlyAtBound := by
  intro s t h hs ht
  obtain ⟨-, hn⟩ | ⟨-, hend, hpoll⟩ | ⟨-, hn, -⟩ := step_errors h
  · simp [hn, hs] at ht
  · exact ⟨hend.bound, hend.high, hend.output, hpoll⟩
  · simp [hn, hs] at ht

/-! ### Bounded polls end -/

@[simp] theorem act_host (a : Act) (s : State) : (act a s).host = s.host := by
  cases a <;> simp [act, xfer]

/-- The lines, run from the state, come to an end after some more steps. -/
abbrev Ends (l : List Act) (s : State) : Prop :=
  ∃ n t, Host.Core.run Sys2Proof.core n (run l s) = .next t ∧ t.todo = [] ∧ t.con = s.con ∧ t.host = s.host

/-- With a bound, the loop of a poll comes to an end if the lines after it do: the samples left are counted down. -/
theorem ends_pollLoop {k : List Act} {m : Nat}
    (hk : ∀ s : State, s.con.prm.bfRetryMax = some m → Ends k s) {s : State} (hm : s.con.prm.bfRetryMax = some m)
    (hlt : s.pcnt < m) : Ends (.pollLoop :: k) s := by
  induction hleft : m - s.pcnt generalizing s with
  | zero => omega
  | succ left ih =>
    rcases pollTurn_cases s with ⟨hl, -⟩ | ⟨hh, hb, -⟩ | ⟨hh, hb, -⟩
    · obtain ⟨n, t, hrun, htodo, hcon, hhost⟩ := hk (pollEnd (sampled s)) (by simpa [pollEnd] using hm)
      exact ⟨n, t, by rw [run_pollLoop_low hl, hrun], htodo, by simpa [pollEnd] using hcon,
        by simpa [pollEnd] using hhost⟩
    · exact ⟨0, _, by rw [run_pollLoop_bound hh hb]; rfl, rfl, by simp [pollEnd], by simp [pollEnd]⟩
    · have hne : m ≠ s.pcnt + 1 := by simpa [hm] using hb
      obtain ⟨n, t, hrun, htodo, hcon, hhost⟩ := ih (s := sampled s) (by simpa using hm) (by simp; omega)
        (by simp; omega)
      have hstep : step (run (.pollLoop :: k) s) = .next (run (.pollLoop :: k) (sampled s)) := by
        rw [run_pollLoop_high hh hb, step_busy (List.cons_ne_nil _ _), run_todo]
      exact ⟨n + 1, t, by rw [core_run_succ hstep, hrun], htodo, by simpa using hcon, by simpa using hhost⟩

/-- With a bound, lines that begin outside a poll come to an end, whatever the device answers. -/
theorem ends_of_bound {m : Nat} (hm : 1 ≤ m) {l : List Act} (hl : Act.pollLoop ∉ l) {s : State}
    (hs : s.con.prm.bfRetryMax = some m) : Ends l s := by
  induction l generalizing s with
  | nil => exact ⟨0, _, rfl, rfl, rfl, rfl⟩
  | cons a k ih =>
    obtain ⟨hne, hk⟩ := not_or.1 (mt List.mem_cons.2 hl)
    by_cases ha : a.plain = true
    · have hend := ih hk (s := act a s) (by simpa using hs)
      simpa [Ends, run_plain ha] using hend
    · cases a with
      | pollLoop => exact absurd rfl hne
      | prewait =>
        cases hc : busyFlagPoll s.con with
        | false => simpa only [Ends, run_prewait_fixed hc] using ih hk hs
        | true =>
          have hend := ends_pollLoop (fun u hu => ih hk hu) (s := pollBegin s) (by simpa [pollBegin] using hs)
            hm
          simpa [Ends, run_prewait_poll hc, pollBegin] using hend
      | _ => exact absurd rfl ha

/-- What every step keeps, every run of steps keeps. -/
theorem core_run_preserves {P : State → Prop} (hstep : ∀ s t, P s → step s = .next t → P t) {n : Nat} {s t : State}
    (hs : P s) (h : Host.Core.run Sys2Proof.core n s = .next t) : P t := by
  induction n generalizing s with
  | zero => cases h; exact hs
  | succ n ih =>
    cases hs' : Sys2Proof.core.step s with
    | next u => exact ih (hstep s u hs hs') (by rwa [core_run_succ hs'] at h)
    | fault f => simp [Host.Core.run, hs'] at h
    | refused r => simp [Host.Core.run, hs'] at h

/-- Settles O37: the operation in progress ends by the bound, and a consistent block with nothing left is idle. -/
theorem boundedPollsEnd : Obligations.BoundedPollsEnd := by
  intro s m hm hm1 hlt htail
  have hend : ∃ n t, Host.Core.run Sys2Proof.core n s = .next t ∧ t.todo = [] ∧ t.con = s.con ∧ t.host = s.host := by
    cases htodo : s.todo with
    | nil => exact ⟨0, s, rfl, htodo, rfl, rfl⟩
    | cons a k =>
      have hne : s.todo ≠ [] := by simp [htodo]
      have hk : Act.pollLoop ∉ k := by simpa [htodo] using htail
      obtain ⟨n, t, hrun, hend⟩ : Ends (a :: k) s := by
        by_cases ha : a = .pollLoop
        · subst ha
          exact ends_pollLoop (fun u hu => ends_of_bound hm1 hk hu) hm (hlt hne)
        · exact ends_of_bound hm1 (by simp [hk, Ne.symm ha]) hm
      exact ⟨n + 1, t, by rw [core_run_succ (step_busy hne), htodo, hrun], hend⟩
  obtain ⟨n, t, hrun, htodo, hcon, hhost⟩ := hend
  exact ⟨n, t, hrun, htodo, hcon, hhost, fun hs =>
    (core_run_preserves stepKeepsSequencerConsistent hs hrun).idleReady htodo⟩

end Sys2Proof.Machine
end

section
/-! PROOF. The events a run emits: which they can be, and what follows for the latches, the unused pins, the delays and
the reads (00_scope.md section 6; 10_state.md R10, R11, R12, R18, R32). -/

namespace Sys2Proof.Machine

/-! ### The events of a line -/

/-- The events of a line that is no wait. -/
def actEvents (c : Consts) : Act → List Event
  | .xfer reg b => xferEvents c reg b
  | .postwait t => postwaitEvents c t
  | .select reg => selectEvents c reg
  | .rawcycle v => rawcycleEvents c v
  | .delay n => delayEvents n
  | .pinConfig => pinConfigEvents c
  | .countSetup | .seq _ | .load _ _ | .prewait | .pollLoop => []

theorem emitted_refl (s : State) : Emitted s s [] := ⟨(List.append_nil _).symm, rfl, rfl, rfl⟩

theorem emitted_emitAll (es : List Event) (s : State) : Emitted s (emitAll es s) es :=
  ⟨emitAll_h es s, emitAll_dir es s, emitAll_out es s, emitAll_tmr es s⟩

theorem emitted_act (a : Act) (s : State) : Emitted s (act a s) (actEvents s.con a) := by
  cases a with
  | xfer reg b => exact emitted_emitAll (xferEvents s.con reg b) { s with xb := b, rsel := reg }
  | select reg => exact emitted_emitAll (selectEvents s.con reg) { s with rsel := reg }
  | postwait | rawcycle | delay | pinConfig => exact emitted_emitAll ..
  | countSetup | seq | load | prewait | pollLoop => exact emitted_refl s

theorem emitted_pollBegin (s : State) : Emitted s (pollBegin s) (pollBeginEvents s.con) :=
  emitted_emitAll (pollBeginEvents s.con) { s with rsel := .busyFlagRead }

theorem emitted_sampled (s : State) : Emitted s (sampled s) (sampleEvents s.con (s.answer 0)) :=
  ⟨sampled_h s, sampled_dir s, sampled_out s, sampled_tmr s⟩

theorem emitted_pollEnd (s : State) : Emitted s (pollEnd s) (pollEndEvents s.con) := emitted_emitAll ..

/-! ### The block's own events -/

/-- The events of selecting, placing, pulsing and waiting: levels of used pins and delays that are not 0. -/
def TransferEvent (c : Consts) : Event → Prop
  | .m _ _ => False
  | .w p _ => ∃ sg ∈ usedSignals c, resolve c sg = p
  | .r _ _ => False
  | .d n => n ≠ 0

/-- The events the block can emit: those of a transfer, directions of used pins, and reads of D7's pin. -/
def OwnEvent (c : Consts) : Event → Prop
  | .m p _ => ∃ sg ∈ usedSignals c, resolve c sg = p
  | .w p _ => ∃ sg ∈ usedSignals c, resolve c sg = p
  | .r p _ => p = resolve c d7
  | .d n => n ≠ 0

/-- All events of the list are a transfer's. -/
abbrev TransferEvents (c : Consts) (es : List Event) : Prop := ∀ e ∈ es, TransferEvent c e

/-- All events of the list are the block's own. -/
abbrev OwnEvents (c : Consts) (es : List Event) : Prop := ∀ e ∈ es, OwnEvent c e

theorem TransferEvents.own {c : Consts} {es : List Event} (h : TransferEvents c es) : OwnEvents c es := by
  intro e he
  have hte := h e he
  cases e with
  | m => exact hte.elim
  | r => exact hte.elim
  | w => exact hte
  | d => exact hte

section Own
variable (c : Consts)

theorem transferEvent_write {c : Consts} {sg : Signal} (h : sg ∈ usedSignals c) (l : Level) :
    TransferEvent c (.w (resolve c sg) l) :=
  ⟨sg, h, rfl⟩

theorem transferEvents_delay (n : Nat) : TransferEvents c (delayEvents n) := by
  unfold delayEvents
  split
  · nofun
  · exact List.forall_mem_singleton.2 ‹_›

theorem transferEvents_postwait (t : Nat) : TransferEvents c (postwaitEvents c t) := by
  unfold postwaitEvents
  split
  · nofun
  · exact transferEvents_delay c t

theorem transferEvents_select (reg : DevReg) : TransferEvents c (selectEvents c reg) := by
  cases h : rwWired c with
  | false =>
    rw [selectEvents_unwired h]
    exact List.forall_mem_singleton.2 (transferEvent_write (rs_used c) _)
  | true =>
    rw [selectEvents_wired h]
    exact List.forall_mem_cons.2
      ⟨transferEvent_write (rs_used c) _, List.forall_mem_singleton.2 (transferEvent_write (rw_used h) _)⟩

theorem transferEvents_put4 (n : Nibble) : TransferEvents c (put4Events c n) := by
  rw [put4Events_eq_map]
  exact List.forall_mem_map.2 fun k _ => transferEvent_write (data_used (.inr (Nat.le_add_right 4 k.val))) _

theorem transferEvents_put8 {c : Consts} (h8 : eightBit c = true) (b : Byte) : TransferEvents c (put8Events c b) := by
  rw [put8Events_eq_map]
  exact List.forall_mem_map.2 fun i _ => transferEvent_write (data_used (.inl h8)) _

theorem transferEvents_enable (l : Level) : TransferEvents c [setsig c .en l] :=
  List.forall_mem_singleton.2 (transferEvent_write (en_used c) l)

theorem transferEvents_pulse : TransferEvents c (pulseEvents c) := by
  simp only [TransferEvents, pulseEvents, List.forall_mem_append]
  exact ⟨⟨⟨transferEvents_enable c _, transferEvents_delay c _⟩, transferEvents_enable c _⟩, transferEvents_delay c _⟩

theorem transferEvents_rawcycle (v : Byte) : TransferEvents c (rawcycleEvents c v) := by
  refine List.forall_mem_append.2 ⟨?_, transferEvents_pulse c⟩
  split
  next h8 => exact transferEvents_put8 h8 v
  next => exact transferEvents_put4 c _

theorem transferEvents_xfer (reg : DevReg) (b : Byte) : TransferEvents c (xferEvents c reg b) := by
  refine List.forall_mem_append.2 ⟨transferEvents_select c reg, ?_⟩
  unfold byteEvents
  split
  next h8 => exact List.forall_mem_append.2 ⟨transferEvents_put8 h8 b, transferEvents_pulse c⟩
  next =>
    simp only [List.forall_mem_append]
    exact ⟨⟨transferEvents_put4 c _, transferEvents_pulse c⟩, transferEvents_put4 c _, transferEvents_pulse c⟩

/-- Every line but the pin configuration emits a transfer's events. -/
theorem transferEvents_act {a : Act} (h : a ≠ .pinConfig) : TransferEvents c (actEvents c a) := by
  cases a with
  | xfer reg b => exact transferEvents_xfer c reg b
  | postwait t => exact transferEvents_postwait c t
  | select reg => exact transferEvents_select c reg
  | rawcycle v => exact transferEvents_rawcycle c v
  | delay n => exact transferEvents_delay c n
  | pinConfig => exact absurd rfl h
  | countSetup | seq | load | prewait | pollLoop => nofun

theorem ownEvents_pinConfig : OwnEvents c (pinConfigEvents c) := by
  intro e he
  obtain ⟨sg, hsg, he⟩ := List.mem_flatMap.1 he
  obtain rfl | rfl : e = .m (resolve c sg) .output ∨ e = setsig c sg .low := by simpa using he
  · exact ⟨sg, hsg, rfl⟩
  · exact ⟨sg, hsg, rfl⟩

theorem ownEvents_act (a : Act) : OwnEvents c (actEvents c a) := by
  by_cases h : a = .pinConfig
  · exact h ▸ ownEvents_pinConfig c
  · exact (transferEvents_act c h).own

theorem ownEvents_direction (d : PinDir) : OwnEvents c [.m (resolve c d7) d] :=
  List.forall_mem_singleton.2 ⟨d7, d7_used c, rfl⟩

theorem ownEvents_pollBegin : OwnEvents c (pollBeginEvents c) :=
  List.forall_mem_append.2 ⟨(transferEvents_select c _).own, ownEvents_direction c _⟩

theorem ownEvents_pollEnd : OwnEvents c (pollEndEvents c) := ownEvents_direction c _

/-- A sample is a pulse with a read in it, and under FourBit another pulse. -/
theorem ownEvents_sample (l : Level) : OwnEvents c (sampleEvents c l) := by
  have hread : OwnEvents c [.r (resolve c d7) l, setsig c .en .low] :=
    List.forall_mem_cons.2 ⟨rfl, (transferEvents_enable c .low).own⟩
  simp only [OwnEvents, sampleEvents, List.forall_mem_append]
  refine ⟨⟨⟨⟨(transferEvents_enable c _).own, (transferEvents_delay c _).own⟩, hread⟩,
    (transferEvents_delay c _).own⟩, ?_⟩
  split
  · nofun
  · exact (transferEvents_pulse c).own

end Own

@[simp] theorem readCount_actEvents (c : Consts) (a : Act) : readCount (actEvents c a) = 0 := by
  cases a <;> simp [actEvents]

theorem readCount_pos {p : PinId} {l : Level} {es : List Event} (h : Event.r p l ∈ es) : 0 < readCount es := by
  obtain ⟨a, b, rfl⟩ := List.append_of_mem h
  simp [readCount]

/-! ### The events of a run -/

/-- The run of the lines from `s` to `t` emits the block's own events alone, and reads nothing under FixedDelay
outside a poll. -/
def RunEmits (l : List Act) (s t : State) : Prop :=
  t.con = s.con ∧ ∃ es, Emitted s t es ∧ OwnEvents s.con es ∧
    (busyFlagPoll s.con = false → Act.pollLoop ∉ l → readCount es = 0)

/-- Events emitted before a run come before the run's. -/
theorem RunEmits.after {s t u : State} {es : List Event} {l l' : List Act} (hu : RunEmits l' t u) (hc : t.con = s.con)
    (he : Emitted s t es) (hown : OwnEvents s.con es)
    (hread : busyFlagPoll s.con = false → Act.pollLoop ∉ l → readCount es = 0 ∧ Act.pollLoop ∉ l') :
    RunEmits l s u := by
  obtain ⟨hcon, es', he', hown', hread'⟩ := hu
  refine ⟨hcon.trans hc, es ++ es', emitted_append he he', List.forall_mem_append.2 ⟨hown, hc ▸ hown'⟩, fun hf hl => ?_⟩
  obtain ⟨h0, hl'⟩ := hread hf hl
  rw [readCount_append, h0, hread' (hc ▸ hf) hl']

theorem runEmits_refl (l : List Act) (s : State) : RunEmits l s s :=
  ⟨rfl, [], emitted_refl s, nofun, fun _ _ => rfl⟩

theorem runEmits_run (l : List Act) (s : State) : RunEmits l s (run l s) := by
  refine run_induction (M := RunEmits) ?nil ?plain ?fixed ?poll ?idle ?raised ?busy l s
  case nil => exact fun s => runEmits_refl [] s
  case plain =>
    exact fun a k s t _ ih => ih.after (act_con a s) (emitted_act a s) (ownEvents_act _ a)
      fun _ hl => ⟨readCount_actEvents .., fun h => hl (.tail _ h)⟩
  case fixed =>
    exact fun k s t _ ih => ih.after rfl (emitted_refl s) nofun fun _ hl => ⟨rfl, fun h => hl (.tail _ h)⟩
  case poll =>
    exact fun k s t hc ih => ih.after (by simp [pollBegin]) (emitted_pollBegin s) (ownEvents_pollBegin _)
      fun hf => absurd hf (by simp [hc])
  case idle =>
    exact fun k s t _ ih => ih.after (by simp [pollEnd]) (emitted_append (emitted_sampled s) (emitted_pollEnd _))
      (List.forall_mem_append.2 ⟨ownEvents_sample _ _, sampled_con s ▸ ownEvents_pollEnd _⟩)
      fun _ hl => absurd (.head _) hl
  case raised =>
    exact fun k s _ _ => ⟨by simp [pollEnd], _,
      emitted_raise (emitted_append (emitted_sampled s) (emitted_pollEnd _)) _,
      List.forall_mem_append.2 ⟨ownEvents_sample _ _, sampled_con s ▸ ownEvents_pollEnd _⟩,
      fun _ hl => absurd (.head _) hl⟩
  case busy =>
    exact fun k s _ _ => ⟨by simp, _, emitted_sampled s, ownEvents_sample _ _, fun _ hl => absurd (.head _) hl⟩

/-- What a step emits, it emits as a run of the lines left. -/
theorem runEmits_step {s t : State} (h : step s = .next t) : RunEmits s.todo s t := by
  obtain ⟨-, rfl⟩ | ⟨-, rfl | ⟨-, i, ws, rfl⟩ | ⟨rs, ws, rfl⟩ | ⟨r, rs, -, -, rfl⟩⟩ := step_runs h
  · exact runEmits_run s.todo s
  · exact runEmits_refl _ _
  · obtain ⟨hcon, es, he, hown, hread⟩ := runEmits_run (linesOf i s.con) { s with port := ws }
    exact ⟨hcon, es, he, hown, fun hf _ => hread hf (pollLoop_not_mem_linesOf i s.con)⟩
  · exact runEmits_refl _ s
  · exact runEmits_refl _ s

/-! ### What follows for the state -/

/-- A direction that no event sets stays. -/
theorem dirsAfter_unset {p : PinId} {es : List Event} (h : ∀ d, Event.m p d ∉ es) (dir : Vector PinDir 16) :
    (dirsAfter dir es)[p] = dir[p] := by
  induction es generalizing dir with
  | nil => rfl
  | cons e es ih =>
    rw [dirsAfter_cons, ih fun d hd => h d (.tail _ hd)]
    cases e with
    | m q d =>
      have hq : q ≠ p := by rintro rfl; exact h d (.head _)
      simp [dirAfter, hq]
    | _ => rfl

/-- A transfer sets no direction. -/
theorem dirsAfter_transferEvents {c : Consts} {es : List Event} (h : TransferEvents c es) (dir : Vector PinDir 16) :
    dirsAfter dir es = dir :=
  Vector.ext fun i hi => dirsAfter_unset (p := ⟨i, hi⟩) (fun _ hd => h _ hd) dir

/-- The block's own events leave the pin of no used signal as it was. -/
theorem unusedPin_kept {c : Consts} {s t : State} {es : List Event} (he : Emitted s t es) (hown : OwnEvents c es)
    {p : PinId} (hp : PinUnused c p) : t.dir[p] = s.dir[p] ∧ t.out[p] = s.out[p] := by
  obtain ⟨-, hdir, hout, -⟩ := he
  rw [hdir, hout]
  exact ⟨dirsAfter_unset (fun d hd => hp (List.mem_map.2 (hown _ hd))) _,
    latchesAfter_unwritten (fun l hl => hp (List.mem_map.2 (hown _ hl))) _⟩

/-- Settles O49: what a step adds to the trace has its effect on the latches. -/
theorem stepKeepsLatchesReplay : Obligations.StepKeepsLatchesReplay := by
  rintro s t ⟨hdir, hout⟩ h
  obtain ⟨-, es, ⟨hh, hdir', hout', -⟩, -⟩ := runEmits_step h
  exact ⟨by rw [hdir', hh, dirsAfter_append, ← hdir], by rw [hout', hh, latchesAfter_append, ← hout]⟩

/-- Settles O55: a step's events are of used pins. -/
theorem stepKeepsUnusedPins : Obligations.StepKeepsUnusedPins := by
  intro s t hs h p hp
  obtain ⟨hcon, es, he, hown, -⟩ := runEmits_step h
  rw [hcon] at hp
  obtain ⟨hdir, hout⟩ := unusedPin_kept he hown hp
  rw [hdir, hout]
  exact hs p hp

/-- Settles O57: constants and trace after any run. -/
theorem constantsFixedTraceGrows : Obligations.ConstantsFixedTraceGrows := by
  intro s t h
  obtain ⟨hcon, es, he, -⟩ := runEmits_step h
  exact ⟨hcon, es, he.1⟩

/-- Settles O58: a delay among a step's events is not 0. -/
theorem noZeroDelay : Obligations.NoZeroDelay := by
  intro s t h hs
  obtain ⟨-, es, he, hown, -⟩ := runEmits_step h
  rw [he.1, List.mem_append]
  exact not_or.2 ⟨hs, fun h0 => hown _ h0 rfl⟩

/-- Settles O38: a read among a step's events is of D7's pin, and counts as a read. -/
theorem readsOnlyBusyFlag : Obligations.ReadsOnlyBusyFlag := by
  intro s t h
  obtain ⟨-, es, he, hown, hread⟩ := runEmits_step h
  exact ⟨es, he.1, fun p l hr => hown _ hr, fun hf hl p l hr => (readCount_pos hr).ne' (hread hf hl)⟩

end Sys2Proof.Machine
end

section
/-! PROOF. The parts of the transfer engine left over: the raw cycle, the numbers of events, and the pin configuration
(41_transfer.md R90, R98; 42_handshake.md R108; 45_init.md R156). -/

namespace Sys2Proof.Machine

/-! ### The raw cycle (R98) -/

theorem setWidth_four_eight (v : Byte) : (v.setWidth 4).setWidth 8 = v &&& 0x0F#8 := by
  have hlow : v.setWidth 4 = (split v).2 := by
    refine BitVec.eq_of_toNat_eq ?_
    have hmod (n : Nat) : n &&& 15 = n % 16 := Nat.and_two_pow_sub_one_eq_mod n 4
    simp [split, hmod]
  rw [hlow, split_snd_setWidth]

/-- A raw cycle places the value's low `NDATA` bits and pulses enable. -/
theorem exists_places_rawcycle {c : Consts} (hd : PinsDistinct c) (v : Byte) :
    ∃ es, rawcycleEvents c v = es ++ pulseEvents c ∧ Places c es (if eightBit c then v else v &&& 0x0F#8) := by
  refine ⟨_, rfl, ?_⟩
  split
  next h8 => exact places_put8 hd h8 v
  next h8 =>
    rw [← setWidth_four_eight]
    exact places_put4 hd (by simpa using h8) _

/-- Settles O16: a value placed and a pulse are one write cycle. -/
theorem rawCycleIsOneBusCycle : Obligations.RawCycleIsOneBusCycle := by
  intro c out v hd hen hrw
  obtain ⟨es, hes, hplaces⟩ := exists_places_rawcycle hd v
  rw [hes]
  exact hplaces.oneWriteCycle out hd hrw

/-! ### How many events (R90, R98, R108) -/

theorem split_eq_extractLsb' (b : Byte) : split b = (b.extractLsb' 4 4, b.extractLsb' 0 4) := by
  have hmod (n : Nat) : n &&& 15 = n % 16 := Nat.and_two_pow_sub_one_eq_mod n 4
  refine Prod.ext (BitVec.eq_of_toNat_eq ?_) (BitVec.eq_of_toNat_eq ?_)
  · simp [split]
  · simp [split, hmod]

theorem length_selectEvents (c : Consts) (reg : DevReg) :
    (selectEvents c reg).length = if rwWired c then 2 else 1 := by
  cases h : rwWired c with
  | false => simp [selectEvents_unwired h]
  | true => simp [selectEvents_wired h]

theorem length_pulseEvents {c : Consts} (h : 1 ≤ c.prm.tEnHi) :
    (pulseEvents c).length = if c.prm.tEnLo = 0 then 3 else 4 := by
  rw [pulseEvents_eq h]
  by_cases hlo : c.prm.tEnLo = 0 <;> simp [hlo, Nat.pos_iff_ne_zero]

/-- A sample is a pulse with a read in it, and under FourBit another pulse (R108). -/
theorem sampleEvents_eq {c : Consts} (h : 1 ≤ c.prm.tEnHi) (l : Level) :
    sampleEvents c l =
      [.w (resolve c .en) .high, .d c.prm.tEnHi, .r (resolve c d7) l, .w (resolve c .en) .low] ++
        (if c.prm.tEnLo > 0 then [.d c.prm.tEnLo] else []) ++
        (if eightBit c then []
         else [.w (resolve c .en) .high, .d c.prm.tEnHi, .w (resolve c .en) .low] ++
          (if c.prm.tEnLo > 0 then [.d c.prm.tEnLo] else [])) := by
  have hhi : delayEvents c.prm.tEnHi = [.d c.prm.tEnHi] := if_neg (by omega)
  have hlo : delayEvents c.prm.tEnLo = if c.prm.tEnLo > 0 then [.d c.prm.tEnLo] else [] := by
    simp [delayEvents, Nat.pos_iff_ne_zero]
  rw [sampleEvents, pulseEvents_eq h, hhi, hlo]
  rfl

/-- Settles O17: the parts are those of the definitions, and each has its length. -/
theorem eventCounts : Obligations.EventCounts := by
  refine ⟨fun c reg b => ⟨?_, rfl⟩, fun c h => ⟨fun b reg _ => ?_, fun l => ?_⟩⟩
  · simp only [xferEvents, byteEvents, split_eq_extractLsb', List.append_assoc]
  · have hbyte : (byteEvents c b).length = 8 + (if eightBit c then 1 else 2) * (if c.prm.tEnLo = 0 then 3 else 4) := by
      unfold byteEvents
      split <;> simp only [put8Events, put4Events, List.length_append, List.length_cons, List.length_nil,
        length_pulseEvents h] <;> omega
    rw [xferEvents, List.length_append, length_selectEvents, hbyte, Nat.add_assoc]
  · rw [sampleEvents_eq h]
    by_cases h8 : eightBit c = true <;> by_cases hlo : c.prm.tEnLo = 0 <;> simp [h8, hlo, Nat.pos_iff_ne_zero]

/-! ### The pin configuration (R156) -/

/-- The events that make the pins of some signals outputs at Low. -/
def configureEvents (c : Consts) (sgs : List Signal) : List Event :=
  sgs.flatMap fun s => [.m (resolve c s) .output, setsig c s .low]

/-- The pins of the signals become outputs at Low, and no other pin changes. -/
theorem configure_pins (c : Consts) (sgs : List Signal) (dir : Vector PinDir 16) (out : Vector Level 16) (p : PinId) :
    (p ∈ sgs.map (resolve c) → (dirsAfter dir (configureEvents c sgs))[p] = .output ∧
      (latchesAfter out (configureEvents c sgs))[p] = .low) ∧
    (p ∉ sgs.map (resolve c) → (dirsAfter dir (configureEvents c sgs))[p] = dir[p] ∧
      (latchesAfter out (configureEvents c sgs))[p] = out[p]) := by
  induction sgs generalizing dir out with
  | nil => exact ⟨nofun, fun _ => ⟨rfl, rfl⟩⟩
  | cons sg sgs ih =>
    have hdirs : dirsAfter dir (configureEvents c (sg :: sgs)) =
      dirsAfter (dir.set (resolve c sg) .output) (configureEvents c sgs) := rfl
    have houts : latchesAfter out (configureEvents c (sg :: sgs)) =
      latchesAfter (out.set (resolve c sg) .low) (configureEvents c sgs) := rfl
    obtain ⟨hin, hout⟩ := ih (dir.set (resolve c sg) .output) (out.set (resolve c sg) .low)
    rw [hdirs, houts, List.map_cons, List.mem_cons]
    by_cases hp : p ∈ sgs.map (resolve c)
    · exact ⟨fun _ => hin hp, fun h => absurd (.inr hp) h⟩
    · obtain ⟨hdir, hlatch⟩ := hout hp
      rw [hdir, hlatch]
      refine ⟨fun h => ?_, fun h => ?_⟩
      · simp [h.resolve_right hp]
      · simp [Ne.symm (not_or.1 h).1]

/-- Settles O18: the prologue is the configuration of the used signals in their order. -/
theorem pinConfigMakesOutputs : Obligations.PinConfigMakesOutputs := by
  refine ⟨fun c => ?_, fun c dir out p => ?_⟩
  · cases hw : rwWired c <;> cases h8 : eightBit c <;>
      simp [pinConfigEvents, usedSignals, dataSignals, setsig, hw, h8]
  · obtain ⟨hin, hout⟩ := configure_pins c (usedSignals c) dir out p
    exact ⟨fun h => hin (not_not.1 h), hout⟩

end Sys2Proof.Machine
end

section
/-! PROOF. Bus cycles of the longer lists of events, from a condition on the latches before them to one after them, and
with them the cycles of a poll (20_memory.md R44, R45; 41_transfer.md R96, R98; 42_handshake.md R107 to R112). -/

namespace Sys2Proof.Machine

/-! ### Cycles from one condition on the latches to another -/

/-- From latches that meet `I` the events make these cycles, and leave latches that meet `J`. -/
def Makes (c : Consts) (I J : Vector Level 16 → Prop) (es : List Event) (cycles : List BusCycle) : Prop :=
  ∀ out, I out → busCycles c out es = cycles ∧ J (latchesAfter out es)

/-- Enable's latch is low. -/
def EnLow (c : Consts) (out : Vector Level 16) : Prop := out[resolve c .en] = .low

/-- Enable's latch is low, and the select levels are those of a write to Instruction or of a read. -/
def Selected (c : Consts) (rw : Level) (out : Vector Level 16) : Prop :=
  EnLow c out ∧ out[resolve c .rs] = .low ∧ rwLevel c out = rw

section Makes
variable {c : Consts} {I J K : Vector Level 16 → Prop}

theorem makes_nil (h : ∀ out, I out → J out) : Makes c I J [] [] := fun out hI => ⟨rfl, h out hI⟩

theorem Makes.append {a b : List Event} {x y : List BusCycle} (ha : Makes c I J a x) (hb : Makes c J K b y) :
    Makes c I K (a ++ b) (x ++ y) := by
  intro out hI
  obtain ⟨hx, hJ⟩ := ha out hI
  obtain ⟨hy, hK⟩ := hb _ hJ
  exact ⟨by rw [busCycles_append, hx, hy], latchesAfter_append .. ▸ hK⟩

theorem makes_flatMap {α : Type} {f : α → List Event} {g : α → List BusCycle} {l : List α}
    (h : ∀ x ∈ l, Makes c I I (f x) (g x)) : Makes c I I (l.flatMap f) (l.flatMap g) := by
  induction l with
  | nil => exact makes_nil fun _ => id
  | cons x l ih => exact (h x (.head _)).append (ih fun y hy => h y (.tail _ hy))

theorem makes_replicate {es : List Event} {x : List BusCycle} (h : Makes c I I es x) (n : Nat) :
    Makes c I I (List.replicate n es).flatten (List.replicate n x).flatten := by
  induction n with
  | zero => exact makes_nil fun _ => id
  | succ n ih => simpa only [List.replicate_succ, List.flatten_cons] using h.append ih

/-- Events that do not write enable make no cycle. -/
theorem makes_no_cycle {es : List Event} (hen : Unwritten (resolve c .en) es)
    (h : ∀ out, I out → J (latchesAfter out es)) : Makes c I J es [] :=
  fun out hI => ⟨busCycles_eq_nil (hen .low) out, h out hI⟩

/-- Events that write no latch leave them all. -/
theorem latchesAfter_silent {es : List Event} (h : ∀ p, Unwritten p es) (out : Vector Level 16) :
    latchesAfter out es = out :=
  Vector.ext fun i hi => latchesAfter_unwritten (h ⟨i, hi⟩) out

/-- Events that write no latch make no cycle and leave the latches. -/
theorem makes_silent {es : List Event} (h : ∀ p, Unwritten p es) : Makes c I I es [] := by
  refine makes_no_cycle (h _) fun out hI => ?_
  rwa [latchesAfter_silent h]

theorem delay_unwritten (n : Nat) (p : PinId) : Unwritten p (delayEvents n) := by
  intro l
  unfold delayEvents
  split <;> simp

theorem makes_delay (n : Nat) : Makes c I I (delayEvents n) [] := makes_silent (delay_unwritten n)

end Makes

/-! ### The parts of an operation -/

/-- The latches after are enabled and selected as those before. -/
structure KeepsSelect (c : Consts) (out out' : Vector Level 16) : Prop where
  en : EnLow c out → EnLow c out'
  rs : out'[resolve c .rs] = out[resolve c .rs]
  rw : rwLevel c out' = rwLevel c out

theorem KeepsSelect.selected {c : Consts} {out out' : Vector Level 16} (h : KeepsSelect c out out') {rw : Level}
    (hs : Selected c rw out) : Selected c rw out' :=
  ⟨h.en hs.1, h.rs.trans hs.2.1, h.rw.trans hs.2.2⟩

theorem KeepsSelect.trans {c : Consts} {o o' o'' : Vector Level 16} (h : KeepsSelect c o o')
    (h' : KeepsSelect c o' o'') :
    KeepsSelect c o o'' :=
  ⟨h'.en ∘ h.en, h'.rs.trans h.rs, h'.rw.trans h.rw⟩

/-- A pulse leaves the latches but enable's, which it leaves low. -/
theorem keepsSelect_pulse {c : Consts} (out : Vector Level 16) (hen : EnLow c out) :
    KeepsSelect c out (latchesAfter out (pulseEvents c)) := by
  rw [latchesAfter_pulse hen]
  exact ⟨id, rfl, rfl⟩

/-- A value placed and pulsed leaves enable low and the select levels as they are. -/
theorem Places.keepsSelect {c : Consts} {es : List Event} {v : Byte} (h : Places c es v) {out : Vector Level 16}
    (hen : EnLow c out) : KeepsSelect c out (latchesAfter out (es ++ pulseEvents c)) := by
  have hplace : KeepsSelect c out (latchesAfter out es) :=
    ⟨fun _ => (h.keeps_en out).trans hen, h.keeps_rs out, h.keeps_rwLevel out⟩
  rw [latchesAfter_append]
  exact hplace.trans (keepsSelect_pulse _ (hplace.en hen))

/-- The poll's epilogue makes no cycle (R110). -/
theorem makes_pollEnd {c : Consts} : Makes c (Selected c .high) (EnLow c) (pollEndEvents c) [] :=
  makes_no_cycle (fun l => by simp [pollEndEvents]) fun _ h => h.1

/-- Enable up and down leaves the latches, whatever stands in between that writes none of them. -/
theorem latchesAfter_enable {c : Consts} {es : List Event} (hes : ∀ p, Unwritten p es) {out : Vector Level 16}
    (hen : EnLow c out) :
    latchesAfter out ([setsig c .en .high] ++ es ++ [setsig c .en .low]) = out := by
  have hself : out.set (resolve c .en) .low = out := by
    simp [← show out[resolve c .en] = .low from hen]
  simp [latchesAfter_silent hes, latchesAfter_cons, setsig, latchAfter, hself]

/-- A sample, split at its read: enable up and down around it, the low hold, and under FourBit a pulse (R108). -/
theorem sampleEvents_split (c : Consts) (l : Level) : sampleEvents c l =
    ([setsig c .en .high] ++ (delayEvents c.prm.tEnHi ++ [.r (resolve c d7) l]) ++ [setsig c .en .low]) ++
      delayEvents c.prm.tEnLo ++ (if eightBit c then [] else pulseEvents c) := by
  simp [sampleEvents]

theorem read_unwritten (c : Consts) (l : Level) (p : PinId) :
    Unwritten p (delayEvents c.prm.tEnHi ++ [.r (resolve c d7) l]) := by
  intro l'
  simpa using delay_unwritten _ p l'

/-- A sample leaves the latches. -/
theorem latchesAfter_sample {c : Consts} {out : Vector Level 16} (hen : EnLow c out) (l : Level) :
    latchesAfter out (sampleEvents c l) = out := by
  rw [sampleEvents_split, latchesAfter_append, latchesAfter_append, latchesAfter_enable (read_unwritten c l) hen,
    latchesAfter_delay]
  split
  · rfl
  · exact latchesAfter_pulse hen

/-- A sample sets no direction. -/
theorem dirsAfter_sample (c : Consts) (dir : Vector PinDir 16) (l : Level) :
    dirsAfter dir (sampleEvents c l) = dir := by
  have htransfer {es : List Event} (h : TransferEvents c es) (dir) := dirsAfter_transferEvents h dir
  have hread : dirsAfter dir [.r (resolve c d7) l, setsig c .en .low] = dir := rfl
  simp only [sampleEvents, dirsAfter_append, htransfer (transferEvents_enable c _),
    htransfer (transferEvents_delay c _),
    hread]
  split
  · rfl
  · exact htransfer (transferEvents_pulse c) _

theorem sampleCycles_succ (c : Consts) (n : Nat) : sampleCycles c (n + 1) = sampleCycles c n ++ sampleCycles c 1 := by
  simp only [sampleCycles, Nat.add_mul, List.replicate_add]

section Distinct
variable {c : Consts} (hd : PinsDistinct c)
include hd

theorem keepsSelect_byteEvents {out : Vector Level 16} (hen : EnLow c out) (b : Byte) :
    KeepsSelect c out (latchesAfter out (byteEvents c b)) := by
  unfold byteEvents
  split
  next h8 => exact (places_put8 hd h8 b).keepsSelect hen
  next h8 =>
    have h8 : eightBit c = false := by simpa using h8
    have hhi := (places_put4 hd h8 (split b).1).keepsSelect hen
    rw [latchesAfter_append]
    exact hhi.trans ((places_put4 hd h8 (split b).2).keepsSelect (hhi.en hen))

theorem en_unwritten_select (reg : DevReg) : Unwritten (resolve c .en) (selectEvents c reg) :=
  select_unwritten (resolve_ne hd (en_used c) (rs_used c) nofun)
    (fun hw => resolve_ne hd (en_used c) (rw_used hw) nofun) reg

theorem enLow_select {out : Vector Level 16} (hen : EnLow c out) (reg : DevReg) :
    EnLow c (latchesAfter out (selectEvents c reg)) :=
  (latchesAfter_unwritten (en_unwritten_select hd reg) out).trans hen

/-- A transfer leaves enable low, whatever the register. -/
theorem enLow_xfer {out : Vector Level 16} (hen : EnLow c out) (reg : DevReg) (b : Byte) :
    EnLow c (latchesAfter out (xferEvents c reg b)) := by
  have hsel := enLow_select hd hen reg
  rw [xferEvents, latchesAfter_append]
  exact (keepsSelect_byteEvents hd hsel b).en hsel

/-- A transfer to Instruction or Data is the write cycles of its byte (R96). -/
theorem makes_xfer {reg : DevReg} (hreg : selectedRw reg = .low) (b : Byte) :
    Makes c (EnLow c) (EnLow c) (xferEvents c reg b) (byteCycles c (selectedRs reg) b) :=
  fun _ hen => ⟨busCycles_xferEvents hd hen hreg b, enLow_xfer hd hen reg b⟩

/-- A raw cycle leaves enable low and the select levels as they are. -/
theorem keepsSelect_rawcycle {out : Vector Level 16} (hen : EnLow c out) (v : Byte) :
    KeepsSelect c out (latchesAfter out (rawcycleEvents c v)) := by
  obtain ⟨es, hes, hplaces⟩ := exists_places_rawcycle hd v
  exact hes ▸ hplaces.keepsSelect hen

/-- A raw cycle with a write selected is one write cycle to Instruction (R98). -/
theorem makes_rawcycle (v : Byte) :
    Makes c (Selected c .low) (Selected c .low) (rawcycleEvents c v)
      [instructionCycle (if eightBit c then v else v &&& 0x0F#8)] := by
  rintro out ⟨hen, hrs, hrw⟩
  exact ⟨by rw [rawCycleIsOneBusCycle c out v hd hen hrw, hrs]; rfl,
    (keepsSelect_rawcycle hd hen v).selected ⟨hen, hrs, hrw⟩⟩

/-- Selecting the Instruction register selects a write, with no cycle (R91). -/
theorem makes_select_instruction : Makes c (EnLow c) (Selected c .low) (selectEvents c .instruction) [] := by
  refine makes_no_cycle (en_unwritten_select hd _) fun out hen =>
    ⟨enLow_select hd hen _, latchesAfter_select_rs hd out _, ?_⟩
  unfold rwLevel
  split
  next hw => exact latchesAfter_select_rw hw out .instruction
  next => rfl

/-! ### The poll (R107 to R112) -/

/-- The poll's prologue selects a read, with no cycle (R107). -/
theorem makes_pollBegin (hw : rwWired c = true) : Makes c (EnLow c) (Selected c .high) (pollBeginEvents c) [] := by
  have hsel : Makes c (EnLow c) (Selected c .high) (selectEvents c .busyFlagRead) [] := by
    refine makes_no_cycle (en_unwritten_select hd _) fun out hen =>
      ⟨enLow_select hd hen _, latchesAfter_select_rs hd out _, ?_⟩
    rw [rwLevel, if_pos hw]
    exact latchesAfter_select_rw hw out .busyFlagRead
  exact hsel.append (makes_silent fun p l => by simp)

/-- With a read selected, enable up and down is one read cycle, whatever stands in between that writes no latch. -/
theorem makes_read_pulse {es : List Event} (hes : ∀ p, Unwritten p es) :
    Makes c (Selected c .high) (Selected c .high) ([setsig c .en .high] ++ es ++ [setsig c .en .low])
      [⟨.low, .high, none⟩] := by
  rintro out ⟨hen, hrs, hrw⟩
  have hup : latchesAfter out ([setsig c .en .high] ++ es) = out.set (resolve c .en) .high := by
    rw [latchesAfter_append, latchesAfter_silent hes]
    rfl
  have hrise : busCycles c out ([setsig c .en .high] ++ es) = [] :=
    busCycles_eq_nil (by simpa [setsig] using hes _ _) out
  have hcycle : cycleOf c (out.set (resolve c .en) .high) = cycleOf c out :=
    cycleOf_congr fun s hs hne => by simp [resolve_ne hd (en_used c) hs (Ne.symm hne)]
  have hread : cycleOf c out = ⟨.low, .high, none⟩ := by simp [cycleOf, hrs, hrw]
  refine ⟨?_, by rw [latchesAfter_enable hes hen]; exact ⟨hen, hrs, hrw⟩⟩
  rw [busCycles_append, hrise, hup]
  simp [busCycles, isFall, hcycle, hread]

/-- A sample is one read cycle under EightBit and two under FourBit (R108, R44). -/
theorem makes_sample (l : Level) :
    Makes c (Selected c .high) (Selected c .high) (sampleEvents c l) (sampleCycles c 1) := by
  have hfirst := (makes_read_pulse hd (read_unwritten c l)).append (makes_delay c.prm.tEnLo)
  have hsecond := (makes_read_pulse hd (delay_unwritten c.prm.tEnHi)).append (makes_delay c.prm.tEnLo)
  rw [sampleEvents_split, sampleCycles]
  split
  next => simpa using hfirst
  next => simpa [pulseEvents] using hfirst.append hsecond

/-- So many samples are so many times as many read cycles. -/
theorem makes_samples (l : Level) (n : Nat) : Makes c (Selected c .high) (Selected c .high)
    (List.replicate n (sampleEvents c l)).flatten (sampleCycles c n) := by
  simpa [sampleCycles, Nat.mul_comm] using makes_replicate (makes_sample hd l) n

variable (hw : rwWired c = true)
include hw

/-- A poll that ends idle after `k` busy samples is the read cycles of `k + 1` samples. -/
theorem makes_poll (k : Nat) : Makes c (EnLow c) (EnLow c) (pollEvents c k) (sampleCycles c (k + 1)) := by
  have h := (((makes_pollBegin hd hw).append (makes_samples hd .high k)).append (makes_sample hd .low)).append
    makes_pollEnd
  rwa [List.append_nil, List.nil_append, ← sampleCycles_succ] at h

/-- A poll that fails after `m` busy samples is the read cycles of `m` samples. -/
theorem makes_failedPoll (m : Nat) : Makes c (EnLow c) (EnLow c) (failedPollEvents c m) (sampleCycles c m) := by
  simpa [failedPollEvents] using ((makes_pollBegin hd hw).append (makes_samples hd .high m)).append makes_pollEnd

end Distinct

theorem pollBeginEvents_wired {c : Consts} (h : rwWired c = true) : pollBeginEvents c =
    [.w (resolve c .rs) .low, .w (resolve c .rw) .high, .m (resolve c d7) .input] := by
  rw [pollBeginEvents, selectEvents_wired h]
  rfl

theorem answered_sample (s : State) : Answered s (sample s) 1 := ⟨by simp, by simp⟩

/-- Settles O59: the events are those of the definitions; of a poll the samples make the cycles, and its prologue and
its epilogue none. -/
theorem pollParts : Obligations.PollParts := by
  refine ⟨fun c => ⟨pollBeginEvents_wired, sampleEvents_eq, rfl⟩, fun s => ⟨⟨emitted_pollBegin s, ?_, ?_, rfl⟩,
    ⟨⟨sample_h s, sample_dir s, sample_out s, sample_tmr s⟩, answered_sample s, ?_⟩, emitted_pollEnd s, ?_⟩,
    fun c out hd hw hen => ⟨fun k => makes_poll hd hw k out hen, fun m => makes_failedPoll hd hw m out hen⟩⟩
  · simp [Answered, pollBegin]
  · simp [pollBegin]
  · cases h : s.answer 0 <;> simp [h, levelBit]
  · simp [Answered, pollEnd]

end Sys2Proof.Machine
end

section
/-! PROOF. The pins of a block that has been set up: enable low and the used pins outputs, but D7 during a poll
(10_state.md R32). -/

namespace Sys2Proof.Machine

/-- Enable is low and every used pin an output: the pins outside a poll. -/
structure OutputPins (c : Consts) (dir : Vector PinDir 16) (out : Vector Level 16) : Prop where
  en : EnLow c out
  dir : ∀ sg ∈ usedSignals c, dir[resolve c sg] = .output

/-- Enable is low and every used pin an output but that of D7, which is an input: the pins inside a poll. -/
structure PollingPins (c : Consts) (dir : Vector PinDir 16) (out : Vector Level 16) : Prop where
  en : EnLow c out
  input : dir[resolve c d7] = .input
  dir : ∀ sg ∈ usedSignals c, sg ≠ d7 → dir[resolve c sg] = .output

/-! ### What the events of a run do to the pins -/

/-- The pin configuration leaves the pins so, whatever they were (45_init.md R156). -/
theorem outputPins_pinConfig (c : Consts) (dir : Vector PinDir 16) (out : Vector Level 16) :
    OutputPins c (dirsAfter dir (pinConfigEvents c)) (latchesAfter out (pinConfigEvents c)) := by
  have hused {sg : Signal} (h : sg ∈ usedSignals c) :=
    (configure_pins c (usedSignals c) dir out (resolve c sg)).1 (List.mem_map_of_mem h)
  exact ⟨(hused (en_used c)).2, fun sg hsg => (hused hsg).1⟩

theorem pollingPins_sample {c : Consts} {dir : Vector PinDir 16} {out : Vector Level 16} (h : PollingPins c dir out)
    (l : Level) :
    PollingPins c (dirsAfter dir (sampleEvents c l)) (latchesAfter out (sampleEvents c l)) := by
  rw [latchesAfter_sample h.en, dirsAfter_sample]
  exact h

section Distinct
variable {c : Consts} (hd : PinsDistinct c) {dir : Vector PinDir 16} {out : Vector Level 16}
include hd

/-- Every line but the pin configuration leaves enable low (41_transfer.md R90 to R98). -/
theorem enLow_act (hen : EnLow c out) {a : Act} (ha : a ≠ .pinConfig) : EnLow c (latchesAfter out (actEvents c a)) := by
  cases a with
  | xfer reg b => exact enLow_xfer hd hen reg b
  | select reg => exact enLow_select hd hen reg
  | rawcycle v => exact (keepsSelect_rawcycle hd hen v).en hen
  | delay n => exact (makes_delay (c := c) n _ hen).2
  | postwait t =>
    simp only [actEvents, postwaitEvents]
    split
    · exact hen
    · exact (makes_delay (c := c) t _ hen).2
  | pinConfig => exact absurd rfl ha
  | countSetup | seq | load | prewait | pollLoop => exact hen

theorem outputPins_act (h : OutputPins c dir out) (a : Act) :
    OutputPins c (dirsAfter dir (actEvents c a)) (latchesAfter out (actEvents c a)) := by
  by_cases ha : a = .pinConfig
  · exact ha ▸ outputPins_pinConfig c dir out
  · rw [dirsAfter_transferEvents (transferEvents_act c ha)]
    exact ⟨enLow_act hd h.en ha, h.dir⟩

theorem pollingPins_pollBegin (h : OutputPins c dir out) :
    PollingPins c (dirsAfter dir (pollBeginEvents c)) (latchesAfter out (pollBeginEvents c)) := by
  have hset : dirsAfter dir (pollBeginEvents c) = dir.set (resolve c d7) .input := by
    rw [pollBeginEvents, dirsAfter_append, dirsAfter_transferEvents (transferEvents_select c _)]
    rfl
  rw [hset]
  refine ⟨?_, by simp, fun sg hsg hne => ?_⟩
  · rw [pollBeginEvents, latchesAfter_append]
    exact enLow_select hd h.en _
  · simpa [resolve_ne hd (d7_used c) hsg (Ne.symm hne)] using h.dir sg hsg

theorem outputPins_pollEnd (h : PollingPins c dir out) :
    OutputPins c (dirsAfter dir (pollEndEvents c)) (latchesAfter out (pollEndEvents c)) := by
  have hset : dirsAfter dir (pollEndEvents c) = dir.set (resolve c d7) .output := rfl
  rw [hset]
  refine ⟨h.en, fun sg hsg => ?_⟩
  by_cases hne : sg = d7
  · simp [hne]
  · simpa [resolve_ne hd (d7_used c) hsg (Ne.symm hne)] using h.dir sg hsg hne

end Distinct

/-! ### The lines of a run -/

/-- The pins fit the lines left: those of a poll where its loop comes next, else those outside one; there is no further
loop. -/
def PinsFit (l : List Act) (s : State) : Prop :=
  (Act.pollLoop ∉ l ∧ OutputPins s.con s.dir s.out) ∨
    (∃ k, l = .pollLoop :: k ∧ Act.pollLoop ∉ k ∧ PollingPins s.con s.dir s.out)

theorem pinsFit_cons {a : Act} (ha : a ≠ .pollLoop) {l : List Act} {s : State} (h : PinsFit (a :: l) s) :
    Act.pollLoop ∉ l ∧ OutputPins s.con s.dir s.out := by
  obtain ⟨hl, hs⟩ | ⟨k, hk, -⟩ := h
  · exact ⟨fun h => hl (.tail _ h), hs⟩
  · exact absurd (List.cons.inj hk).1 ha

theorem pinsFit_pollLoop {l : List Act} {s : State} (h : PinsFit (.pollLoop :: l) s) :
    Act.pollLoop ∉ l ∧ PollingPins s.con s.dir s.out := by
  obtain ⟨hl, -⟩ | ⟨k, hk, hnot, hs⟩ := h
  · exact absurd (.head _) hl
  · obtain rfl := (List.cons.inj hk).2
    exact ⟨hnot, hs⟩

/-- Lines that fit the pins leave them ready. -/
theorem readyPins_run {l : List Act} {s : State} (hd : PinsDistinct s.con) (h : PinsFit l s) : ReadyPins (run l s) := by
  refine run_induction (M := fun l s t => PinsDistinct s.con → PinsFit l s → ReadyPins t) ?nil ?plain ?fixed ?poll ?idle
    ?raised ?busy l s hd h
  case nil =>
    rintro s hd (⟨-, hpins⟩ | ⟨k, hk, -⟩)
    · exact ⟨hd, hpins.en, .inl ⟨rfl, hpins.dir⟩⟩
    · cases hk
  case plain =>
    intro a k s t ha ih hd h
    obtain ⟨hk, hpins⟩ := pinsFit_cons (by rintro rfl; cases ha) h
    obtain ⟨-, hdir, hout, -⟩ := emitted_act a s
    exact ih (act_con a s ▸ hd) (.inl ⟨hk, by rw [act_con, hdir, hout]; exact outputPins_act hd hpins a⟩)
  case fixed => exact fun k s t _ ih hd h => ih hd (.inl (pinsFit_cons (a := .prewait) nofun h))
  case poll =>
    intro k s t _ ih hd h
    obtain ⟨hk, hpins⟩ := pinsFit_cons (a := .prewait) nofun h
    exact ih (by simpa [pollBegin] using hd)
      (.inr ⟨k, rfl, hk, by simpa [pollBegin] using pollingPins_pollBegin hd hpins⟩)
  case idle =>
    intro k s t _ ih hd h
    obtain ⟨hk, hpins⟩ := pinsFit_pollLoop h
    have hend := outputPins_pollEnd hd (pollingPins_sample hpins (s.answer 0))
    exact ih (by simpa [pollEnd] using hd) (.inl ⟨hk, by simpa [pollEnd] using hend⟩)
  case raised =>
    intro k s _ _ hd h
    obtain ⟨-, hpins⟩ := pinsFit_pollLoop h
    have hend := outputPins_pollEnd hd (pollingPins_sample hpins (s.answer 0))
    exact ⟨by simpa [pollEnd] using hd, by simpa [pollEnd, EnLow] using hend.en,
      .inl ⟨rfl, by simpa [pollEnd] using hend.dir⟩⟩
  case busy =>
    intro k s _ _ hd h
    obtain ⟨hk, hpins⟩ := pinsFit_pollLoop h
    have hpoll := pollingPins_sample hpins (s.answer 0)
    exact ⟨by simpa using hd, by simpa [EnLow] using hpoll.en,
      .inr ⟨⟨k, rfl, hk⟩, by simpa using hpoll.input, by simpa using hpoll.dir⟩⟩

/-- Settles O52: the lines left of a step fit the pins it finds. -/
theorem stepKeepsReadyPins : Obligations.StepKeepsReadyPins := by
  intro s t hs h
  obtain ⟨hd, hen, hpins⟩ := hs
  obtain ⟨htodo, rfl⟩ | ⟨htodo, h⟩ := step_runs h
  · obtain ⟨h0, -⟩ | ⟨⟨k, hk, hnot⟩, hpoll⟩ := hpins
    · exact absurd h0 htodo
    · exact readyPins_run hd (.inr ⟨k, hk, hnot, ⟨hen, hpoll.1, hpoll.2⟩⟩)
  · have hdir : ∀ sg ∈ usedSignals s.con, s.dir[resolve s.con sg] = .output := by
      obtain ⟨-, hdir⟩ | ⟨⟨k, hk, -⟩, -⟩ := hpins
      · exact hdir
      · simp [htodo] at hk
    obtain rfl | ⟨-, i, ws, rfl⟩ | ⟨rs, ws, rfl⟩ | ⟨r, rs, -, -, rfl⟩ := h
    · exact ⟨hd, hen, .inl ⟨htodo, hdir⟩⟩
    · exact readyPins_run (s := { s with port := ws }) hd (.inl ⟨pollLoop_not_mem_linesOf i s.con, ⟨hen, hdir⟩⟩)
    · exact ⟨hd, hen, .inl ⟨htodo, hdir⟩⟩
    · exact ⟨hd, hen, .inl ⟨rfl, hdir⟩⟩

/-- Settles O53: SETUP's third line makes the pins so, whatever they were, and the lines after it fit them. -/
theorem setupMakesPinsReady : Obligations.SetupMakesPinsReady := by
  intro s hrdy hd
  refine ⟨run (setupLines s.con) s, by rw [exec_eq rfl, accept_eq, if_pos hrdy]; rfl, ?_⟩
  have hnot := pollLoop_not_mem_linesOf .setup s.con
  have hlines : setupLines s.con = [.countSetup, .seq .sPincfg, .pinConfig] ++ (setupLines s.con).drop 3 := rfl
  have hrun : run (setupLines s.con) s =
    run ((setupLines s.con).drop 3) (act .pinConfig (setSeq .sPincfg (act .countSetup s))) := rfl
  rw [hrun]
  refine readyPins_run (by simpa using hd) (.inl ⟨fun h => hnot (List.mem_of_mem_drop h), ?_⟩)
  simpa [act] using outputPins_pinConfig s.con s.dir s.out

end Sys2Proof.Machine
end

section
/-! PROOF. Lines that wait for nothing as one change of the state; with them every operation other than SETUP as a
wait and what comes after it, and the ends of its poll (42_handshake.md R105 to R113; 43_commands.md R120). -/

namespace Sys2Proof.Machine

/-! ### Lines that wait for nothing -/

/-- The state after some lines, the waits among them left out. -/
def acts (k : List Act) (s : State) : State := k.foldl (fun s a => act a s) s

/-- The line waits for nothing: it is no wait, or a prewait under FixedDelay (42_handshake.md R105). -/
def Straight (c : Consts) (a : Act) : Prop := a.plain = true ∨ (a = .prewait ∧ busyFlagPoll c = false)

theorem acts_append (k l : List Act) (s : State) : acts (k ++ l) s = acts l (acts k s) := List.foldl_append

@[simp] theorem acts_con (k : List Act) (s : State) : (acts k s).con = s.con := by
  induction k generalizing s with
  | nil => rfl
  | cons a k ih => exact (ih _).trans (act_con a s)

theorem emitted_acts (k : List Act) (s : State) : Emitted s (acts k s) (k.flatMap (actEvents s.con)) := by
  induction k generalizing s with
  | nil => exact emitted_refl s
  | cons a k ih => exact emitted_append (emitted_act a s) (act_con a s ▸ ih (act a s))

/-- Lines that wait for nothing are done at once. -/
theorem run_straight {k : List Act} {s : State} (h : ∀ a ∈ k, Straight s.con a) (rest : List Act) :
    run (k ++ rest) s = run rest (acts k s) := by
  induction k generalizing s with
  | nil => rfl
  | cons a k ih =>
    have hrest : run (k ++ rest) (act a s) = run rest (acts k (act a s)) :=
      ih fun b hb => act_con a s ▸ h b (.tail _ hb)
    obtain hp | ⟨rfl, hf⟩ := h a (.head _)
    · rw [List.cons_append, run_plain hp, hrest]
      rfl
    · rw [List.cons_append, run_prewait_fixed hf]
      exact hrest

/-- What lines other than SETUP's count leave alone: the constants, the error bits, the queues, the count, the answers
and the poll's registers. -/
structure Carries (s t : State) : Prop where
  kept : Kept s t
  answered : Answered s t 0
  setups : t.setups = s.setups
  bfs : t.bfs = s.bfs
  pcnt : t.pcnt = s.pcnt

theorem carries_refl (s : State) : Carries s s := ⟨⟨rfl, rfl, rfl, rfl, rfl⟩, ⟨rfl, rfl⟩, rfl, rfl, rfl⟩

theorem Kept.trans {s t u : State} (h : Kept s t) (h' : Kept t u) : Kept s u := by
  obtain ⟨hcon, hcfg, hno, hport, hhost⟩ := h
  obtain ⟨hcon', hcfg', hno', hport', hhost'⟩ := h'
  exact ⟨hcon'.trans hcon, hcfg'.trans hcfg, hno'.trans hno, hport'.trans hport, hhost'.trans hhost⟩

theorem Answered.trans {s t u : State} {m n : Nat} (h : Answered s t m) (h' : Answered t u n) :
    Answered s u (m + n) := by
  obtain ⟨htape, hreads⟩ := h
  obtain ⟨htape', hreads'⟩ := h'
  exact ⟨by rw [htape', htape, List.drop_drop], by rw [hreads', hreads, Nat.add_assoc]⟩

theorem Answered.answer {s t : State} {n : Nat} (h : Answered s t n) (j : Nat) : t.answer j = s.answer (n + j) := by
  obtain ⟨htape, hreads⟩ := h
  simp [State.answer, htape, hreads, Nat.add_assoc]

theorem Carries.trans {s t u : State} (h : Carries s t) (h' : Carries t u) : Carries s u :=
  ⟨h.kept.trans h'.kept, h.answered.trans h'.answered, h'.setups.trans h.setups, h'.bfs.trans h.bfs,
    h'.pcnt.trans h.pcnt⟩

theorem carries_act {a : Act} (h : a ≠ .countSetup) (s : State) : Carries s (act a s) := by
  have hkept : Kept s (act a s) := ⟨act_con a s, act_cfgErr a s, act_noResp a s, act_port a s, act_host a s⟩
  cases a with
  | countSetup => exact absurd rfl h
  | xfer => exact ⟨hkept, by simp [Answered, act, xfer], by simp [act, xfer], by simp [act, xfer], by simp [act, xfer]⟩
  | _ => exact ⟨hkept, by simp [Answered, act], by simp [act], by simp [act], by simp [act]⟩

theorem carries_acts {k : List Act} (h : Act.countSetup ∉ k) (s : State) : Carries s (acts k s) := by
  induction k generalizing s with
  | nil => exact carries_refl s
  | cons a k ih =>
    obtain ⟨ha, hk⟩ := not_or.1 (mt List.mem_cons.2 h)
    exact (carries_act (Ne.symm ha) s).trans (ih hk _)

/-- The last line, `SEQ <- IDLE`, emits nothing and leaves alone what lines leave alone. -/
theorem carries_run_seqIdle (s : State) : Carries s (run [.seq .idle] s) :=
  ⟨⟨rfl, by simp [State.cfgErr], by simp [State.noResp], rfl, rfl⟩, ⟨rfl, rfl⟩, rfl, rfl, rfl⟩

/-! ### Every operation but SETUP -/

/-- `i`, accepted in `s`, is a wait in `u` and the lines `l` after it: those before it emit nothing, and those after it
emit the operation's events after the poll and leave the block idle and ready. -/
structure WaitsThen (i : Instr) (s u : State) (l : List Act) : Prop where
  exec : exec i s = .next (run (.prewait :: l) u)
  before : Emitted s u []
  carries : Carries s u
  after : ∀ v, v.con = s.con → busyFlagPoll v.con = true → Emitted v (run l v) (afterPollEvents v.con i) ∧
    Carries v (run l v) ∧ IdleReady (run l v)

theorem exists_waitsThen {i : Instr} (hw : i.wellFormed = true) (hi : i ≠ .setup) {s : State} (hrdy : s.rdy = true) :
    ∃ u l, WaitsThen i s u l := by
  have hexec : exec i s = .next (run (linesOf i s.con) s) := by rw [exec_eq hw, accept_eq, if_pos hrdy]
  obtain ⟨reg, b, wait, htr, -, hl⟩ | rfl | rfl := linesOf_cases i
  · rw [hl, run_transferLines] at hexec
    refine ⟨loaded .op reg b s, _, hexec, emitted_refl s, carries_acts (k := [.load reg b, .seq _]) (by simp) s, ?_⟩
    intro v hv hpoll
    have hrun : run (afterPrewaitLines .op reg b (wait s.con.prm) ++ [.seq .idle]) v =
        run [.seq .idle] (acts (afterPrewaitLines .op reg b (wait s.con.prm)) v) :=
      run_straight (by simp [afterPrewaitLines, Straight, Act.plain]) _
    have hevents : (afterPrewaitLines .op reg b (wait s.con.prm)).flatMap (actEvents v.con) =
      afterPollEvents v.con i := by
      simp [afterPrewaitLines, actEvents, afterPollEvents, htr, postwaitEvents_poll hpoll]
    rw [hrun]
    exact ⟨emitted_run_seqIdle (hevents ▸ emitted_acts _ v),
      (carries_acts (by simp [afterPrewaitLines]) v).trans (carries_run_seqIdle _), idleReady_run_seqIdle _⟩
  · exact ⟨setSeq (.op .prewait) s, [.seq .idle], hexec, emitted_refl s, carries_act (a := .seq _) nofun s,
      fun v _ _ => ⟨emitted_refl v, carries_run_seqIdle v, idleReady_run_seqIdle v⟩⟩
  · exact absurd rfl hi

/-- From `s` to `t` the events `es` were emitted and `n` answers used, the last for a poll that reached its bound: `t`
is what DeviceNotResponding leaves (42_handshake.md R111, 60_exceptions.md R175). -/
structure RaisedAfter (s t : State) (es : List Event) (n : Nat) : Prop where
  emitted : Emitted s t es
  answered : Answered s t n
  idle : IdleReady t
  noResp : t.noResp = true
  cfgErr : t.cfgErr = s.cfgErr
  output : t.dir[resolve s.con d7] = .output
  port : t.port = []
  host : t.host = s.host
  con : t.con = s.con

/-- What came before the poll comes before its events. -/
theorem RaisedAfter.after {s u t : State} {es es' : List Event} {n n' : Nat} (h : RaisedAfter u t es' n')
    (hemit : Emitted s u es) (hanswered : Answered s u n) (hcon : u.con = s.con) (hcfg : u.cfgErr = s.cfgErr)
    (hhost : u.host = s.host) : RaisedAfter s t (es ++ es') (n + n') where
  emitted := emitted_append hemit h.emitted
  answered := hanswered.trans h.answered
  idle := h.idle
  noResp := h.noResp
  cfgErr := h.cfgErr.trans hcfg
  output := by simpa [hcon] using h.output
  port := h.port
  host := h.host.trans hhost
  con := h.con.trans hcon

/-- The poll's epilogue is its last event, so D7 is an output after it (42_handshake.md R110). -/
theorem dirsAfter_pollEnd (c : Consts) (dir : Vector PinDir 16) :
    (dirsAfter dir (pollEndEvents c))[resolve c d7] = .output := by
  simp [pollEndEvents, dirsAfter_cons, dirAfter]

/-- A wait with as many busy samples as the bound ends so, and counts no SETUP. -/
theorem core_run_prewait_raised {s : State} (hpoll : busyFlagPoll s.con = true) {k : Nat} (hbusy : BusyFor (k + 1) s)
    (hbound : s.con.prm.bfRetryMax = some (k + 1)) (l : List Act) :
    ∃ t, Host.Core.run Sys2Proof.core k (run (.prewait :: l) s) = .next t ∧ t.setups = s.setups ∧
      RaisedAfter s t (failedPollEvents s.con (k + 1)) (k + 1) := by
  refine ⟨_, core_run_prewait_bound hpoll l hbusy hbound, by simp, ?_⟩
  exact {
    emitted := emitted_raise (emitted_polled ..) _
    answered := answered_raise (answered_polled ..) _
    idle := idleReady_raise ..
    noResp := by simp [State.noResp]
    cfgErr := by simp [State.cfgErr]
    output := by simp only [raise_dir, polled, emitAll_dir, failedPollEvents, dirsAfter_append, dirsAfter_pollEnd]
    port := rfl
    host := by simp
    con := by simp }

section Operation
variable {i : Instr} {s : State} (hw : i.wellFormed = true) (hi : i ≠ .setup) (hrdy : s.rdy = true)
  (hpoll : busyFlagPoll s.con = true)
include hw hi hrdy hpoll

/-- With `k` busy samples and then an idle one an operation is the poll and what comes after it, in `k` more
steps (R112). -/
theorem exec_poll_idle {k : Nat} (hbusy : BusyFor k s) (hidle : s.answer k = .low)
    (hbound : ∀ m, s.con.prm.bfRetryMax = some m → k < m) :
    ∃ u t, exec i s = .next u ∧ Host.Core.run Sys2Proof.core k u = .next t ∧
      Emitted s t (pollEvents s.con k ++ afterPollEvents s.con i) ∧ Kept s t ∧ Answered s t (k + 1) ∧ IdleReady t ∧
      t.setups = s.setups ∧ t.bfs = false ∧ t.pcnt = k + 1 := by
  obtain ⟨u, l, hexec, hbefore, hcarries, hafter⟩ := exists_waitsThen hw hi hrdy
  have hcon : u.con = s.con := hcarries.kept.1
  have hanswer (j : Nat) : u.answer j = s.answer j := by simpa using hcarries.answered.answer j
  have hrun := core_run_prewait_idle (s := u) (hcon ▸ hpoll) l (fun j hj => (hanswer j).trans (hbusy j hj))
    ((hanswer k).trans hidle) (hcon ▸ hbound)
  rw [hcon] at hrun
  obtain ⟨hemit, hc, hend⟩ := hafter (polled (pollEvents s.con k) (k + 1) false u) (by simp [hcon]) (by simpa [hcon])
  have hpolled : Kept u (polled (pollEvents s.con k) (k + 1) false u) := by simp [Kept, State.cfgErr, State.noResp]
  refine ⟨_, _, hexec, hrun, ?_, (hcarries.kept.trans hpolled).trans hc.kept, ?_, hend, ?_, hc.bfs, hc.pcnt⟩
  · simpa [hcon] using emitted_append (emitted_append hbefore (emitted_polled ..)) hemit
  · simpa using (hcarries.answered.trans (answered_polled (pollEvents s.con k) (k + 1) false u)).trans hc.answered
  · exact (hc.setups.trans (polled_setups ..)).trans hcarries.setups

/-- With as many busy samples as the bound an operation is the failed poll, one step for each sample but the first. -/
theorem exec_poll_bound {k : Nat} (hbusy : BusyFor (k + 1) s) (hbound : s.con.prm.bfRetryMax = some (k + 1)) :
    ∃ u t, exec i s = .next u ∧ Host.Core.run Sys2Proof.core k u = .next t ∧
      RaisedAfter s t (failedPollEvents s.con (k + 1)) (k + 1) := by
  obtain ⟨u, l, hexec, hbefore, hcarries, -⟩ := exists_waitsThen hw hi hrdy
  obtain ⟨hcon, hcfg, -, -, hhost⟩ := hcarries.kept
  have hbusy' : BusyFor (k + 1) u := fun j hj => by simpa [hcarries.answered.answer j] using hbusy j hj
  obtain ⟨t, hrun, -, hraised⟩ := core_run_prewait_raised (s := u) (hcon ▸ hpoll) hbusy' (hcon ▸ hbound) l
  refine ⟨_, t, hexec, hrun, ?_⟩
  simpa [hcon] using hraised.after hbefore hcarries.answered hcon hcfg hhost

end Operation

/-! ### From the word at the port -/

/-- A word that decodes is that of a well-formed operation. -/
theorem wellFormed_of_decode {w : OpWord} {i : Instr} (h : decode w = .ok i) : i.wellFormed = true :=
  (encodeOfDecode w i h).1

/-- Settles O5: of the idle step's cases it is the word's. -/
theorem stepRunsDecodedInstruction : Obligations.StepRunsDecodedInstruction := by
  intro s w ws i hs hport hdec hfrom
  rw [step_ready hs, idleStep, hport]
  simp only [runWord, hdec, hfrom, if_true]

theorem transferEvents_afterPoll (c : Consts) (i : Instr) : TransferEvents c (afterPollEvents c i) := by
  unfold afterPollEvents
  split
  · exact transferEvents_xfer c _ _
  · nofun

/-- Settles O34: the first step accepts the operation, and each sample but the first is one more. -/
theorem pollSamplesUntilIdle : Obligations.PollSamplesUntilIdle := by
  intro s w ws i k hs hport hdec hfrom hi hpoll hbusy hidle hbound
  obtain ⟨u, t, hexec, hrun, hemit, hkept, hans, hend, hset, hbfs, hpcnt⟩ := exec_poll_idle (s := { s with port := ws })
    (wellFormed_of_decode hdec) hi hs.2.1 hpoll hbusy hidle hbound
  have hstep := (stepRunsDecodedInstruction s w ws i hs hport hdec hfrom).trans hexec
  obtain ⟨hcon, hcfg, hno, hport', hhost⟩ := hkept
  refine ⟨t, (core_run_succ hstep k).trans hrun, hemit, hans, hend, hpcnt, hbfs, ?_, hport', hhost, ?_, hcon, hset⟩
  · rw [hemit.2.1, dirsAfter_append, dirsAfter_transferEvents (transferEvents_afterPoll _ i), pollEvents,
      dirsAfter_append, dirsAfter_pollEnd]
  · exact status_ext (hend.2.1.trans hs.2.1.symm) hcfg hno

/-! ### FUNCTION_SET (R129) -/

theorem functionSetByte_eq_ofNat (e l f : Bool) : functionSetByte e l f 0#2 =
    BitVec.ofNat 8 (0x20 + (if e then 0x10 else 0) + (if l then 0x08 else 0) + (if f then 0x04 else 0)) := by
  revert e l f; decide

/-- Settles O24: FUNCTION_SET is one transfer, of its row's byte. -/
theorem functionSetEffect : Obligations.FunctionSetEffect := by
  refine ⟨fun e l f => ?_, fun _ _ _ _ => rfl⟩
  rw [← functionSetByte_eq_ofNat]
  exact transferEffect_of_linesOf rfl fun _ => rfl

end Sys2Proof.Machine
end

section
/-! PROOF. A poll in progress: its busy samples one after another, and its end at the bound (42_handshake.md
R109, R111). -/

namespace Sys2Proof.Machine

/-- `t` is `s` after `n` more busy samples of the poll in progress. -/
structure SampledBusy (s t : State) (n : Nat) : Prop where
  emitted : Emitted s t (List.replicate n (sampleEvents s.con .high)).flatten
  answered : Answered s t n
  todo : t.todo = s.todo
  seq : t.seq = s.seq
  status : t.status = s.status
  pcnt : t.pcnt = s.pcnt + n
  bfs : 1 ≤ n → t.bfs = true
  xb : t.xb = s.xb
  rsel : t.rsel = s.rsel
  setups : t.setups = s.setups
  con : t.con = s.con
  port : t.port = s.port
  host : t.host = s.host

theorem answered_sampled (s : State) : Answered s (sampled s) 1 := ⟨by simp, by simp⟩

theorem sampledBusy_iterate {n : Nat} {s : State} (h : BusyFor n s) : SampledBusy s (sampled^[n] s) n := by
  induction n with
  | zero => exact ⟨emitted_refl s, ⟨rfl, rfl⟩, rfl, rfl, rfl, rfl, nofun, rfl, rfl, rfl, rfl, rfl, rfl⟩
  | succ n ih =>
    have ih := ih fun j hj => h j (Nat.lt_succ_of_lt hj)
    have hlast : (sampled^[n] s).answer 0 = .high := (ih.answered.answer 0).trans (h n n.lt_succ_self)
    have hemit := emitted_append ih.emitted (emitted_sampled (sampled^[n] s))
    rw [hlast, ih.con] at hemit
    rw [Function.iterate_succ_apply']
    exact {
      emitted := by simpa [List.replicate_succ'] using hemit
      answered := ih.answered.trans (answered_sampled _)
      todo := by simp [ih.todo]
      seq := by simp [ih.seq]
      status := by simp [ih.status]
      pcnt := by simp [ih.pcnt, Nat.add_assoc]
      bfs := fun _ => by simp [hlast, levelBit]
      xb := by simp [ih.xb]
      rsel := by simp [ih.rsel]
      setups := by simp [ih.setups]
      con := by simp [ih.con]
      port := by simp [ih.port]
      host := by simp [ih.host] }

section InPoll
variable {s : State} {k : List Act} (htodo : s.todo = .pollLoop :: k) {n : Nat}
include htodo

/-- After `n` busy samples of a poll in progress the next step is the loop again. -/
theorem core_run_inPoll (hbusy : BusyFor n s) (hbound : ∀ j, j < n → s.con.prm.bfRetryMax ≠ some (s.pcnt + j + 1)) :
    Host.Core.run Sys2Proof.core (n + 1) s = .next (run (.pollLoop :: k) (sampled^[n] s)) := by
  have hstep : step s = .next (run (.pollLoop :: k) s) := by rw [step_busy (by simp [htodo]), htodo]
  rw [core_run_succ hstep, core_run_busySamples hbusy hbound k]

/-- A poll in progress whose samples reach the bound ends in DeviceNotResponding. -/
theorem core_run_inPoll_raised (hbusy : BusyFor (n + 1) s) (hbound : s.con.prm.bfRetryMax = some (s.pcnt + (n + 1))) :
    ∃ t, Host.Core.run Sys2Proof.core (n + 1) s = .next t ∧
      RaisedAfter s t ((List.replicate (n + 1) (sampleEvents s.con .high)).flatten ++ pollEndEvents s.con) (n + 1) := by
  have hn := sampledBusy_iterate (n := n) fun j hj => hbusy j (Nat.lt_succ_of_lt hj)
  have hall := sampledBusy_iterate hbusy
  rw [Function.iterate_succ_apply'] at hall
  have hlast : (sampled^[n] s).answer 0 = .high := (hn.answered.answer 0).trans (hbusy n n.lt_succ_self)
  have hrun := core_run_inPoll htodo (fun j hj => hbusy j (Nat.lt_succ_of_lt hj)) (fun j hj => by simp [hbound]; omega)
  rw [run_pollLoop_bound hlast (by simp [hn.con, hn.pcnt, hbound, Nat.add_assoc])] at hrun
  have hcfg : (sampled (sampled^[n] s)).cfgErr = s.cfgErr := by rw [State.cfgErr, hall.status]; rfl
  refine ⟨_, hrun, ?_⟩
  exact {
    emitted := emitted_raise (emitted_append hall.emitted (hall.con ▸ emitted_pollEnd _)) _
    answered := answered_raise (by simpa [Answered, pollEnd] using hall.answered) _
    idle := idleReady_raise ..
    noResp := by simp [State.noResp]
    cfgErr := by simpa [State.cfgErr, pollEnd] using hcfg
    output := by simp only [raise_dir, pollEnd, emitAll_dir, sampled_con, hn.con, dirsAfter_pollEnd]
    port := rfl
    host := by simp [pollEnd, hn.host]
    con := by simp [pollEnd, hn.con] }

/-- Without a bound busy samples keep the block in its poll. -/
theorem core_run_inPoll_busy (hbusy : BusyFor n s) (hbound : s.con.prm.bfRetryMax = none) :
    Host.Core.run Sys2Proof.core n s = .next (sampled^[n] s) := by
  cases n with
  | zero => rfl
  | succ n =>
    have hn := sampledBusy_iterate (n := n) fun j hj => hbusy j (Nat.lt_succ_of_lt hj)
    have hlast : (sampled^[n] s).answer 0 = .high := (hn.answered.answer 0).trans (hbusy n n.lt_succ_self)
    rw [core_run_inPoll htodo (fun j hj => hbusy j (Nat.lt_succ_of_lt hj)) (by simp [hbound]),
      run_pollLoop_high hlast (by simp [hn.con, hbound]), Function.iterate_succ_apply', ← htodo, ← hn.todo,
      ← sampled_todo]

end InPoll

/-- Settles O36: the samples are steps, and each leaves the loop to do. -/
theorem busyDeviceKeepsPolling : Obligations.BusyDeviceKeepsPolling := by
  intro s k n htodo hbound hbusy
  have h := sampledBusy_iterate hbusy
  exact ⟨_, core_run_inPoll_busy htodo hbusy hbound, h.emitted, h.answered, h.todo, h.seq, h.status, h.pcnt, h.bfs,
    h.xb, h.rsel, h.setups, h.con, h.port, h.host⟩

end Sys2Proof.Machine
end

section
/-! PROOF. The packed registers by number, construction and launch (10_state.md R20 to R28; 40_pinmap.md R80, R81;
60_exceptions.md R175, R176; 70_reset_and_hazards.md R196). -/

namespace Sys2Proof.Machine

/-! ### Fields of the registers -/

/-- A pin field is a digit of the packed word in base 16. -/
theorem pinField_val {n : Nat} (w : BitVec n) (lo : Nat) : (pinField w lo).val = w.toNat / 2 ^ lo % 16 := by
  simp [pinField, Nat.shiftRight_eq_div_pow]

theorem resolve_rs_val (c : Consts) : (resolve c .rs).val = c.pmCtl.toNat % 16 :=
  (pinField_val c.pmCtl 0).trans (by simp)

theorem resolve_rw_val (c : Consts) : (resolve c .rw).val = c.pmCtl.toNat / 16 % 16 := pinField_val c.pmCtl 4

theorem resolve_en_val (c : Consts) : (resolve c .en).val = c.pmCtl.toNat / 256 % 16 := pinField_val c.pmCtl 8

theorem resolve_data_val (c : Consts) (i : Fin 8) : (resolve c (.d i)).val = c.pmDat.toNat / 16 ^ i.val % 16 := by
  rw [show 16 ^ i.val = 2 ^ (4 * i.val) from (pow_mul 2 4 i.val).symm]
  exact pinField_val c.pmDat (4 * i.val)

/-- A bit of a word is its number's. -/
theorem getLsbD_eq_decide {n : Nat} (w : BitVec n) (i : Nat) : w.getLsbD i = decide (w.toNat / 2 ^ i % 2 = 1) := by
  rw [BitVec.getLsbD, Nat.testBit_eq_decide_div_mod_eq]

theorem eightBit_eq (c : Consts) : eightBit c = decide (c.cfg.toNat % 2 = 1) :=
  (getLsbD_eq_decide c.cfg 0).trans (by simp)

theorem busyFlagPoll_eq (c : Consts) : busyFlagPoll c = decide (c.cfg.toNat / 2 % 2 = 1) := getLsbD_eq_decide c.cfg 1

theorem rwWired_eq (c : Consts) : rwWired c = decide (c.cfg.toNat / 4 % 2 = 1) := getLsbD_eq_decide c.cfg 2

theorem twoLines_eq (c : Consts) : twoLines c = decide (c.cfg.toNat / 8 % 2 = 1) := getLsbD_eq_decide c.cfg 3

theorem tallFont_eq (c : Consts) : tallFont c = decide (c.cfg.toNat / 16 % 2 = 1) := getLsbD_eq_decide c.cfg 4

theorem funcByte_toNat (c : Consts) : (funcByte c).toNat =
    0x20 + 16 * (c.cfg.toNat % 2) + 8 * (c.cfg.toNat / 8 % 2) + 4 * (c.cfg.toNat / 16 % 2) := by
  have hall : ∀ w : BitVec 5, (functionSetByte (w.getLsbD 0) (w.getLsbD 3) (w.getLsbD 4) 0#2).toNat =
    0x20 + 16 * (w.toNat % 2) + 8 * (w.toNat / 8 % 2) + 4 * (w.toNat / 16 % 2) := by decide
  exact hall c.cfg

theorem funcByte_eq (c : Consts) : funcByte c = finalFunctionByte c := by
  rw [finalFunctionByte, ← funcByte_toNat, BitVec.ofNat_toNat, BitVec.setWidth_eq]

/-- The options of a construction before its pin map is packed. -/
abbrev bareConsts (cfg : BitVec 5) (cols : BitVec 8) (prm : Params) : Consts := ⟨0#12, 0#32, cfg, cols, prm⟩

/-- The constants with the words of a packed pin map. -/
abbrev packedConsts (c : Consts) (a : PinAssignment) : Consts :=
  { c with pmCtl := packCtl c a, pmDat := packDat c a }

/-- The construction's constants: the packed ones where the pins fit, else those with empty pin-map words. -/
theorem construct_eq (a : PinAssignment) (cfg : BitVec 5) (cols : BitVec 8) (prm : Params) :
    State.construct a cfg cols prm =
      if pinsFit (bareConsts cfg cols prm) a then State.resetWith (packedConsts (bareConsts cfg cols prm) a) true
      else State.resetWith (bareConsts cfg cols prm) false := by
  simp only [State.construct, pack]
  split <;> simp_all

theorem statusSetRdy_toNat (b : Bool) (st : BitVec 3) :
    (statusSetRdy b st).toNat = 2 * (st.toNat / 2) + (if b = true then 1 else 0) := by
  revert b st; decide

theorem statusRaiseConfig_toNat (st : BitVec 3) : (statusRaiseConfig st).toNat = 4 * (st.toNat / 4) + 3 := by
  revert st; decide

theorem statusRaiseNoResp_toNat (st : BitVec 3) :
    (statusRaiseNoResp st).toNat = 4 + 2 * (st.toNat / 2 % 2) + 1 := by
  revert st; decide

/-- Settles O11: each field is a digit of its word's number. -/
theorem resolveReadsFields : Obligations.ResolveReadsFields := by
  refine ⟨fun c => ⟨resolve_rs_val c, resolve_rw_val c, resolve_en_val c, resolve_data_val c⟩,
    fun c => ⟨eightBit_eq c, busyFlagPoll_eq c, rwWired_eq c, twoLines_eq c, tallFont_eq c, ?_, glyphRows_eq c,
      funcByte_toNat c, by simp [dataWidth, eightBit_eq], by simp [forceCount, busyFlagPoll_eq]⟩,
    fun a cfg cols prm => ?_,
    fun s => ⟨(getLsbD_eq_decide s.status 0).trans (by simp), getLsbD_eq_decide s.status 1,
      getLsbD_eq_decide s.status 2,
      fun q => by simpa using statusSetRdy_toNat (decide (q = .idle)) s.status, statusRaiseConfig_toNat s.status,
      statusRaiseNoResp_toNat s.status⟩⟩
  · simp [handshakeLegal, busyFlagPoll_eq, rwWired_eq]
  · rw [construct_eq]
    split <;> rfl

/-! ### pack (R81) -/

/-- A digit above a number that fits below it is OR-ed to it as it is added. -/
theorem or_shiftLeft_eq_add {w : Nat} {i : Nat} (hw : w < 16 ^ i) (x : Nat) :
    w ||| (x <<< (4 * i)) = w + x * 16 ^ i := by
  have hpow : 16 ^ i = 2 ^ (4 * i) := (pow_mul 2 4 i).symm
  rw [hpow] at hw ⊢
  rw [Nat.or_comm, Nat.shiftLeft_eq, Nat.mul_comm x, ← Nat.two_pow_add_eq_or_of_lt hw, Nat.add_comm]

/-- Digits in base 16, OR-ed each at its place, are their number. -/
theorem foldl_or_digits {g : Nat → Nat} (hg : ∀ i, g i < 16) (n : Nat) :
    (List.range n).foldl (fun w i => w ||| g i <<< (4 * i)) 0 = ((List.range n).map fun i => g i * 16 ^ i).sum ∧
      ((List.range n).map fun i => g i * 16 ^ i).sum < 16 ^ n := by
  induction n with
  | zero => simp
  | succ n ih =>
    obtain ⟨hfold, hlt⟩ := ih
    have hdigit : g n * 16 ^ n ≤ 15 * 16 ^ n := Nat.mul_le_mul_right _ (Nat.le_of_lt_succ (hg n))
    rw [List.range_succ, List.foldl_append, hfold, List.map_append, List.sum_append]
    refine ⟨by simpa using or_shiftLeft_eq_add hlt (g n), ?_⟩
    simp only [List.map_cons, List.map_nil, List.sum_cons, List.sum_nil, pow_succ]
    omega

/-- Each digit is read back from the number. -/
theorem sum_digits_div {g : Nat → Nat} (hg : ∀ i, g i < 16) {n i : Nat} (hi : i < n) :
    ((List.range n).map fun i => g i * 16 ^ i).sum / 16 ^ i % 16 = g i := by
  obtain ⟨n, rfl⟩ : ∃ m, n = m + 1 := ⟨n - 1, by omega⟩
  have hfront : ((List.range (n + 1)).map fun i => g i * 16 ^ i).sum =
      g 0 + 16 * ((List.range n).map fun i => g (i + 1) * 16 ^ i).sum := by
    rw [List.range_succ_eq_map, List.map_cons, List.sum_cons, List.map_map, ← List.sum_map_mul_left]
    simp [Function.comp_def, pow_succ, Nat.mul_comm, Nat.mul_left_comm]
  rw [hfront]
  have h0 := hg 0
  cases i with
  | zero => simp; omega
  | succ i =>
    have hstep : (g 0 + 16 * ((List.range n).map fun i => g (i + 1) * 16 ^ i).sum) / 16 =
      ((List.range n).map fun i => g (i + 1) * 16 ^ i).sum := by omega
    rw [pow_succ', ← Nat.div_div_eq_div_mul, hstep]
    exact sum_digits_div (g := fun i => g (i + 1)) (fun i => hg _) (by omega)

/-- The digits of `PM_CTL`: the pins packed for RS, RW and EN (10_state.md R20). -/
def ctlDigit (c : Consts) (a : PinAssignment) : Nat → Nat
  | 0 => packedPin c a .rs
  | 1 => packedPin c a .rw
  | 2 => packedPin c a .en
  | _ => 0

/-- The digits of `PM_DAT`: the pins packed for the data lines (10_state.md R21). -/
def dataDigit (c : Consts) (a : PinAssignment) (i : Nat) : Nat :=
  if hi : i < 8 then packedPin c a (.d ⟨i, hi⟩) else 0

section Pack
variable {c : Consts} {a : PinAssignment}

theorem pinsFit_iff : pinsFit c a = true ↔ ∀ sg ∈ usedSignals c, assigned a sg ≤ 15 := by
  simp [pinsFit]

variable (h : pinsFit c a = true)
include h

theorem packedPin_lt (sg : Signal) : packedPin c a sg < 16 := by
  unfold packedPin
  split
  next hs => exact Nat.lt_succ_of_le (pinsFit_iff.1 h sg hs)
  next => decide

theorem ctlDigit_lt (i : Nat) : ctlDigit c a i < 16 := by
  unfold ctlDigit
  split <;> [exact packedPin_lt h _; exact packedPin_lt h _; exact packedPin_lt h _; decide]

theorem dataDigit_lt (i : Nat) : dataDigit c a i < 16 := by
  unfold dataDigit
  split
  · exact packedPin_lt h _
  · decide

theorem packCtl_toNat :
    (packCtl c a).toNat = ((List.range 3).map fun i => ctlDigit c a i * 16 ^ i).sum := by
  obtain ⟨hfold, hlt⟩ := foldl_or_digits (ctlDigit_lt h) 3
  have hor : packCtl c a = BitVec.ofNat 12 ((List.range 3).foldl (fun w i => w ||| ctlDigit c a i <<< (4 * i)) 0) := by
    simp [packCtl, List.range_succ, ctlDigit, Nat.or_comm, Nat.or_left_comm]
  rw [hor, hfold, BitVec.toNat_ofNat]
  exact Nat.mod_eq_of_lt hlt

theorem packDat_toNat :
    (packDat c a).toNat = ((List.range 8).map fun i => dataDigit c a i * 16 ^ i).sum := by
  obtain ⟨hfold, hlt⟩ := foldl_or_digits (dataDigit_lt h) 8
  have hor : packDat c a =
    BitVec.ofNat 32 ((List.range 8).foldl (fun w i => w ||| dataDigit c a i <<< (4 * i)) 0) := rfl
  rw [hor, hfold, BitVec.toNat_ofNat]
  exact Nat.mod_eq_of_lt hlt

/-- `resolve` of the packed words is the number packed (R80, R81). -/
theorem resolve_packed (sg : Signal) :
    (resolve (packedConsts c a) sg).val = packedPin c a sg := by
  have hctl {i : Nat} (hi : i < 3) := sum_digits_div (ctlDigit_lt h) hi
  cases sg with
  | rs => rw [resolve_rs_val, packCtl_toNat h]; simpa [ctlDigit] using hctl (i := 0) (by decide)
  | rw => rw [resolve_rw_val, packCtl_toNat h]; exact hctl (i := 1) (by decide)
  | en => rw [resolve_en_val, packCtl_toNat h]; exact hctl (i := 2) (by decide)
  | d i =>
    rw [resolve_data_val, packDat_toNat h, sum_digits_div (dataDigit_lt h) i.isLt]
    exact dif_pos i.isLt

end Pack

/-- Settles O9: the packed words are numbers in base 16 whose digits are the pins. -/
theorem packThenResolve : Obligations.PackThenResolve := by
  intro c a
  refine ⟨pinsFit_iff, fun h => ⟨by simp [pack, h], ?_⟩, fun h => ⟨_, if_pos h, ?_, ?_, fun sg hsg => ?_, fun sg => rfl,
    rfl, rfl, rfl, ?_⟩⟩
  · have h' : pinsFit (bareConsts c.cfg c.cols c.prm) a = false := h
    simp [construct_eq, h']
  · rw [packCtl_toNat h]
    simp [List.range_succ, ctlDigit]
    omega
  · exact packDat_toNat h
  · exact (resolve_packed h sg).trans (if_pos hsg)
  · have h' : pinsFit (bareConsts c.cfg c.cols c.prm) a = true := h
    simp only [construct_eq, h', if_true]
    rfl

/-! ### Construction that fails, and launch (R176, R196) -/

theorem construct_rdy (a : PinAssignment) (cfg : BitVec 5) (cols : BitVec 8) (prm : Params) :
    (State.construct a cfg cols prm).rdy =
      (pinsFit (bareConsts cfg cols prm) a && handshakeLegal (bareConsts cfg cols prm)) := by
  rw [construct_eq]
  split
  next h => simp [h]; rfl
  next h => simp [h]

theorem construct_todo (a : PinAssignment) (cfg : BitVec 5) (cols : BitVec 8) (prm : Params) :
    (State.construct a cfg cols prm).seq = .idle ∧ (State.construct a cfg cols prm).todo = [] ∧
      (State.construct a cfg cols prm).h = [] ∧
      (State.construct a cfg cols prm).cfgErr = !(State.construct a cfg cols prm).rdy := by
  rw [construct_eq]
  split <;> exact ⟨rfl, rfl, rfl, by simp⟩

/-- A block that every step leaves as it is, every run of steps leaves so. -/
theorem core_run_of_step_self {s : State} (h : step s = .next s) (n : Nat) :
    Host.Core.run Sys2Proof.core n s = .next s := by
  induction n with
  | zero => rfl
  | succ n ih => rw [core_run_succ h, ih]

/-- Settles O8: neither ready nor with anything left to do, the block's step is the identity. -/
theorem failedConstructionIsDead : Obligations.FailedConstructionIsDead := by
  intro a cfg cols prm prog n hfail
  have hrdy : (State.construct a cfg cols prm).rdy = false := by
    rw [construct_rdy]
    exact hfail.elim (fun h => by simp [h]) fun h => by simp [h]
  obtain ⟨hseq, htodo, hh, hcfg⟩ := construct_todo a cfg cols prm
  refine ⟨by simp [hcfg, hrdy], hrdy, hh, ?_, .construction, by simp [launch, hrdy]⟩
  exact core_run_of_step_self
    (step_unready (s := { State.construct a cfg cols prm with host := prog }) hseq hrdy htodo) n

/-- The words of a program begin with SETUP and hold no other. -/
theorem setup_first_iff (ws : List OpWord) :
    (ws.head? = some setupWord ∧ setupWord ∉ ws.tail) ↔ ∃ rest, ws = setupWord :: rest ∧ setupWord ∉ rest := by
  cases ws with
  | nil => simp
  | cons w ws => simp

/-- Settles O10: launch's checks in their order are the premises. -/
theorem launchMeetsPremises : Obligations.LaunchMeetsPremises := by
  intro a cfg cols prm prog s
  have hrdy := construct_rdy a cfg cols prm
  rw [← setup_first_iff, ← and_assoc, ← Bool.and_eq_true, ← hrdy]
  have hprm : paramsLegal prm = true ↔ 1 ≤ prm.tEnHi ∧ prm.bfRetryMax ≠ some 0 := by simp [paramsLegal]
  constructor
  · intro h
    simp only [launch] at h
    split_ifs at h with hready hcols hparams hpins hfirst htwice
    cases h
    have hlegal := hprm.1 (by simpa using hparams)
    exact ⟨by simpa using hready, hcols, hlegal.1, hlegal.2, hpins, ⟨not_not.1 hfirst, htwice⟩, rfl⟩
  · rintro ⟨hready, hcols, hhi, hbound, hpins, ⟨hfirst, htwice⟩, rfl⟩
    have hparams := hprm.2 ⟨hhi, hbound⟩
    simp [launch, hready, hcols, hparams, hpins, hfirst, htwice]

/-! ### Reset (R31) -/

/-- Settles O56: reset has emitted nothing, and its registers are those of `resetWith`. -/
theorem resetMeetsInvariants : Obligations.ResetMeetsInvariants := by
  refine ⟨fun c hc => ⟨⟨rfl, rfl⟩, .inl ⟨rfl, by simp [hc], rfl⟩, fun p _ => by simp, by simp, by simp [NoError, hc]⟩,
    ⟨Config.resetConsts, by decide, rfl⟩, fun a cfg cols prm hrdy => ?_⟩
  obtain ⟨hfit, hlegal⟩ : pinsFit (bareConsts cfg cols prm) a = true ∧
      handshakeLegal (bareConsts cfg cols prm) = true := by
    simpa [construct_rdy] using hrdy
  exact ⟨packedConsts (bareConsts cfg cols prm) a, hlegal, (construct_eq ..).trans (if_pos hfit)⟩

/-! ### Exceptions and requests (R175; 44_compound.md R140) -/

/-- Settles O39: raise writes its bit, RDY, SEQ, the lines left and the port. -/
theorem raiseEffect : Obligations.RaiseEffect := fun s =>
  ⟨⟨by simp [State.cfgErr], by simp [State.noResp]⟩, ⟨by simp [State.noResp], by simp [State.cfgErr]⟩,
    fun e => ⟨idleReady_raise e s, rfl, emitted_refl s, rfl, rfl⟩⟩

theorem fromPort_eq_false_iff (i : Instr) : i.fromPort = false ↔ ∃ e l f g, i = .functionSet e l f g := by
  cases i <;> simp [Instr.fromPort]

/-- Settles O6: of the idle step's cases it is the request's, by its expansion. -/
theorem stepPresentsRequest : Obligations.StepPresentsRequest := by
  refine ⟨fun s hs hport => ⟨fun hhost => ?_, fun r rs hhost => ⟨fun ws hexp => ?_, fun why hexp => ?_,
    fun hexp => ?_⟩⟩,
    fun _ _ => rfl, fun c i => ⟨fun hw => ?_, fun hw hf => ?_, fun hw hf => ?_, fromPort_eq_false_iff i⟩⟩
  · simp only [step_ready hs, idleStep, hport, hhost]
  · simp only [step_request hs hport hhost, present, hexp]
  · simp only [step_request hs hport hhost, present, hexp]
  · exact ⟨_, step_request_configurationError hs hport hhost hexp, emitted_refl s, by simp [State.cfgErr],
      by simp [State.noResp], idleReady_raise .., rfl, rfl, rfl⟩
  · simp [expand, expandAsm, hw]
  · simp [expand, expandAsm, hw, hf]
  · simp [expand, expandAsm, hw, hf]

end Sys2Proof.Machine
end

section
/-! PROOF. PRINT_UINT and PRINT_INT: the digits of a value in a base (44_compound.md R147). -/

namespace Sys2Proof.Machine

/-- The loop puts the digits of the value before what it has, most significant first; as many turns suffice as the value
has bits. -/
theorem digitLoop_eq {base : Nat} (hb : 2 ≤ base) {n v : Nat} (hv : v < 2 ^ n) (t : List Byte) :
    digitLoop n base v t = (Nat.digits base v).reverse.map digitCode ++ t := by
  induction n generalizing v t with
  | zero =>
    obtain rfl : v = 0 := by simpa using hv
    simp [digitLoop]
  | succ n ih =>
    by_cases h0 : v = 0
    · simp [digitLoop, h0]
    · have hdiv : v / base < 2 ^ n := by
        calc v / base ≤ v / 2 := Nat.div_le_div_left hb (by decide)
          _ < 2 ^ n := by rw [Nat.div_lt_iff_lt_mul (by decide), ← pow_succ]; exact hv
      rw [digitLoop, if_neg h0, ih hdiv, Nat.digits_def' hb (Nat.pos_of_ne_zero h0)]
      simp

/-- The characters of a value that is not 0 are its digits. -/
theorem uintChars_eq {base : Nat} (hb : 2 ≤ base) {v : Nat} (h0 : v ≠ 0) (hv : v < 2 ^ 32) :
    uintChars base v = (Nat.digits base v).reverse.map digitCode := by
  rw [uintChars, if_neg h0, digitLoop_eq hb hv, List.append_nil]

/-- Reading digits from the most significant on gives the value back. -/
theorem foldl_reverse_digits (base v : Nat) :
    (Nat.digits base v).reverse.foldl (fun acc d => acc * base + d) 0 = v := by
  rw [List.foldl_reverse]
  conv_rhs => rw [← Nat.ofDigits_digits base v, Nat.ofDigits_eq_foldr]
  simp [Nat.mul_comm, Nat.add_comm]

/-- The word of a digit's character (44_compound.md R147). -/
theorem encode_digit {d : Nat} (h : d < 36) : encode (.writeData (digitCode d)) =
    BitVec.ofNat 10 (0x100 + (if d < 10 then 0x30 + d else 0x41 + (d - 10))) := by
  have hcode : (if d < 10 then 0x30 + d else 0x41 + (d - 10)) < 2 ^ 8 := by split <;> omega
  rw [encode_writeData, digitCode, BitVec.toNat_ofNat, Nat.mod_eq_of_lt hcode]

theorem baseLegal_iff (base : Nat) : baseLegal base = true ↔ 2 ≤ base ∧ base ≤ 36 := by
  simp [baseLegal]

theorem expand_printUint_legal (c : Consts) (v : BitVec 32) {base : Nat} (h : baseLegal base = true) :
    expand c (.printUint v base) = .words ((uintChars base v.toNat).map fun b => encode (.writeData b)) :=
  if_pos h

theorem expand_printInt_legal (c : Consts) (v : BitVec 32) {base : Nat} (h : baseLegal base = true) :
    expand c (.printInt v base) = .words ((intChars base v.toInt).map fun b => encode (.writeData b)) :=
  if_pos h

theorem expand_print_illegal (c : Consts) (v : BitVec 32) {base : Nat} (h : base < 2 ∨ base > 36) :
    expand c (.printUint v base) = .refuse .operandOutOfRange ∧
      expand c (.printInt v base) = .refuse .operandOutOfRange := by
  have hbase : ¬ baseLegal base = true := by rw [baseLegal_iff]; omega
  exact ⟨if_neg hbase, if_neg hbase⟩

/-- Settles O47: the loop's characters are the library's digits, reversed. -/
theorem printUintExpansion : Obligations.PrintUintExpansion := by
  intro c v base
  refine ⟨fun h => (expand_print_illegal c v h).1, fun h2 h36 hv => ?_, fun h2 h36 hv => ?_⟩
  · rw [expand_printUint_legal c v ((baseLegal_iff base).2 ⟨h2, h36⟩), hv]
    rfl
  · have h0 : v.toNat ≠ 0 := fun h => hv (BitVec.eq_of_toNat_eq h)
    have hdigit (d : Nat) (hd : d ∈ (Nat.digits base v.toNat).reverse) : d < base :=
      Nat.digits_lt_base h2 (List.mem_reverse.1 hd)
    refine ⟨(Nat.digits base v.toNat).reverse, ?_, hdigit, ?_, foldl_reverse_digits base v.toNat⟩
    · rw [expand_printUint_legal c v ((baseLegal_iff base).2 ⟨h2, h36⟩), uintChars_eq h2 h0 v.isLt, List.map_map]
      exact congrArg Expansion.words
        (List.map_congr_left fun d hd => encode_digit ((hdigit d hd).trans_le h36))
    · have hne : Nat.digits base v.toNat ≠ [] := Nat.digits_ne_nil_iff_ne_zero.2 h0
      rw [List.head?_reverse, List.getLast?_eq_getLast_of_ne_nil hne]
      simpa using Nat.getLast_digit_ne_zero base h0

/-- Settles O48: the sign of the two's complement decides, and its magnitude is what PRINT_UINT prints. -/
theorem printIntExpansion : Obligations.PrintIntExpansion := by
  intro c v base
  have hlt : v.toNat < 2 ^ 32 := v.isLt
  refine ⟨fun h => (expand_print_illegal c v h).2, fun hpos => ?_, fun h2 h36 hneg => ?_⟩
  · have hint : v.toInt = v.toNat := by rw [BitVec.toInt_eq_toNat_cond, if_pos (by omega)]
    have hchars : intChars base v.toInt = uintChars base v.toNat := by simp [intChars, hint]
    simp only [expand, expandPrintInt, expandPrintUint, hchars]
  · have hlegal := (baseLegal_iff base).2 ⟨h2, h36⟩
    have hint : v.toInt = v.toNat - 2 ^ 32 := by rw [BitVec.toInt_eq_toNat_cond, if_neg (by omega)]; norm_num
    have hmag : v.toInt.natAbs = (BitVec.ofNat 32 (2 ^ 32 - v.toNat)).toNat := by
      rw [hint, BitVec.toNat_ofNat]
      omega
    have hchars : intChars base v.toInt = 0x2D#8 :: uintChars base (BitVec.ofNat 32 (2 ^ 32 - v.toNat)).toNat := by
      rw [intChars, if_pos (by omega), hmag]
    refine ⟨_, expand_printUint_legal c _ hlegal, ?_⟩
    rw [expand_printInt_legal c v hlegal, hchars, List.map_cons]
    rfl

end Sys2Proof.Machine
end

section
/-! PROOF. SETUP: its opening, its steps one after another, and its ends under both handshakes (45_init.md R155 to R164;
42_handshake.md R116). -/

namespace Sys2Proof.Machine

/-! ### The events of the lines -/

theorem setupSteps_map_snd (c : Consts) : (setupSteps c).map Prod.snd = setupBytes c := by
  simp [setupSteps, setupBytes, funcByte_eq]

theorem flatMap_openingLines (c : Consts) : (openingLines c).flatMap (actEvents c) = setupOpeningEvents c := by
  have hforce (k : Nat) : (forceEightLines c (k + 1)).flatMap (actEvents c) =
      (if k = 0 then selectEvents c .instruction else []) ++
        rawcycleEvents c (if eightBit c then 0x30#8 else 0x03#8) ++ delayEvents c.prm.tInit := by
    unfold forceEightLines
    by_cases hk : k = 0 <;> simp [hk, actEvents]
  have hset : (setFourLines c).flatMap (actEvents c) =
      if eightBit c then [] else rawcycleEvents c 0x02#8 ++ delayEvents c.prm.tCmd := by
    unfold setFourLines
    split <;> simp [actEvents]
  simp only [openingLines, afterCountLines, setupOpeningEvents, List.flatMap_cons, List.flatMap_append,
    List.flatMap_assoc, hforce, hset]
  simp [actEvents]

/-- The state SETUP's opening leaves: its events emitted and SETUP counted. -/
structure Opened (s t : State) : Prop where
  emitted : Emitted s t (setupOpeningEvents s.con)
  kept : Kept s t
  answered : Answered s t 0
  setups : t.setups = s.setups + 1
  bfs : t.bfs = s.bfs
  pcnt : t.pcnt = s.pcnt

theorem opened_acts (s : State) : Opened s (acts (openingLines s.con) s) := by
  have hcarries : Carries (act .countSetup s) (acts (openingLines s.con) s) :=
    carries_acts (fun h => (afterCountLines_plain s.con _ h).2.1 rfl) _
  exact ⟨flatMap_openingLines s.con ▸ emitted_acts .., hcarries.kept, hcarries.answered, hcarries.setups, hcarries.bfs,
    hcarries.pcnt⟩

/-- SETUP is accepted: its opening is done, and its steps follow. -/
theorem exec_setup {s : State} (h : s.rdy = true) :
    exec .setup s = .next (run (stepsLines (setupSteps s.con) ++ [.seq .idle]) (acts (openingLines s.con) s)) := by
  have hopening : ∀ a ∈ openingLines s.con, Straight s.con a :=
    List.forall_mem_cons.2 ⟨.inl rfl, fun a ha => .inl (afterCountLines_plain s.con a ha).1⟩
  rw [exec_eq rfl, accept_eq, if_pos h, linesOf, setupLines_eq, run_straight hopening]

/-! ### The steps under FixedDelay -/

theorem straight_stepsLines {c : Consts} (hf : busyFlagPoll c = false) (l : List (SetupStep × Byte × Nat)) :
    ∀ a ∈ stepsLines l, Straight c a := by
  intro a ha
  obtain ⟨p, -, ha⟩ := List.mem_flatMap.1 ha
  have hall : ∀ a ∈ transferLines (.sStep p.1) .instruction p.2.1 p.2.2, Straight c a := by
    simp [transferLines, Straight, Act.plain, hf]
  exact hall a ha

theorem flatMap_stepsLines {c : Consts} (hf : busyFlagPoll c = false) (l : List (SetupStep × Byte × Nat)) :
    (stepsLines l).flatMap (actEvents c) =
      (l.map Prod.snd).flatMap fun bt => xferEvents c .instruction bt.1 ++ delayEvents bt.2 := by
  have hstep (p : SetupStep × Byte × Nat) :
    (transferLines (.sStep p.1) .instruction p.2.1 p.2.2).flatMap (actEvents c) =
      xferEvents c .instruction p.2.1 ++ delayEvents p.2.2 := by
    simp [transferLines, actEvents, postwaitEvents_fixed hf]
  simp only [stepsLines, List.flatMap_assoc, hstep, List.flatMap_map]

/-- A transfer leaves its register and its byte in RSEL and XB. -/
theorem acts_transferLines_xb (q : Phase → SeqState) (reg : DevReg) (b : Byte) (t : Nat) (s : State) :
    (acts (transferLines q reg b t) s).xb = b ∧ (acts (transferLines q reg b t) s).rsel = reg := by
  simp [acts, transferLines, act, xfer]

/-- Settles O29: the opening and the steps wait for nothing, and `SEQ <- IDLE` ends them. -/
theorem setupEffectFixedDelay : Obligations.SetupEffectFixedDelay := by
  intro s hrdy hf
  have hopen := opened_acts s
  have hcon : (acts (openingLines s.con) s).con = s.con := acts_con ..
  have hexec := exec_setup hrdy
  rw [run_straight fun a ha => hcon.symm ▸ straight_stepsLines hf _ a ha] at hexec
  have hemit := emitted_append hopen.emitted (emitted_acts (stepsLines (setupSteps s.con)) _)
  rw [hcon, flatMap_stepsLines hf, setupSteps_map_snd] at hemit
  have hcarries : Carries _ (acts (stepsLines (setupSteps s.con)) (acts (openingLines s.con) s)) :=
    carries_acts (by simp [stepsLines, transferLines]) _
  have hsplit : stepsLines (setupSteps s.con) = stepsLines ((setupSteps s.con).take 5) ++
      transferLines (.sStep .don) .instruction 0x0C#8 s.con.prm.tCmd := rfl
  obtain ⟨hxb, hrsel⟩ := acts_transferLines_xb (.sStep .don) .instruction 0x0C#8 s.con.prm.tCmd
    (acts (stepsLines ((setupSteps s.con).take 5)) (acts (openingLines s.con) s))
  rw [← acts_append, ← hsplit] at hxb hrsel
  generalize acts (stepsLines (setupSteps s.con)) (acts (openingLines s.con) s) = t at *
  have hend := carries_run_seqIdle t
  exact ⟨_, hexec, emitted_run_seqIdle hemit, (hopen.kept.trans hcarries.kept).trans hend.kept,
    (hopen.answered.trans hcarries.answered).trans hend.answered, idleReady_run_seqIdle t,
    hcarries.setups.trans hopen.setups, hxb, hrsel, hcarries.bfs.trans hopen.bfs, hcarries.pcnt.trans hopen.pcnt⟩

end Sys2Proof.Machine
end

section
/-! PROOF. The steps of SETUP under BusyFlagPoll, each with its poll, and the ends of SETUP (45_init.md R155 to R164;
42_handshake.md R111, R116). -/

namespace Sys2Proof.Machine

/-! ### The answers of polls one after another -/

theorem pollLevels_cons (k : Nat) (ks : List Nat) :
    pollLevels (k :: ks) = List.replicate k .high ++ (.low :: pollLevels ks) := by
  simp [pollLevels]

theorem length_pollLevels (ks : List Nat) : (pollLevels ks).length = ks.sum + ks.length := by
  induction ks with
  | nil => rfl
  | cons k ks ih => simp [pollLevels_cons, ih]; omega

/-- Answers to a list of levels are those to its first part, and after them those to the rest. -/
theorem answers_append {a b : List Level} {s : State} (h : Answers (a ++ b) s) :
    Answers a s ∧ ∀ n, ∀ hn : n < b.length, s.answer (a.length + n) = b[n] := by
  refine ⟨fun n hn => ?_, fun n hn => ?_⟩
  · rw [h n (by simp; omega), List.getElem_append_left hn]
  · rw [h (a.length + n) (by simpa using hn), List.getElem_append_right (Nat.le_add_right _ _)]
    simp

/-- Answers of high levels are busy samples. -/
theorem busyFor_of_answers {k : Nat} {s : State} (h : Answers (List.replicate k .high) s) : BusyFor k s := by
  intro j hj
  exact (h j (by simpa using hj)).trans (List.getElem_replicate _)

/-- After a state that has used the answers to a list's first part come those to the rest. -/
theorem Answered.answers {a b : List Level} {s t : State} (h : Answered s t a.length) (hs : Answers (a ++ b) s) :
    Answers b t := by
  intro n hn
  rw [h.answer n]
  exact (answers_append hs).2 n hn

/-- The answers of some polls begin with the first poll's. -/
theorem busyFor_of_pollLevels {k : Nat} {ks : List Nat} {s : State} (h : Answers (pollLevels (k :: ks)) s) :
    BusyFor k s ∧ s.answer k = .low := by
  rw [pollLevels_cons] at h
  obtain ⟨hbusy, hrest⟩ := answers_append h
  exact ⟨busyFor_of_answers hbusy, by simpa using (hrest 0 (by simp)).trans (List.getElem_cons_zero ..)⟩

/-! ### One step -/

/-- The state after a step of SETUP whose poll found the device busy `k` times. -/
def pollStep (p : SetupStep × Byte × Nat) (k : Nat) (s : State) : State :=
  transferred (.sStep p.1) .instruction p.2.1 p.2.2
    (polled (pollEvents s.con k) (k + 1) false (loaded (.sStep p.1) .instruction p.2.1 s))

/-- What some steps of SETUP, each with a number of busy samples in its poll, do to the state. -/
structure StepsDone (l : List (SetupStep × Byte × Nat)) (ks : List Nat) (s t : State) : Prop where
  emitted : Emitted s t
    (((l.map Prod.snd).zip ks).flatMap fun p => pollEvents s.con p.2 ++ xferEvents s.con .instruction p.1.1)
  kept : Kept s t
  answered : Answered s t (ks.sum + ks.length)
  setups : t.setups = s.setups
  last : (ks = [] ∧ t = s) ∨ ∃ p k, (l.zip ks).getLast? = some (p, k) ∧
    t.xb = p.2.1 ∧ t.rsel = .instruction ∧ t.bfs = false ∧ t.pcnt = k + 1

theorem stepsLines_cons (p : SetupStep × Byte × Nat) (l : List (SetupStep × Byte × Nat)) (rest : List Act) :
    stepsLines (p :: l) ++ rest =
      transferLines (.sStep p.1) .instruction p.2.1 p.2.2 ++ (stepsLines l ++ rest) := by
  simp [stepsLines]

theorem stepsDone_nil (l : List (SetupStep × Byte × Nat)) (s : State) : StepsDone l [] s s :=
  ⟨by simpa using emitted_refl s, ⟨rfl, rfl, rfl, rfl, rfl⟩, ⟨rfl, rfl⟩, rfl, .inl ⟨rfl, rfl⟩⟩

theorem stepsDone_pollStep {s : State} (hpoll : busyFlagPoll s.con = true) (p : SetupStep × Byte × Nat) (k : Nat) :
    StepsDone [p] [k] s (pollStep p k s) := by
  have hemit := emitted_append (emitted_polled (pollEvents s.con k) (k + 1) false
    (loaded (.sStep p.1) .instruction p.2.1 s))
    (emitted_transferred (.sStep p.1) .instruction p.2.1 p.2.2 _)
  rw [polled_con, loaded_con, postwaitEvents_poll hpoll, List.append_nil] at hemit
  have hemit : Emitted s (pollStep p k s) (pollEvents s.con k ++ xferEvents s.con .instruction p.2.1) := hemit
  have hanswered : Answered s (pollStep p k s) (k + 1) := answered_transferred _ _ _ _ (answered_polled ..)
  exact {
    emitted := by simpa using hemit
    kept := by simp [Kept, pollStep, State.cfgErr, State.noResp]
    answered := by simpa using hanswered
    setups := by simp [pollStep]
    last := .inr ⟨p, k, rfl, by simp [pollStep]⟩ }

theorem StepsDone.cons {p : SetupStep × Byte × Nat} {l : List (SetupStep × Byte × Nat)} {k : Nat} {ks : List Nat}
    {s t u : State} (h : StepsDone [p] [k] s t) (h' : StepsDone l ks t u) : StepsDone (p :: l) (k :: ks) s u := by
  have hcon : t.con = s.con := h.kept.1
  refine ⟨?_, h.kept.trans h'.kept, ?_, h'.setups.trans h.setups, .inr ?_⟩
  · simpa [hcon] using emitted_append h.emitted h'.emitted
  · have hans := h.answered.trans h'.answered
    rwa [show [k].sum + [k].length + (ks.sum + ks.length) = (k :: ks).sum + (k :: ks).length by simp; omega] at hans
  · obtain ⟨rfl, rfl⟩ | ⟨q, j, hlast, hrest⟩ := h'.last
    · obtain ⟨hnil, -⟩ | ⟨q, j, hlast, hrest⟩ := h.last
      · cases hnil
      · exact ⟨q, j, by simpa using hlast, hrest⟩
    · exact ⟨q, j, by simp [hlast, List.getLast?_cons], hrest⟩

/-- Steps whose polls end are done, one after another, and the steps after them follow. -/
theorem core_run_steps {l : List (SetupStep × Byte × Nat)} {ks : List Nat} {s : State}
    (hpoll : busyFlagPoll s.con = true)
    (hlen : ks.length ≤ l.length) (hans : Answers (pollLevels ks) s)
    (hbound : ∀ m, s.con.prm.bfRetryMax = some m → ∀ k ∈ ks, k < m) (rest : List Act) :
    ∃ t, StepsDone l ks s t ∧ Host.Core.run Sys2Proof.core ks.sum (run (stepsLines l ++ rest) s) =
      .next (run (stepsLines (l.drop ks.length) ++ rest) t) := by
  induction ks generalizing l s with
  | nil => exact ⟨s, stepsDone_nil l s, rfl⟩
  | cons k ks ih =>
    cases l with
    | nil => simp at hlen
    | cons p l =>
      obtain ⟨hbusy, hidle⟩ := busyFor_of_pollLevels hans
      have hdone := stepsDone_pollStep hpoll p k
      have hcon : (pollStep p k s).con = s.con := hdone.kept.1
      have hrest : Answers (pollLevels ks) (pollStep p k s) := by
        have hused : Answered s (pollStep p k s) (List.replicate k Level.high ++ [Level.low]).length := by
          simpa using hdone.answered
        exact hused.answers (by simpa [pollLevels_cons] using hans)
      have hstep : Host.Core.run Sys2Proof.core k (run (stepsLines (p :: l) ++ rest) s) =
          .next (run (stepsLines l ++ rest) (pollStep p k s)) := by
        have hwait := core_run_prewait_idle (s := loaded (.sStep p.1) .instruction p.2.1 s) hpoll
          (afterPrewaitLines (.sStep p.1) .instruction p.2.1 p.2.2 ++ (stepsLines l ++ rest)) hbusy hidle
          (fun m hm => hbound m hm k (.head _))
        rw [stepsLines_cons, run_transferLines, hwait, run_afterPrewaitLines]
        rfl
      obtain ⟨t, ht, hrun⟩ := ih (l := l) (s := pollStep p k s) (hcon ▸ hpoll) (by simpa using hlen) hrest
        (fun m hm k hk => hbound m (hcon ▸ hm) k (.tail _ hk))
      exact ⟨t, hdone.cons ht, by rw [List.sum_cons, core_run_add hstep, hrun]; rfl⟩

/-! ### SETUP whose polls end -/

theorem setupStepsPoll_eq (c : Consts) (ks : List Nat) : setupStepsPoll c ks =
    (((setupSteps c).map Prod.snd).zip ks).flatMap fun p => pollEvents c p.2 ++ xferEvents c .instruction p.1.1 := by
  rw [setupSteps_map_snd]
  rfl

/-- What SETUP has emitted after those steps, and what it has left alone. -/
theorem emitted_setup {ks : List Nat} {s v t : State} (hopen : Opened s v)
    (hdone : StepsDone (setupSteps s.con) ks v t) :
    Emitted s t (setupEventsPoll s.con ks) ∧ Kept s t ∧ Answered s t (ks.sum + ks.length) ∧
      t.setups = s.setups + 1 := by
  have hcon : v.con = s.con := hopen.kept.1
  refine ⟨?_, hopen.kept.trans hdone.kept, by simpa using hopen.answered.trans hdone.answered,
    hdone.setups.trans hopen.setups⟩
  rw [setupEventsPoll, setupStepsPoll_eq]
  exact emitted_append hopen.emitted (hcon ▸ hdone.emitted)

section Setup
variable {s : State} (hrdy : s.rdy = true) (hpoll : busyFlagPoll s.con = true) {ks : List Nat} (hlen : ks.length ≤ 6)
  (hans : Answers (pollLevels ks) s) (hbound : ∀ m, s.con.prm.bfRetryMax = some m → ∀ k ∈ ks, k < m)
include hrdy hpoll hlen hans hbound

/-- SETUP, accepted, does its opening and then as many steps as polls end; the steps after them follow. -/
theorem core_run_setup :
    ∃ u v t, exec .setup s = .next u ∧ Opened s v ∧ StepsDone (setupSteps s.con) ks v t ∧
      Host.Core.run Sys2Proof.core ks.sum u =
        .next (run (stepsLines ((setupSteps s.con).drop ks.length) ++ [.seq .idle]) t) := by
  have hexec := exec_setup hrdy
  have hopen := opened_acts s
  generalize acts (openingLines s.con) s = v at *
  have hcon : v.con = s.con := hopen.kept.1
  have hans' : Answers (pollLevels ks) v := Answered.answers (a := []) hopen.answered hans
  obtain ⟨t, hdone, hrun⟩ := core_run_steps (l := setupSteps s.con) (hcon ▸ hpoll) hlen hans'
    (fun m hm => hbound m (hcon ▸ hm)) [.seq .idle]
  exact ⟨_, v, t, hexec, hopen, hdone, hrun⟩

end Setup

theorem exists_six {ks : List Nat} (h : ks.length = 6) : ∃ k1 k2 k3 k4 k5 k6, ks = [k1, k2, k3, k4, k5, k6] :=
  match ks, h with
  | [_, _, _, _, _, _], _ => ⟨_, _, _, _, _, _, rfl⟩

/-- Settles O30: with six polls that end all six steps are done, and `SEQ <- IDLE` is left. -/
theorem setupEffectBusyFlagPoll : Obligations.SetupEffectBusyFlagPoll := by
  intro s ks hrdy hpoll hlen hans hbound
  obtain ⟨u, v, t, hexec, hopen, hdone, hrun⟩ := core_run_setup hrdy hpoll hlen.le hans hbound
  obtain ⟨hemit, hkept, hanswered, hsetups⟩ := emitted_setup hopen hdone
  rw [hlen] at hrun hanswered
  refine ⟨u, ks.sum, _, hexec, hrun, emitted_run_seqIdle hemit, hkept.trans (carries_run_seqIdle t).kept,
    answered_run_seqIdle hanswered, idleReady_run_seqIdle t, hsetups, ?_⟩
  obtain ⟨rfl, -⟩ | ⟨p, k, hlast, hxb, hrsel, hbfs, hpcnt⟩ := hdone.last
  · cases hlen
  · obtain ⟨k1, k2, k3, k4, k5, k6, rfl⟩ := exists_six hlen
    cases hlast
    exact ⟨hxb, hrsel, hbfs, hpcnt⟩

/-- SETUP one of whose polls reaches the bound, after earlier ones that ended (R111, R155). -/
theorem setup_raised {s : State} (hrdy : s.rdy = true) (hpoll : busyFlagPoll s.con = true) {ks : List Nat} {m : Nat}
    (hlen : ks.length < 6) (hm : s.con.prm.bfRetryMax = some (m + 1)) (hks : ∀ k ∈ ks, k < m + 1)
    (hans : Answers (pollLevels ks ++ List.replicate (m + 1) .high) s) :
    ∃ u n t, exec .setup s = .next u ∧ Host.Core.run Sys2Proof.core n u = .next t ∧
      RaisedAfter s t (setupEventsPoll s.con ks ++ failedPollEvents s.con (m + 1)) (ks.sum + ks.length + (m + 1)) ∧
      t.setups = s.setups + 1 := by
  obtain ⟨u, v, w, hexec, hopen, hdone, hrun⟩ := core_run_setup hrdy hpoll hlen.le (answers_append hans).1
    (fun m' hm' => by obtain rfl : m' = m + 1 := by simpa [hm] using hm'.symm
                      exact hks)
  obtain ⟨hemit, hkept, hanswered, hsetups⟩ := emitted_setup hopen hdone
  obtain ⟨p, l, hl⟩ : ∃ p l, (setupSteps s.con).drop ks.length = p :: l :=
    List.exists_cons_of_ne_nil (by simpa [List.drop_eq_nil_iff, setupSteps] using hlen)
  rw [hl, stepsLines_cons, run_transferLines] at hrun
  have hcon : (loaded (.sStep p.1) .instruction p.2.1 w).con = s.con := hkept.1
  have hbusy : BusyFor (m + 1) (loaded (.sStep p.1) .instruction p.2.1 w) := by
    have hused : Answered s w (pollLevels ks).length := by rwa [length_pollLevels]
    exact busyFor_of_answers (s := w) (hused.answers hans)
  obtain ⟨t, hrun', hset, hraised⟩ := core_run_prewait_raised (hcon ▸ hpoll) hbusy (hcon ▸ hm)
    (afterPrewaitLines (.sStep p.1) .instruction p.2.1 p.2.2 ++ (stepsLines l ++ [.seq .idle]))
  obtain ⟨-, hcfg, -, -, hhost⟩ := hkept
  rw [hcon] at hraised
  exact ⟨u, ks.sum + m, t, hexec, (core_run_add hrun m).trans hrun',
    hraised.after (u := loaded _ _ _ w) hemit hanswered hcon
      ((statusCfgErr_setRdy ..).trans hcfg) hhost, hset.trans hsetups⟩

/-- Settles O35: the three places a poll can stand in, each at its bound. -/
theorem pollBoundRaises : Obligations.PollBoundRaises := by
  refine ⟨fun s w ws i m hs hport hdec hfrom hi hpoll hm hbound hbusy => ?_, fun s k n htodo hn hbound hbusy => ?_,
    fun s ks m hrdy hpoll hlen hbound hm hks hans => ?_⟩
  · obtain ⟨k, rfl⟩ := Nat.exists_eq_add_of_le' hm
    obtain ⟨u, t, hexec, hrun, h⟩ := exec_poll_bound (s := { s with port := ws }) (wellFormed_of_decode hdec) hi hs.2.1
      hpoll hbusy hbound
    have hstep := (stepRunsDecodedInstruction s w ws i hs hport hdec hfrom).trans hexec
    exact ⟨t, (core_run_succ hstep k).trans hrun, h.emitted, h.answered, h.idle, h.noResp, h.cfgErr, h.output, h.port,
      h.host, h.con⟩
  · obtain ⟨n, rfl⟩ := Nat.exists_eq_add_of_le' hn
    obtain ⟨t, hrun, h⟩ := core_run_inPoll_raised htodo hbusy hbound
    exact ⟨t, hrun, h.emitted, h.answered, h.idle, h.noResp, h.cfgErr, h.output, h.port, h.host, h.con⟩
  · obtain ⟨m, rfl⟩ := Nat.exists_eq_add_of_le' hm
    obtain ⟨u, n, t, hexec, hrun, h, hset⟩ := setup_raised hrdy hpoll hlen hbound hks hans
    exact ⟨u, n, t, hexec, hrun, h.emitted, h.answered, h.idle, h.noResp, h.cfgErr, h.output, h.port, h.host, h.con,
      hset⟩

end Sys2Proof.Machine
end

section
/-! PROOF. The bus cycles of SETUP, and the level an operation leaves on read/write (45_init.md R166;
10_state.md R32). -/

namespace Sys2Proof.Machine

/-! ### The bus cycles of SETUP (R166) -/

/-- With enable low and no write of `H` to it there is no falling edge, and no bus cycle. -/
theorem busCycles_eq_nil_of_enLow {c : Consts} {es : List Event} (h : setsig c .en .high ∉ es) {out : Vector Level 16}
    (hen : EnLow c out) : busCycles c out es = [] := by
  induction es generalizing out with
  | nil => rfl
  | cons e es ih =>
    obtain ⟨he, hes⟩ := not_or.1 (mt List.mem_cons.2 h)
    have hlow : out[resolve c .en] = .low := hen
    have hnext : EnLow c (latchAfter out e) := by
      cases e with
      | w p l =>
        by_cases hp : p = resolve c .en
        · subst hp
          cases l with
          | low => simp [EnLow, latchAfter]
          | high => exact absurd rfl he
        · simpa [EnLow, latchAfter, hp] using hen
      | _ => exact hen
    simp [busCycles, isFall, hlow, ih hes hnext]

theorem Makes.imp {c : Consts} {I J K : Vector Level 16 → Prop} {es : List Event} {x : List BusCycle}
    (h : Makes c I J es x) (hJK : ∀ out, J out → K out) : Makes c I K es x :=
  fun out hI => (h out hI).imp_right (hJK _)

/-- The pin configuration makes no cycle and leaves a write selected (R156). -/
theorem makes_pinConfig (c : Consts) : Makes c (EnLow c) (Selected c .low) (pinConfigEvents c) [] := by
  intro out hen
  have hused {sg : Signal} (h : sg ∈ usedSignals c) :=
    ((configure_pins c (usedSignals c) (Vector.replicate 16 .input) out (resolve c sg)).1 (List.mem_map_of_mem h)).2
  have hrise : setsig c .en .high ∉ pinConfigEvents c := by simp [pinConfigEvents, setsig]
  refine ⟨busCycles_eq_nil_of_enLow hrise hen, hused (en_used c), hused (rs_used c), ?_⟩
  unfold rwLevel
  split
  next hw => exact hused (rw_used hw)
  next => rfl

theorem flatMap_singleton_const {α β : Type} (l : List α) (x : β) :
    l.flatMap (fun _ => [x]) = List.replicate l.length x := by
  induction l with
  | nil => rfl
  | cons a l ih => simpa [List.replicate_succ] using ih

section Distinct
variable {c : Consts} (hd : PinsDistinct c)
include hd

/-- SETUP's opening makes the forced function sets and the switch to four bits (R158, R159). -/
theorem makes_opening : Makes c (EnLow c) (EnLow c) (setupOpeningEvents c) (setupOpeningCycles c) := by
  have hforce (k : Nat) : Makes c (Selected c .low) (Selected c .low)
      ((if k = 0 then selectEvents c .instruction else []) ++
        rawcycleEvents c (if eightBit c then 0x30#8 else 0x03#8) ++ delayEvents c.prm.tInit)
      [instructionCycle (if eightBit c then 0x30#8 else 0x03#8)] := by
    have hselect : Makes c (Selected c .low) (Selected c .low)
        (if k = 0 then selectEvents c .instruction else []) [] := by
      split
      · exact fun out h => makes_select_instruction hd out h.1
      · exact makes_nil fun _ => id
    have hraw := makes_rawcycle hd (if eightBit c then 0x30#8 else 0x03#8)
    have hlow : (if eightBit c then (if eightBit c then 0x30#8 else 0x03#8)
        else (if eightBit c then 0x30#8 else 0x03#8) &&& 0x0F#8) = if eightBit c then 0x30#8 else 0x03#8 := by
      cases eightBit c <;> rfl
    rw [hlow] at hraw
    exact (hselect.append hraw).append (makes_delay _)
  have hset : Makes c (Selected c .low) (EnLow c)
      (if eightBit c then [] else rawcycleEvents c 0x02#8 ++ delayEvents c.prm.tCmd)
      (if eightBit c then [] else [instructionCycle 0x02#8]) := by
    split
    next => exact makes_nil fun _ h => h.1
    next h8 =>
      have hraw := makes_rawcycle hd 0x02#8
      rw [if_neg h8] at hraw
      exact (hraw.append (makes_delay _)).imp fun _ h => h.1
  have hforces := makes_flatMap (l := List.range (forceCount c)) fun k _ => hforce k
  rw [flatMap_singleton_const, List.length_range] at hforces
  exact (((makes_pinConfig c).append (makes_delay _)).append hforces).append hset

/-- The cycles of SETUP under FixedDelay are its opening's and those of its bytes. -/
theorem makes_setupFixed : Makes c (EnLow c) (EnLow c) (setupEventsFixed c) (setupCyclesFixed c) :=
  (makes_opening hd).append <| makes_flatMap fun bt _ => by
    simpa [selectedRs] using (makes_xfer hd (reg := .instruction) rfl bt.1).append (makes_delay bt.2)

/-- Under BusyFlagPoll the read cycles of a poll come before each byte's. -/
theorem makes_setupPoll (hw : rwWired c = true) (ks : List Nat) :
    Makes c (EnLow c) (EnLow c) (setupEventsPoll c ks) (setupCyclesPoll c ks) :=
  (makes_opening hd).append <| makes_flatMap fun p _ =>
    (makes_poll hd hw p.2).append (makes_xfer hd (reg := .instruction) rfl p.1.1)

end Distinct

/-- Settles O31: the cycles are those of the events SETUP emits. -/
theorem setupBusCycles : Obligations.SetupBusCycles := by
  refine ⟨fun s hrdy hf hd hen => ?_, fun s ks hrdy hpoll hw hd hen hlen hans hbound => ?_⟩
  · obtain ⟨t, hexec, ⟨hh, -⟩, -, -, hidle, -⟩ := setupEffectFixedDelay s hrdy hf
    exact ⟨t, _, hexec, hidle, hh, (makes_setupFixed hd s.out hen).1⟩
  · obtain ⟨u, n, t, hexec, hrun, ⟨hh, -⟩, -, -, hidle, -⟩ := setupEffectBusyFlagPoll s ks hrdy hpoll hlen hans hbound
    exact ⟨u, n, t, _, hexec, hrun, hidle, hh, (makes_setupPoll hd hw ks s.out hen).1⟩

/-! ### The level of read/write (R32) -/

theorem Unwritten.append {p : PinId} {a b : List Event} (ha : Unwritten p a) (hb : Unwritten p b) :
    Unwritten p (a ++ b) :=
  fun l h => (List.mem_append.1 h).elim (ha l) (hb l)

theorem pulse_unwritten {c : Consts} {p : PinId} (h : p ≠ resolve c .en) : Unwritten p (pulseEvents c) := by
  have henable (l : Level) : Unwritten p [setsig c .en l] := fun l' => by simp [setsig, h]
  exact (((henable _).append (delay_unwritten _ p)).append (henable _)).append (delay_unwritten _ p)

theorem sample_unwritten {c : Consts} {p : PinId} (h : p ≠ resolve c .en) (l : Level) :
    Unwritten p (sampleEvents c l) := by
  have henable (l : Level) : Unwritten p [setsig c .en l] := fun l' => by simp [setsig, h]
  rw [sampleEvents_split]
  refine ((((henable _).append (read_unwritten c l p)).append (henable _)).append (delay_unwritten _ p)).append ?_
  split
  · nofun
  · exact pulse_unwritten h

section Wired
variable {c : Consts} (hd : PinsDistinct c) (hw : rwWired c = true)
include hd hw

theorem rw_unwritten_byte (b : Byte) : Unwritten (resolve c .rw) (byteEvents c b) := by
  have hen : resolve c .rw ≠ resolve c .en := resolve_ne hd (rw_used hw) (en_used c) nofun
  unfold byteEvents
  split
  next h8 => exact ((places_put8 hd h8 b).others .rw (rw_used hw) nofun).append (pulse_unwritten hen)
  next h8 =>
    have hput (n : Nibble) := ((places_put4 hd (by simpa using h8) n).others .rw (rw_used hw) nofun).append
      (pulse_unwritten hen)
    exact (hput _).append (hput _)

/-- A transfer leaves read/write Low. -/
theorem rw_xfer {reg : DevReg} (hreg : selectedRw reg = .low) (b : Byte) (out : Vector Level 16) :
    (latchesAfter out (xferEvents c reg b))[resolve c .rw] = .low := by
  rw [xferEvents, latchesAfter_append, latchesAfter_unwritten (rw_unwritten_byte hd hw b)]
  exact (latchesAfter_select_rw hw out reg).trans hreg

/-- A poll leaves read/write High. -/
theorem rw_poll (k : Nat) (out : Vector Level 16) :
    (latchesAfter out (pollEvents c k))[resolve c .rw] = .high := by
  have hen : resolve c .rw ≠ resolve c .en := resolve_ne hd (rw_used hw) (en_used c) nofun
  have hrest : Unwritten (resolve c .rw) ([.m (resolve c d7) .input] ++
      ((List.replicate k (sampleEvents c .high)).flatten ++ (sampleEvents c .low ++ pollEndEvents c))) := by
    refine Unwritten.append (fun l => by simp)
      (Unwritten.append ?_ ((sample_unwritten hen _).append fun l => by simp [pollEndEvents]))
    intro l h
    obtain ⟨es, hes, he⟩ := List.mem_flatten.1 h
    rw [List.eq_of_mem_replicate hes] at he
    exact sample_unwritten hen _ l he
  have hsplit : pollEvents c k = selectEvents c .busyFlagRead ++ ([.m (resolve c d7) .input] ++
      ((List.replicate k (sampleEvents c .high)).flatten ++ (sampleEvents c .low ++ pollEndEvents c))) := by
    simp [pollEvents, pollBeginEvents]
  rw [hsplit, latchesAfter_append, latchesAfter_unwritten hrest]
  exact latchesAfter_select_rw hw out .busyFlagRead

end Wired

/-- Settles O54: the last events are a transfer's, but for WAIT, whose last are a poll's. -/
theorem readWriteLevelAfterOperation : Obligations.ReadWriteLevelAfterOperation := by
  refine ⟨fun i s k hwf hi hrdy hpoll hw hd hbusy hidle hbound => ?_, fun s ks hrdy hpoll hw hd hlen hans hbound => ?_⟩
  · obtain ⟨u, t, hexec, hrun, ⟨-, -, hout, -⟩, -, hanswered, hend, -⟩ :=
      exec_poll_idle hwf hi hrdy hpoll hbusy hidle hbound
    refine ⟨u, k, t, hexec, hrun, hend, hanswered, ?_⟩
    rw [hout, latchesAfter_append]
    obtain ⟨reg, b, -, htr, hreg, -⟩ | rfl | rfl := linesOf_cases i
    · have hne : i ≠ .wait := by rintro rfl; cases htr
      rw [if_neg hne, afterPollEvents, htr]
      exact rw_xfer hd hw hreg b _
    · exact rw_poll hd hw k s.out
    · exact absurd rfl hi
  · obtain ⟨u, n, t, hexec, hrun, ⟨-, -, hout, -⟩, -, hanswered, hidle, -⟩ :=
      setupEffectBusyFlagPoll s ks hrdy hpoll hlen hans hbound
    refine ⟨u, n, t, hexec, hrun, hidle, hanswered, ?_⟩
    obtain ⟨k1, k2, k3, k4, k5, k6, rfl⟩ := exists_six hlen
    have hlast : setupEventsPoll s.con [k1, k2, k3, k4, k5, k6] = setupEventsPoll s.con [k1, k2, k3, k4, k5] ++
        pollEvents s.con k6 ++ xferEvents s.con .instruction 0x0C#8 := by
      simp [setupEventsPoll, setupStepsPoll, setupBytes]
    rw [hout, hlast, latchesAfter_append]
    exact rw_xfer hd hw (reg := .instruction) rfl _ _

end Sys2Proof.Machine
end

section
/-! PROOF. The law of repetition, and the frame of every operation (43_commands.md R120, R130; 10_state.md). -/

namespace Sys2Proof.Machine

/-! ### An operation under FixedDelay -/

/-- Under FixedDelay an operation is its lines, done at once, and `SEQ <- IDLE`. -/
theorem exec_fixed {i : Instr} {s t : State} (hf : busyFlagPoll s.con = false) (hrdy : s.rdy = true)
    (h : exec i s = .next t) : ∃ k, linesOf i s.con = k ++ [.seq .idle] ∧ t = run [.seq .idle] (acts k s) := by
  obtain ⟨k, hk, hline⟩ := exists_linesOf_eq i s.con
  obtain ⟨-, rfl⟩ := exec_cases h
  have hstraight : ∀ a ∈ k, Straight s.con a := by
    intro a ha
    obtain ⟨hloop, -⟩ := hline a ha
    cases a with
    | prewait => exact .inr ⟨rfl, hf⟩
    | pollLoop => exact absurd rfl hloop
    | _ => exact .inl rfl
  exact ⟨k, hk, by rw [if_pos hrdy, hk, run_straight hstraight]⟩

/-! ### Doing the same twice (R130) -/

/-- Where each single change keeps an observed value or fixes it, a list of changes done again leaves the value as the
first time left it. -/
theorem foldl_again {α β γ : Type} {f : α → γ → α} {get : α → β}
    (h : ∀ c, (∀ a, get (f a c) = get a) ∨ ∃ x, ∀ a, get (f a c) = x) (l : List γ) {a b : α}
    (hb : get b = get (l.foldl f a)) : get (l.foldl f b) = get (l.foldl f a) := by
  have hlist : (∀ a, get (l.foldl f a) = get a) ∨ ∃ x, ∀ a, get (l.foldl f a) = x := by
    clear hb
    induction l with
    | nil => exact .inl fun _ => rfl
    | cons c l ih =>
      obtain hkeep | ⟨x, hx⟩ := ih
      · exact (h c).imp (fun hc a => (hkeep _).trans (hc a)) fun ⟨x, hx⟩ => ⟨x, fun a => (hkeep _).trans (hx a)⟩
      · exact .inr ⟨x, fun a => hx _⟩
  obtain hkeep | ⟨x, hx⟩ := hlist
  · exact (hkeep b).trans hb
  · rw [hx, hx]

theorem dirsAfter_twice (dir : Vector PinDir 16) (es : List Event) :
    dirsAfter (dirsAfter dir es) es = dirsAfter dir es := by
  refine Vector.ext fun i hi => foldl_again (get := fun v : Vector PinDir 16 => v[i]) (fun e => ?_) es rfl
  cases e with
  | m p d =>
    by_cases hp : p = ⟨i, hi⟩
    · exact .inr ⟨d, fun v => by simp [dirAfter, hp]⟩
    · exact .inl fun v => Vector.getElem_set_ne p.isLt hi fun h => hp (Fin.ext h)
  | _ => exact .inl fun _ => rfl

theorem latchesAfter_twice (out : Vector Level 16) (es : List Event) :
    latchesAfter (latchesAfter out es) es = latchesAfter out es := by
  refine Vector.ext fun i hi => foldl_again (get := fun v : Vector Level 16 => v[i]) (fun e => ?_) es rfl
  cases e with
  | w p l =>
    by_cases hp : p = ⟨i, hi⟩
    · exact .inr ⟨l, fun v => by simp [latchAfter, hp]⟩
    · exact .inl fun v => Vector.getElem_set_ne p.isLt hi fun h => hp (Fin.ext h)
  | _ => exact .inl fun _ => rfl

/-- Every line loads the same byte and register, or leaves them. -/
theorem act_xb_rsel (a : Act) :
    ((∀ s, (act a s).xb = s.xb) ∨ ∃ x, ∀ s, (act a s).xb = x) ∧
      ((∀ s, (act a s).rsel = s.rsel) ∨ ∃ x, ∀ s, (act a s).rsel = x) := by
  cases a with
  | load reg b => exact ⟨.inr ⟨b, fun _ => rfl⟩, .inr ⟨reg, fun _ => rfl⟩⟩
  | xfer reg b => exact ⟨.inr ⟨b, by simp [act, xfer]⟩, .inr ⟨reg, by simp [act, xfer]⟩⟩
  | select reg => exact ⟨.inl (by simp [act]), .inr ⟨reg, by simp [act]⟩⟩
  | _ => exact ⟨.inl (by simp [act]), .inl (by simp [act])⟩

/-- An observed value that none of the lines changes, they leave unchanged. -/
theorem acts_keeps {β : Type} (get : State → β) {k : List Act} (h : ∀ a ∈ k, ∀ s, get (act a s) = get s) (s : State) :
    get (acts k s) = get s := by
  induction k generalizing s with
  | nil => rfl
  | cons a k ih => exact (ih (fun b hb => h b (.tail _ hb)) _).trans (h a (.head _) s)

/-- Lines and `SEQ <- IDLE` leave the status word of a ready block as it is. -/
theorem status_run_seqIdle_acts {s : State} (h : s.rdy = true) (k : List Act) :
    (run [.seq .idle] (acts k s)).status = s.status :=
  status_ext ((statusRdy_setRdy ..).trans h.symm)
    ((statusCfgErr_setRdy ..).trans (acts_keeps State.cfgErr (fun a _ => act_cfgErr a) s))
    ((statusNoResp_setRdy ..).trans (acts_keeps State.noResp (fun a _ => act_noResp a) s))

/-- Settles O32: under FixedDelay an operation is the same list of changes both times. -/
theorem repetitionIsIdempotent : Obligations.RepetitionIsIdempotent := by
  intro i s t hrdy hf h
  obtain ⟨k, hk, rfl⟩ := exec_fixed hf hrdy h
  have hidle := idleReady_run_seqIdle (acts k s)
  obtain ⟨hh, hdir, hout, -⟩ : Emitted s (run [.seq .idle] (acts k s)) (k.flatMap (actEvents s.con)) := emitted_acts k s
  have hcon : (run [.seq .idle] (acts k s)).con = s.con := acts_con k s
  obtain ⟨u, hexec⟩ : ∃ u, exec i (run [.seq .idle] (acts k s)) = .next u :=
    ⟨_, by rw [exec_eq (exec_cases h).1, accept_eq]⟩
  obtain ⟨k', hk', rfl⟩ := exec_fixed (by rwa [hcon]) hidle.2.1 hexec
  obtain rfl : k' = k := by
    rw [hcon, hk] at hk'
    simpa using hk'.symm
  have hxb := foldl_again (f := fun s a => act a s) (get := State.xb) (fun a => (act_xb_rsel a).1) k' (a := s)
    (b := run [.seq .idle] (acts k' s)) rfl
  have hrsel := foldl_again (f := fun s a => act a s) (get := State.rsel) (fun a => (act_xb_rsel a).2) k' (a := s)
    (b := run [.seq .idle] (acts k' s)) rfl
  obtain ⟨hh', hdir', hout', -⟩ : Emitted (run [.seq .idle] (acts k' s)) (run [.seq .idle] (acts k' _))
    (k'.flatMap (actEvents (run [.seq .idle] (acts k' s)).con)) := emitted_acts k' _
  rw [hcon] at hh' hdir' hout'
  refine ⟨_, _, hh, hexec, hh', ?_, ?_, status_run_seqIdle_acts hidle.2.1 k', rfl, hxb, hrsel⟩
  · rw [hdir', hdir, dirsAfter_twice]
  · rw [hout', hout, latchesAfter_twice]

/-! ### What a run leaves unchanged -/

/-- An observed value that no line of a run and no part of a poll changes, the run leaves unchanged. -/
theorem run_keeps {β : Type} (get : State → β) {c : Consts} {l : List Act}
    (hact : ∀ a ∈ l, a.plain = true → ∀ s, s.con = c → get (act a s) = get s)
    (hbegin : ∀ s, s.con = c → get (pollBegin s) = get s) (hsample : ∀ s, s.con = c → get (sampled s) = get s)
    (hend : ∀ s, s.con = c → get (pollEnd s) = get s) (hraise : ∀ e s, get (raise e s) = get s)
    (htodo : ∀ s k, get { s with todo := k } = get s) {s : State} (hs : s.con = c) : get (run l s) = get s := by
  refine run_induction (M := fun l s t => (∀ a ∈ l, a.plain = true → ∀ s, s.con = c → get (act a s) = get s) →
    s.con = c → get t = get s) ?nil ?plain ?fixed ?poll ?idle ?raised ?busy l s hact hs
  case nil => exact fun s _ _ => htodo s []
  case plain =>
    intro a k s t ha ih hl hs
    exact (ih (fun b hb => hl b (.tail _ hb)) ((act_con a s).trans hs)).trans (hl a (.head _) ha s hs)
  case fixed => exact fun k s t _ ih hl hs => ih (fun b hb => hl b (.tail _ hb)) hs
  case poll =>
    intro k s t _ ih hl hs
    have hk : ∀ b ∈ .pollLoop :: k, b.plain = true → ∀ s, s.con = c → get (act b s) = get s :=
      List.forall_mem_cons.2 ⟨nofun, fun b hb => hl b (.tail _ hb)⟩
    exact (ih hk (by simpa [pollBegin] using hs)).trans (hbegin s hs)
  case idle =>
    intro k s t _ ih hl hs
    have hs' : (sampled s).con = c := (sampled_con s).trans hs
    exact (ih (fun b hb => hl b (.tail _ hb)) (by simpa [pollEnd] using hs)).trans ((hend _ hs').trans (hsample s hs))
  case raised =>
    intro k s _ _ _ hs
    exact (hraise _ _).trans ((hend _ ((sampled_con s).trans hs)).trans (hsample s hs))
  case busy => exact fun k s _ _ _ hs => (htodo _ _).trans (hsample s hs)

/-- No run takes a request of the host. -/
theorem run_host (l : List Act) (s : State) : (run l s).host = s.host :=
  run_keeps State.host (fun a _ _ s _ => act_host a s) (by simp [pollBegin]) (by simp) (by simp [pollEnd]) (by simp)
    (fun _ _ => rfl) rfl

/-- Without its line no run counts a SETUP. -/
theorem run_setups {l : List Act} (h : .countSetup ∉ l) (s : State) : (run l s).setups = s.setups :=
  run_keeps State.setups (fun a ha _ s _ => (carries_act (fun he => h (he ▸ ha)) s).setups) (by simp [pollBegin])
    (by simp) (by simp [pollEnd]) (by simp) (fun _ _ => rfl) rfl

/-- Without the pin configuration a run sets no direction but D7's. -/
theorem run_dir {l : List Act} (h : .pinConfig ∉ l) {s : State} {p : PinId} (hp : p ≠ resolve s.con d7) :
    (run l s).dir[p] = s.dir[p] := by
  refine run_keeps (fun s => s.dir[p]) (c := s.con) (fun a ha _ t _ => ?_) (fun t ht => ?_) (fun t _ => ?_)
    (fun t ht => ?_)
    (fun _ _ => rfl) (fun _ _ => rfl) rfl
  · rw [(emitted_act a t).2.1, dirsAfter_transferEvents (transferEvents_act _ fun he => h (he ▸ ha))]
  · rw [(emitted_pollBegin t).2.1, pollBeginEvents, dirsAfter_append,
      dirsAfter_transferEvents (transferEvents_select _ _), ht]
    simp [dirsAfter_cons, dirAfter, Ne.symm hp]
  · rw [sampled_dir, dirsAfter_sample]
  · rw [(emitted_pollEnd t).2.1, ht]
    simp [pollEndEvents, dirsAfter_cons, dirAfter, Ne.symm hp]

/-- WAIT loads no byte, and writes no latch but those of select and of enable (42_handshake.md R113). -/
theorem run_waitLines (s : State) : (run waitLines s).xb = s.xb ∧ ∀ p : PinId, p ≠ resolve s.con .rs →
    p ≠ resolve s.con .rw → p ≠ resolve s.con .en → (run waitLines s).out[p] = s.out[p] := by
  have hseq {a : Act} (ha : a ∈ waitLines) (hp : a.plain = true) : ∃ q, a = .seq q := by
    obtain rfl | rfl | rfl : a = .seq (.op .prewait) ∨ a = .prewait ∨ a = .seq .idle := by simpa [waitLines] using ha
    · exact ⟨_, rfl⟩
    · cases hp
    · exact ⟨_, rfl⟩
  constructor
  · refine run_keeps State.xb (fun a ha hp t _ => ?_) (by simp [pollBegin]) (by simp) (by simp [pollEnd]) (by simp)
      (fun _ _ => rfl) rfl
    obtain ⟨q, rfl⟩ := hseq ha hp
    rfl
  · intro p hrs hrw hen
    refine run_keeps (fun s => s.out[p]) (c := s.con) (fun a ha hp t _ => ?_) (fun t ht => ?_) (fun t ht => ?_)
      (fun t _ => ?_) (fun _ _ => rfl) (fun _ _ => rfl) rfl
    · obtain ⟨q, rfl⟩ := hseq ha hp
      rfl
    · have hbegin : Unwritten p (pollBeginEvents s.con) :=
        (select_unwritten hrs (fun _ => hrw) _).append fun l => by simp
      rw [(emitted_pollBegin t).2.2.1, ht, latchesAfter_unwritten hbegin]
    · rw [sampled_out, ht, latchesAfter_unwritten (sample_unwritten hen _)]
    · rw [(emitted_pollEnd t).2.2.1, latchesAfter_unwritten fun l => by simp [pollEndEvents]]

/-! ### The frame of an operation -/

theorem countSetup_pinConfig_not_mem_linesOf {i : Instr} (hi : i ≠ .setup) (c : Consts) :
    Act.countSetup ∉ linesOf i c ∧ Act.pinConfig ∉ linesOf i c := by
  obtain ⟨reg, b, wait, -, -, hl⟩ | rfl | rfl := linesOf_cases i
  · simp [hl, transferLines]
  · simp [linesOf, waitLines]
  · exact absurd rfl hi

/-- An operation counts itself if it is SETUP, and else counts nothing. -/
theorem run_linesOf_setups (i : Instr) (s : State) :
    (run (linesOf i s.con) s).setups = s.setups + if i = .setup then 1 else 0 := by
  by_cases hi : i = .setup
  · subst hi
    have hnot : Act.countSetup ∉ afterCountLines s.con ++ (stepsLines (setupSteps s.con) ++ [.seq .idle]) := by
      have hsteps : Act.countSetup ∉ stepsLines (setupSteps s.con) := by simp [stepsLines, transferLines]
      simpa [hsteps] using fun h => (afterCountLines_plain s.con _ h).2.1 rfl
    rw [linesOf, setupLines_eq]
    exact run_setups hnot (act .countSetup s)
  · rw [if_neg hi]
    exact run_setups (countSetup_pinConfig_not_mem_linesOf hi _).1 s

/-- Under FixedDelay an operation leaves the poll's registers, the answers and the status word, and, but for SETUP,
every direction. -/
theorem exec_fixed_keeps {i : Instr} {s t : State} (hf : busyFlagPoll s.con = false) (hrdy : s.rdy = true)
    (h : exec i s = .next t) : t.bfs = s.bfs ∧ t.pcnt = s.pcnt ∧ t.tape = s.tape ∧ t.reads = s.reads ∧
      t.status = s.status ∧ (i ≠ .setup → t.dir = s.dir) := by
  obtain ⟨k, hk, rfl⟩ := exec_fixed hf hrdy h
  have hbfs : (acts k s).bfs = s.bfs := acts_keeps State.bfs (fun a _ s => by cases a <;> simp [act, xfer]) s
  have hpcnt : (acts k s).pcnt = s.pcnt := acts_keeps State.pcnt (fun a _ s => by cases a <;> simp [act, xfer]) s
  have htape : (acts k s).tape = s.tape := acts_keeps State.tape (fun a _ s => by cases a <;> simp [act, xfer]) s
  have hreads : (acts k s).reads = s.reads := acts_keeps State.reads (fun a _ s => by cases a <;> simp [act, xfer]) s
  refine ⟨hbfs, hpcnt, htape, hreads, status_run_seqIdle_acts hrdy k,
    fun hi => acts_keeps State.dir (fun a ha t => ?_) s⟩
  have hne : a ≠ .pinConfig := by
    rintro rfl
    exact (countSetup_pinConfig_not_mem_linesOf hi s.con).2 (hk ▸ List.mem_append_left _ ha)
  rw [(emitted_act a t).2.1, dirsAfter_transferEvents (transferEvents_act _ hne)]

/-- Settles O33: a run's frame, by the lines of each operation. -/
theorem execFrame : Obligations.ExecFrame := by
  intro i s t h
  by_cases hrdy : s.rdy = true
  · have hfixed := fun hf => exec_fixed_keeps hf hrdy h
    obtain ⟨-, rfl⟩ := exec_cases h
    rw [if_pos hrdy] at hfixed ⊢
    obtain ⟨-, es, hemit, hown, -⟩ := runEmits_run (linesOf i s.con) s
    have hpoll (h : busyFlagPoll s.con = true ∨ .pollLoop ∈ linesOf i s.con) : busyFlagPoll s.con = true :=
      h.resolve_right (pollLoop_not_mem_linesOf i s.con)
    refine ⟨run_con .., run_host .., run_cfgErr .., ?_, ?_, ?_, fun hi p hp => ?_, fun p => unusedPin_kept hemit hown,
      ?_, hfixed⟩
    · simpa [hrdy] using run_linesOf_setups i s
    · exact (run_noResp (linesOf i s.con) s).imp And.right fun h => ⟨h.1.port, h.1.noResp, hpoll h.2⟩
    · exact (run_noResp (linesOf i s.con) s).imp And.left fun h => ⟨h.1.noResp, hpoll h.2⟩
    · exact run_dir (countSetup_pinConfig_not_mem_linesOf hi _).2 hp
    · rintro rfl
      exact run_waitLines s
  · obtain ⟨-, rfl⟩ := exec_cases h
    simp [hrdy]

end Sys2Proof.Machine
end

section
/-! PROOF. The premises about the device and the completion of every operation under them (70_reset_and_hazards.md
R202). -/

namespace Sys2Proof.Machine

/-! ### The premises hold of the rest of a run -/

/-- Every step continues the state: a longer trace, and the answers that follow those it read. -/
theorem continues_step {s t : State} (h : step s = .next t) : Continues s t := by
  have same {t : State} (hh : t.h = s.h) (hc : t.con = s.con) (ht : t.tape = s.tape) (hr : t.reads = s.reads) :
      Continues s t := continues_of_noRead (es := []) (by simpa using hh) rfl hc ht hr
  obtain ⟨-, rfl⟩ | ⟨-, rfl | ⟨-, i, ws, rfl⟩ | ⟨rs, ws, rfl⟩ | ⟨r, rs, -, -, rfl⟩⟩ := step_runs h
  · exact continues_run s.todo s
  · exact continues_refl _
  · exact continues_trans (t := { s with port := ws }) (same rfl rfl rfl rfl) (continues_run _ _)
  · exact same rfl rfl rfl rfl
  · exact same rfl rfl rfl rfl

/-- A poll that begins after a step begins in the run from before it, later by the answers the step read. -/
theorem pollBegins_of_step {s t : State} (h : step s = .next t) {es : List Event} (hcon : t.con = s.con)
    (hes : t.h = s.h ++ es) {n : Nat} (hn : PollBegins t n) : PollBegins s (readCount es + n) := by
  obtain ⟨k, u, before, after, hrun, hh, hcount⟩ := hn
  refine ⟨k + 1, u, es ++ before, after, (core_run_succ h k).trans hrun, ?_, by simp [hcount]⟩
  rw [hh, hes, hcon]
  simp

/-- What holds of some answer in every poll of a run holds of it in every poll of the rest of the run. -/
theorem ready_of_step {P : Nat → Prop} {s t : State} (h : step s = .next t)
    (hs : ∀ n, PollBegins s n → ∃ j, P j ∧ s.answer (n + j) = .low) :
    ∀ n, PollBegins t n → ∃ j, P j ∧ t.answer (n + j) = .low := by
  obtain ⟨hcon, es, hes, hans⟩ := continues_step h
  intro n hn
  obtain ⟨j, hj, hlow⟩ := hs _ (pollBegins_of_step h hcon hes hn)
  exact ⟨j, hj, by rw [hans, ← Nat.add_assoc, hlow]⟩

/-! ### The polls that begin -/

/-- A wait reached in the run from `s` begins a poll, after the answers read so far (42_handshake.md R107). -/
theorem pollBegins_of_wait {s u : State} {n : Nat} {l : List Act} {es : List Event} (hpoll : busyFlagPoll s.con = true)
    (hrun : Host.Core.run Sys2Proof.core n s = .next (run (.prewait :: l) u)) (hcon : u.con = s.con)
    (hh : u.h = s.h ++ es) : PollBegins s (readCount es) := by
  obtain ⟨-, rest, ⟨hrest, -⟩, -⟩ := runEmits_run (.pollLoop :: l) (pollBegin u)
  rw [← run_prewait_poll (hcon ▸ hpoll), (emitted_pollBegin u).1, hh, hcon] at hrest
  exact ⟨n, _, es ++ selectEvents s.con .busyFlagRead, rest, hrun, by simpa [pollBeginEvents] using hrest, by simp⟩

/-- The premise about the device, for the bound of the block. -/
def DeviceReady (s : State) : Prop :=
  (s.con.prm.bfRetryMax = none ∧ DeviceEventuallyReady s) ∨
    ∃ m, s.con.prm.bfRetryMax = some m ∧ DeviceReadyWithin m s

/-- In a poll that begins, a ready device is busy for some number of samples short of the bound, and then idle. -/
theorem DeviceReady.exists_idle {s : State} (hs : DeviceReady s) {n : Nat} (hn : PollBegins s n) :
    ∃ k, (∀ j, j < k → s.answer (n + j) = .high) ∧ s.answer (n + k) = .low ∧
      ∀ m, s.con.prm.bfRetryMax = some m → k < m := by
  have hlow : ∃ j, s.answer (n + j) = .low ∧ ∀ m, s.con.prm.bfRetryMax = some m → j < m := by
    obtain ⟨hnone, hready⟩ | ⟨m, hm, hready⟩ := hs
    · obtain ⟨j, hj⟩ := hready n hn
      exact ⟨j, hj, by simp [hnone]⟩
    · obtain ⟨j, hlt, hj⟩ := hready n hn
      exact ⟨j, hj, fun m' hm' => by simp_all⟩
  obtain ⟨j, hj, hbound⟩ := hlow
  have hex : ∃ k, s.answer (n + k) = .low := ⟨j, hj⟩
  refine ⟨Nat.find hex, fun i hi => ?_, Nat.find_spec hex, fun m hm => (Nat.find_le hj).trans_lt (hbound m hm)⟩
  cases h : s.answer (n + i) with
  | low => exact absurd h (Nat.find_min hex hi)
  | high => rfl

/-! ### SETUP's polls -/

theorem readCount_flatMap_actEvents (c : Consts) (k : List Act) : readCount (k.flatMap (actEvents c)) = 0 := by
  induction k with
  | nil => rfl
  | cons a k ih => simp [ih]

/-- SETUP has read as many answers as the levels of the polls that ended. -/
theorem readCount_setupEventsPoll (c : Consts) {ks : List Nat} (hlen : ks.length ≤ 6) :
    readCount (setupEventsPoll c ks) = (pollLevels ks).length := by
  have hsteps (l : List (Byte × Nat)) (ks : List Nat) (h : ks.length ≤ l.length) :
      readCount ((l.zip ks).flatMap fun p => pollEvents c p.2 ++ xferEvents c .instruction p.1.1) =
        ks.sum + ks.length := by
    induction ks generalizing l with
    | nil => simp
    | cons k ks ih =>
      cases l with
      | nil => simp at h
      | cons b l => simp [ih l (by simpa using h)]; omega
  rw [setupEventsPoll, ← flatMap_openingLines, readCount_append, readCount_flatMap_actEvents, Nat.zero_add,
    length_pollLevels]
  exact hsteps (setupBytes c) ks hlen

theorem answers_of_parts {a b : List Level} {s : State} (ha : Answers a s)
    (hb : ∀ n, ∀ hn : n < b.length, s.answer (a.length + n) = b[n]) : Answers (a ++ b) s := by
  intro n hn
  by_cases h : n < a.length
  · rw [ha n h, List.getElem_append_left h]
  · have hsplit := hb (n - a.length) (by simp at hn; omega)
    rw [Nat.add_sub_cancel' (by omega)] at hsplit
    rw [hsplit, List.getElem_append_right (by omega)]

/-- A poll busy for `k` samples and then idle extends the answers of the polls before it. -/
theorem answers_pollLevels_concat {ks : List Nat} {k : Nat} {s : State} (hks : Answers (pollLevels ks) s)
    (hbusy : ∀ j, j < k → s.answer ((pollLevels ks).length + j) = .high)
    (hidle : s.answer ((pollLevels ks).length + k) = .low) : Answers (pollLevels (ks ++ [k])) s := by
  have hconcat : pollLevels (ks ++ [k]) = pollLevels ks ++ (List.replicate k .high ++ [.low]) := by simp [pollLevels]
  rw [hconcat]
  refine answers_of_parts hks fun n hn => ?_
  by_cases h : n < k
  · rw [hbusy n h, List.getElem_append_left (by simpa using h), List.getElem_replicate]
  · obtain rfl : n = k := by simp at hn; omega
    rw [hidle, List.getElem_append_right (by simp)]
    simp

/-- A SETUP at the port of a block whose device is ready: each of its polls ends, and so the next begins. -/
theorem exists_setup_polls {s : State} {w : OpWord} {ws : List OpWord} (hs : IdleReady s) (hport : s.port = w :: ws)
    (hdec : decode w = .ok .setup) (hpoll : busyFlagPoll s.con = true) (hready : DeviceReady s) {j : Nat} (hj : j ≤ 6) :
    ∃ ks : List Nat, ks.length = j ∧ Answers (pollLevels ks) s ∧
      ∀ m, s.con.prm.bfRetryMax = some m → ∀ k ∈ ks, k < m := by
  induction j with
  | zero => exact ⟨[], rfl, nofun, nofun⟩
  | succ j ih =>
    obtain ⟨ks, hlen, hans, hbound⟩ := ih (Nat.le_of_succ_le hj)
    obtain ⟨u, v, t, hexec, hopen, hdone, hrun⟩ := core_run_setup (s := { s with port := ws }) hs.2.1 hpoll
      (by omega) hans hbound
    obtain ⟨hemit, hkept, -⟩ := emitted_setup hopen hdone
    obtain ⟨p, l, hl⟩ : ∃ p l, (setupSteps s.con).drop ks.length = p :: l :=
      List.exists_cons_of_ne_nil (by simp [List.drop_eq_nil_iff, setupSteps]; omega)
    have hstep := (stepRunsDecodedInstruction s w ws .setup hs hport hdec rfl).trans hexec
    rw [hl, stepsLines_cons, run_transferLines] at hrun
    have hbegins := pollBegins_of_wait hpoll ((core_run_succ hstep _).trans hrun) hkept.1 hemit.1
    rw [readCount_setupEventsPoll _ (by omega)] at hbegins
    obtain ⟨k, hbusy, hidle, hk⟩ := hready.exists_idle hbegins
    refine ⟨ks ++ [k], by simp [hlen], answers_pollLevels_concat hans hbusy hidle, fun m hm => ?_⟩
    simpa [or_imp, forall_and] using ⟨hbound m hm, hk m hm⟩

/-! ### Completion -/

/-- Settles O60: every poll that begins ends, so the poll runs of R112 and R116 apply; and a step only shortens the
run the premises speak of. -/
theorem readyDeviceCompletes : Obligations.ReadyDeviceCompletes := by
  refine ⟨fun s w ws i hs hport hdec hfrom hpoll hready => ?_, fun s t h => ⟨fun hs n hn => ?_, fun m hs => ?_⟩⟩
  · have hready : DeviceReady s := hready
    by_cases hi : i = .setup
    · subst hi
      obtain ⟨ks, hlen, hans, hbound⟩ := exists_setup_polls hs hport hdec hpoll hready (Nat.le_refl 6)
      obtain ⟨u, n, t, hexec, hrun, hemit, ⟨hcon, hcfg, hno, hport', hhost⟩, -, hidle, hset, -⟩ :=
        setupEffectBusyFlagPoll { s with port := ws } ks hs.2.1 hpoll hlen hans hbound
      have hstep := (stepRunsDecodedInstruction s w ws .setup hs hport hdec hfrom).trans hexec
      refine ⟨n + 1, t, _, (core_run_succ hstep n).trans hrun, hidle, fun _ => ⟨ks, hlen, rfl⟩, fun h => absurd rfl h,
        ?_, hport', hhost, ?_, hcon, hset⟩
      · exact (List.append_nil (setupEventsPoll s.con ks)).symm ▸ hemit
      · exact status_ext (hidle.2.1.trans hs.2.1.symm) hcfg hno
    · have hwf := wellFormed_of_decode hdec
      obtain ⟨u, l, hwait⟩ := exists_waitsThen (s := { s with port := ws }) hwf hi hs.2.1
      have hstep := (stepRunsDecodedInstruction s w ws i hs hport hdec hfrom).trans hwait.exec
      have hbegins := pollBegins_of_wait hpoll ((core_run_succ hstep 0).trans rfl) hwait.carries.kept.1 hwait.before.1
      obtain ⟨k, hbusy, hlow, hbound⟩ := hready.exists_idle hbegins
      simp only [readCount_nil, Nat.zero_add] at hbusy hlow
      obtain ⟨u, t, hexec, hrun, hemit, ⟨hcon, hcfg, hno, hport', hhost⟩, -, hidle, hset, -⟩ :=
        exec_poll_idle (s := { s with port := ws }) hwf hi hs.2.1 hpoll hbusy hlow hbound
      have hstep := (stepRunsDecodedInstruction s w ws i hs hport hdec hfrom).trans hexec
      exact ⟨k + 1, t, _, (core_run_succ hstep k).trans hrun, hidle, fun h => absurd h hi, fun _ => ⟨k, rfl⟩, hemit,
        hport', hhost, status_ext (hidle.2.1.trans hs.2.1.symm) hcfg hno, hcon, by simpa [hi] using hset⟩
  · obtain ⟨j, -, hlow⟩ := ready_of_step (P := fun _ => True) h
      (fun n hn => (hs n hn).imp fun _ hj => ⟨trivial, hj⟩) n hn
    exact ⟨j, hlow⟩
  · exact ready_of_step h hs

end Sys2Proof.Machine
end
